-- ==== Sys2Proof/Word.lean ====
section
/-! DEFINITION. The plain data types of the block: bytes, alert lines, the states of its sequencing registers, servo legs.
Their bit encodings stand in Decode.lean. -/

namespace Sys2Proof

/-- A byte, `b[7:0]`, bit 0 least significant (R12). -/
abbrev Byte := BitVec 8

/-- The alert line index `l` (R105): 0 is the IMU data-ready line, 1 the current-sensor conversion-ready line. -/
inductive Line where
  | imu
  | cs
deriving DecidableEq, Repr, Inhabited

/-- The four combinations of `fs_state = {expect_start, seen_end}` (R23). -/
inductive FsState where
  /-- 0b10: a start delimiter is expected. -/
  | seekStart
  /-- 0b00: inside a frame, body bytes are collected in FB. -/
  | accumulating
  /-- 0b01: FB holds a complete frame body for DEC and DISP. -/
  | handoff
  /-- 0b11: bytes are discarded until the next delimiter. -/
  | seekEnd
deriving DecidableEq, Repr, Inhabited

/-- The nine legal values of MAIN's phase register `mphase` (R21). -/
inductive Phase where
  | rx
  | decode
  | dispatch
  | calWait
  | arb
  | svcWait
  | rearm1
  | rearm2
  | endIter
deriving DecidableEq, Repr, Inhabited

/-- The transmit framer's phase `tx_phase` (R41). -/
inductive TxPhase where
  | idle
  | send
deriving DecidableEq, Repr, Inhabited

/-- One leg's three joint angles, in payload order (R90). -/
structure Leg where
  j0 : Byte
  j1 : Byte
  j2 : Byte
deriving DecidableEq, Repr, Inhabited

end Sys2Proof
end

