-- ==== Sys2Proof/Config.lean ====
section
/-! DEFINITION. What an implementation fixes (the parameters of R10), what the environment may do next (R7), and the values the
spec leaves free. -/

namespace Sys2Proof

/-- The trigger mode of an alert line (R10). -/
inductive TrigMode where
  | rise
  | fall
  | high
  | low
deriving DecidableEq, Repr, Inhabited

/-- The implementation parameters of R10 that a rule of the block reads. A machine's parameters stand in its state as plain data
and no step writes them (log entry 2). -/
structure Params where
  /-- `FRAME_CAP`, the capacity of FB. -/
  frameCap : Nat
  /-- `MSG_CAP`, the capacity of MB. -/
  msgCap : Nat
  /-- `TX_MSG_CAP`, the longest outbound message TX accepts. -/
  txMsgCap : Nat
  /-- `TX_ENC_CAP`, the capacity of the encoder output. -/
  txEncCap : Nat
  /-- `PO_RESET_LEVEL`. -/
  poResetLevel : Byte
  /-- `PO_RESET_INTERVAL`, an i16. -/
  poResetInterval : BitVec 16
  /-- `PO_RESET_PERF`. -/
  poResetPerf : Bool
deriving DecidableEq, Repr, Inhabited

/-- The default value R10 gives each parameter. -/
def Params.default : Params where
  frameCap := 100
  msgCap := 100
  txMsgCap := 128
  txEncCap := 129
  poResetLevel := 0#8
  poResetInterval := 0xFFFF#16
  poResetPerf := false

/-- The constraints of R10. The upper bound on `TX_ENC_CAP` is DEDUCED from the 16 bits of `tx_len` (R42); safe (log entry 3). -/
abbrev Params.Valid (p : Params) : Prop :=
  14 ≤ p.frameCap ∧ p.frameCap ≤ 65535 ∧ p.frameCap ≤ p.msgCap + 1 ∧ 101 ≤ p.txMsgCap ∧
    1 ≤ p.txEncCap ∧ p.txEncCap + 2 ≤ 65535

/-- `PERF_PERIOD`, fixed (R10). -/
def Config.perfPeriod : Nat := 10000

/-- `TRIG_MODE[l]`, left OPEN; no rule of the block reads it (R10). -/
opaque Config.trigMode : Line → TrigMode

/-- One attempted step of one agent, with the values the environment supplies in it (R7, R13's `draw`, R106's ports). -/
inductive Event where
  /-- MAIN takes the port-free step of its phase. -/
  | main
  /-- MAIN polls, and HOST answers `none` or a byte (R160). -/
  | rxPoll (answer : Option Byte)
  /-- EST offers `calib_done` (R199). -/
  | calibDone
  /-- EST offers `svc_done(l)` (R237). -/
  | svcDone (l : Line)
  /-- EMIT offers `tx_req(M)` (R130). -/
  | txReq (m : List Byte)
  /-- TX steps and the HOST sink accepts (R131). -/
  | txPut
  /-- IRQ steps for line `l` (R241). -/
  | irq (l : Line)
  /-- An alert event on line `l` (R240). -/
  | alert (l : Line)
  /-- BOOT offers `arm(l)` (R244). -/
  | arm (l : Line)
  /-- CLOCK advances by `d` microseconds (R239). -/
  | clock (d : BitVec 64)
  /-- The platform asserts `rst` (R320). -/
  | rst
deriving DecidableEq, Repr, Inhabited

/-- The interleaving of the agents and the draws of the environment, where the state's schedule names none: any event may come
next (R7; 93_implementation_defined.md rows 2 to 4). A free value, read at the state's draw counter (log entry 1). -/
opaque Config.freeEvent : Nat → Event

/-- `now_us` at reset: any value, a draw (R44). A free value (log entry 4). -/
opaque Config.clockAtReset : BitVec 64

end Sys2Proof
end

