-- ==== Sys2Proof/Machine/Fields.lean ====
section
/-! DEFINITION. Bit fields: the codes of the sequencing registers, the payload length of each opcode, byte order. -/

namespace Sys2Proof

/-- Line 0 is IMU, line 1 is CS (R105); also the encoding of `svc_line` (R22). -/
def Line.bits : Line → BitVec 1
  | .imu => 0#1
  | .cs => 1#1

/-- `{expect_start, seen_end}` (R23). -/
def FsState.bits : FsState → BitVec 2
  | .seekStart => 0b10#2
  | .accumulating => 0b00#2
  | .handoff => 0b01#2
  | .seekEnd => 0b11#2

/-- 0 IDLE, 1 SEND (R41). -/
def TxPhase.bits : TxPhase → BitVec 1
  | .idle => 0#1
  | .send => 1#1

/-- The value of `mphase` that stands for a phase (R21). -/
def Phase.bits : Phase → BitVec 4
  | .rx => 0#4
  | .decode => 1#4
  | .dispatch => 2#4
  | .calWait => 3#4
  | .arb => 4#4
  | .svcWait => 5#4
  | .rearm1 => 6#4
  | .rearm2 => 7#4
  | .endIter => 8#4

/-- The phase a value of `mphase` stands for; none for 9 to 15 (R21). -/
def Phase.ofBits (v : BitVec 4) : Option Phase :=
  match v.toNat with
  | 0 => some .rx
  | 1 => some .decode
  | 2 => some .dispatch
  | 3 => some .calWait
  | 4 => some .arb
  | 5 => some .svcWait
  | 6 => some .rearm1
  | 7 => some .rearm2
  | 8 => some .endIter
  | _ => none

/-- `EXPECTED_PLEN(op)` (R88): 12 for 0, 0 for 1 to 4, 4 for 5, undefined above. -/
def expectedPlen (op : Byte) : Option Nat :=
  if op = 0#8 then some 12 else if op ≤ 4#8 then some 0 else if op = 5#8 then some 4 else none

/-- A big-endian 16-bit field (R66, R94). -/
def be16 (hi lo : Byte) : BitVec 16 := hi ++ lo

/-- The first byte of a big-endian 16-bit field. -/
def be16Hi (v : BitVec 16) : Byte := v.extractLsb' 8 8

/-- The second byte of a big-endian 16-bit field. -/
def be16Lo (v : BitVec 16) : Byte := v.extractLsb' 0 8

/-- A leg's three payload bytes in order (R90). -/
def Leg.bytes (l : Leg) : List Byte := [l.j0, l.j1, l.j2]

/-- The `n` low bytes of a table word, the least significant first. -/
def wordBytes (w : Nat) : Nat → List Byte
  | 0 => []
  | n + 1 => BitVec.ofNat 8 w :: wordBytes (w / 256) n

end Sys2Proof
end

