-- ==== Sys2Proof/Syntax.lean ====
section
/-! DEFINITION. The operations of the block: one constructor for each mnemonic of spec/opcode_table.json (the six rows of
UNKNOWN_OPCODE, which split one rule's opcodes by mask, are one constructor with the opcode as operand; log entry 5). -/

namespace Sys2Proof

/-- An operation of the block (R3), with the operands its rule lists. -/
inductive Instr where
  -- message (42_dispatcher.md)
  | setServoAngles (rf rb lf lb : Leg)
  | requestState
  | calibrateImu
  | emitBufferedErrorLog
  | resetDeadReckoning
  | setProgramOptions (level : Byte) (interval : BitVec 16) (perfFlag : Byte)
  | unknownOpcode (op : Byte) (plen : BitVec 16)
  | badLength (op : Byte) (plen : BitVec 16)
  | emptyMessage
  -- code_byte (40_codec.md)
  | codeZero
  | codeFull
  | codeRun (c : Byte)
  -- wire_byte (41_frame_sync.md)
  | syncStartDelim
  | syncStartData (b : Byte)
  | syncSeekEndDelim
  | syncSeekEndData (b : Byte)
  | syncAccDelimEmpty
  | syncAccDelimEnd
  | syncAccData (b : Byte)
  | syncAccOverflow (b : Byte)
  -- grant (43_handoff.md)
  | grantImu
  | grantCs
  | grantPeriodic
  | grantIdle
  -- port_op
  | rxPoll (answer : Option Byte)
  | decode
  | frameDone
  | dispatch
  | calDone
  | arb
  | svcDone (l : Line)
  | rearm1
  | rearm2
  | endIter
  | perfFlush
  | txReq (m : List Byte)
  | txPut
  | irqFire (l : Line)
  | alert (l : Line)
  | bootArm (l : Line)
  | clockTick (d : BitVec 64)
  | reset
  | encode (src : List Byte)
  | decodeFn (src : List Byte) (cap : Nat)
deriving DecidableEq, Repr, Inhabited

end Sys2Proof
end

