-- ==== Sys2Proof/WellFormed.lean ====
section
/-! DEFINITION. Which operand values the rules give each operation. -/

namespace Sys2Proof

/-- The operand checks, one line for each operation that has one. A payload length is at most 65534, since `mlen = plen + 1` has
16 bits (R27, R86). -/
def Instr.wellFormed : Instr → Bool
  | .unknownOpcode op plen => decide (5#8 < op) && decide (plen ≠ 0xFFFF#16)
  | .badLength op plen =>
      decide (op ≤ 5#8) && decide (expectedPlen op ≠ some plen.toNat) && decide (plen ≠ 0xFFFF#16)
  | .codeRun c => decide (c ≠ 0#8) && decide (c ≠ 0xFF#8)
  | .syncStartData b => decide (b ≠ 0#8)
  | .syncSeekEndData b => decide (b ≠ 0#8)
  | .syncAccData b => decide (b ≠ 0#8)
  | .syncAccOverflow b => decide (b ≠ 0#8)
  | .clockTick d => decide (d ≠ 0#64)
  | .setServoAngles _ _ _ _ => true
  | .requestState => true
  | .calibrateImu => true
  | .emitBufferedErrorLog => true
  | .resetDeadReckoning => true
  | .setProgramOptions _ _ _ => true
  | .emptyMessage => true
  | .codeZero => true
  | .codeFull => true
  | .syncStartDelim => true
  | .syncSeekEndDelim => true
  | .syncAccDelimEmpty => true
  | .syncAccDelimEnd => true
  | .grantImu => true
  | .grantCs => true
  | .grantPeriodic => true
  | .grantIdle => true
  | .rxPoll _ => true
  | .decode => true
  | .frameDone => true
  | .dispatch => true
  | .calDone => true
  | .arb => true
  | .svcDone _ => true
  | .rearm1 => true
  | .rearm2 => true
  | .endIter => true
  | .perfFlush => true
  | .txReq _ => true
  | .txPut => true
  | .irqFire _ => true
  | .alert _ => true
  | .bootArm _ => true
  | .reset => true
  | .encode _ => true
  | .decodeFn _ _ => true

end Sys2Proof
end

