-- ==== Sys2Proof/Decode.lean ====
section
/-! DEFINITION. Decoding and encoding. R108 gives four encoding spaces, each selected by context and never by a mode bit: wire
bytes, code bytes, message bytes, and port operations and grants. -/

namespace Sys2Proof

/-! ### The four spaces -/

/-- What a decoded message asks for (R190). -/
inductive Message where
  | setServoAngles (rf rb lf lb : Leg)
  | requestState
  | calibrateImu
  | emitBufferedErrorLog
  | resetDeadReckoning
  | setProgramOptions (level : Byte) (interval : BitVec 16) (perfFlag : Byte)
  | unknownOpcode (op : Byte) (plen : BitVec 16)
  | badLength (op : Byte) (plen : BitVec 16)
  | emptyMessage
deriving DecidableEq, Repr

/-- The class of a code byte (R84). -/
inductive CodeClass where
  | zero
  | full
  | run (c : Byte)
deriving DecidableEq, Repr

/-- A transition of the synchronizer (R170). -/
inductive SyncOp where
  | startDelim
  | startData (b : Byte)
  | seekEndDelim
  | seekEndData (b : Byte)
  | accDelimEmpty
  | accDelimEnd
  | accData (b : Byte)
  | accOverflow (b : Byte)
deriving DecidableEq, Repr

/-- The arbiter's grant (R104). -/
inductive Grant where
  | imu
  | cs
  | periodic
  | idle
deriving DecidableEq, Repr

/-- What selects a port operation: the port that offers a transaction, MAIN's phase, or the rule that performs an action inside
its own step (R106; the table's `trigger`). -/
inductive Trigger where
  | rxPoll (answer : Option Byte)
  | mphase (v : BitVec 4)
  | calibDone
  | svcDone (l : Line)
  | txReq (m : List Byte)
  | txPut
  | irq (l : Line)
  | alert (l : Line)
  | arm (l : Line)
  | clock (d : BitVec 64)
  | rst
  | insideFrameDone
  | insidePerfFlush
  | callEncode (src : List Byte)
  | callDecode (src : List Byte) (cap : Nat)
deriving DecidableEq, Repr

/-- An encoded operation, in the space that holds it (R108). A wire byte's meaning depends on `fs_state`, on `flen` and on
`FRAME_CAP` (R170). -/
inductive Encoded where
  | message (m : List Byte)
  | code (c : Byte)
  | wire (fs : FsState) (flen : BitVec 16) (cap : Nat) (b : Byte)
  | grant (g : BitVec 2)
  | port (t : Trigger)
deriving DecidableEq, Repr

/-- Why a decoder gives no operation. -/
inductive DecodeError where
  /-- HANDOFF accepts no byte (R169). -/
  | notPolled
  /-- `flen` exceeds FRAME_CAP, which R25 excludes. -/
  | fillBeyondCapacity
  /-- MAIN's phase waits for a port transaction: RX, CAL_WAIT and SVC_WAIT have no port-free step (R21). -/
  | awaitsPort (v : BitVec 4)
  /-- `mphase` holds 9 to 15 (R21). -/
  | illegalPhase (v : BitVec 4)
deriving DecidableEq, Repr

def Message.toInstr : Message → Instr
  | .setServoAngles rf rb lf lb => .setServoAngles rf rb lf lb
  | .requestState => .requestState
  | .calibrateImu => .calibrateImu
  | .emitBufferedErrorLog => .emitBufferedErrorLog
  | .resetDeadReckoning => .resetDeadReckoning
  | .setProgramOptions level interval perfFlag => .setProgramOptions level interval perfFlag
  | .unknownOpcode op plen => .unknownOpcode op plen
  | .badLength op plen => .badLength op plen
  | .emptyMessage => .emptyMessage

def CodeClass.toInstr : CodeClass → Instr
  | .zero => .codeZero
  | .full => .codeFull
  | .run c => .codeRun c

def SyncOp.toInstr : SyncOp → Instr
  | .startDelim => .syncStartDelim
  | .startData b => .syncStartData b
  | .seekEndDelim => .syncSeekEndDelim
  | .seekEndData b => .syncSeekEndData b
  | .accDelimEmpty => .syncAccDelimEmpty
  | .accDelimEnd => .syncAccDelimEnd
  | .accData b => .syncAccData b
  | .accOverflow b => .syncAccOverflow b

def Grant.toInstr : Grant → Instr
  | .imu => .grantImu
  | .cs => .grantCs
  | .periodic => .grantPeriodic
  | .idle => .grantIdle

/-! ### The decoders -/

/-- A message of a known opcode, by its payload; a payload of another length is BAD_LENGTH (R87, R90 to R95, R190). -/
def decodeKnown (op : Byte) (payload : List Byte) : Message :=
  match op.toNat, payload with
  | 0, [a0, a1, a2, a3, a4, a5, a6, a7, a8, a9, a10, a11] =>
      .setServoAngles ⟨a0, a1, a2⟩ ⟨a3, a4, a5⟩ ⟨a6, a7, a8⟩ ⟨a9, a10, a11⟩
  | 1, [] => .requestState
  | 2, [] => .calibrateImu
  | 3, [] => .emitBufferedErrorLog
  | 4, [] => .resetDeadReckoning
  | 5, [level, hi, lo, perf] => .setProgramOptions level (be16 hi lo) perf
  | _, _ => .badLength op (BitVec.ofNat 16 payload.length)

/-- The validation order of R190: empty, then unknown opcode, then payload length. -/
def decodeMessage : List Byte → Message
  | [] => .emptyMessage
  | op :: payload =>
      if 5#8 < op then .unknownOpcode op (BitVec.ofNat 16 payload.length)
      else if expectedPlen op ≠ some payload.length then .badLength op (BitVec.ofNat 16 payload.length)
      else decodeKnown op payload

/-- CODE_ZERO, then CODE_FULL, then CODE_RUN (R84). -/
def decodeCode (c : Byte) : CodeClass :=
  if c = 0#8 then .zero else if c = 0xFF#8 then .full else .run c

/-- The transition table of R170, the DELIM class tested first (R81). -/
def decodeWire (fs : FsState) (flen : BitVec 16) (cap : Nat) (b : Byte) : Except DecodeError SyncOp :=
  match fs with
  | .seekStart => if b = 0#8 then .ok .startDelim else .ok (.startData b)
  | .seekEnd => if b = 0#8 then .ok .seekEndDelim else .ok (.seekEndData b)
  | .handoff => .error .notPolled
  | .accumulating =>
      if b = 0#8 then (if flen = 0#16 then .ok .accDelimEmpty else .ok .accDelimEnd)
      else if flen.toNat < cap then .ok (.accData b)
      else if flen.toNat = cap then .ok (.accOverflow b)
      else .error .fillBeyondCapacity

/-- The grant codes of R104. -/
def decodeGrant (g : BitVec 2) : Grant :=
  match g.toNat with
  | 0 => .imu
  | 1 => .cs
  | 2 => .periodic
  | _ => .idle

/-- The port-free operation of a phase (R21). -/
def decodePhase (v : BitVec 4) : Except DecodeError Instr :=
  match Phase.ofBits v with
  | none => .error (.illegalPhase v)
  | some .rx => .error (.awaitsPort v)
  | some .decode => .ok .decode
  | some .dispatch => .ok .dispatch
  | some .calWait => .error (.awaitsPort v)
  | some .arb => .ok .arb
  | some .svcWait => .error (.awaitsPort v)
  | some .rearm1 => .ok .rearm1
  | some .rearm2 => .ok .rearm2
  | some .endIter => .ok .endIter

/-- The operation a trigger selects (R106). -/
def decodePort : Trigger → Except DecodeError Instr
  | .rxPoll a => .ok (.rxPoll a)
  | .mphase v => decodePhase v
  | .calibDone => .ok .calDone
  | .svcDone l => .ok (.svcDone l)
  | .txReq m => .ok (.txReq m)
  | .txPut => .ok .txPut
  | .irq l => .ok (.irqFire l)
  | .alert l => .ok (.alert l)
  | .arm l => .ok (.bootArm l)
  | .clock d => .ok (.clockTick d)
  | .rst => .ok .reset
  | .insideFrameDone => .ok .frameDone
  | .insidePerfFlush => .ok .perfFlush
  | .callEncode src => .ok (.encode src)
  | .callDecode src cap => .ok (.decodeFn src cap)

/-- The decoder of each space. -/
def decode : Encoded → Except DecodeError Instr
  | .message m => .ok (decodeMessage m).toInstr
  | .code c => .ok (decodeCode c).toInstr
  | .wire fs flen cap b =>
      match decodeWire fs flen cap b with
      | .ok op => .ok op.toInstr
      | .error e => .error e
  | .grant g => .ok (decodeGrant g).toInstr
  | .port t => decodePort t

/-! ### The encoder -/

/-- An encoding of each operation. An error message is encoded with a payload of zeros, a synchronizer operation in a context that
selects it (`flen` 0, 1 or FRAME_CAP; FRAME_CAP at its default). -/
def encode : Instr → Encoded
  | .setServoAngles rf rb lf lb => .message (0x00#8 :: (rf.bytes ++ rb.bytes ++ lf.bytes ++ lb.bytes))
  | .requestState => .message [0x01#8]
  | .calibrateImu => .message [0x02#8]
  | .emitBufferedErrorLog => .message [0x03#8]
  | .resetDeadReckoning => .message [0x04#8]
  | .setProgramOptions level interval perf =>
      .message [0x05#8, level, be16Hi interval, be16Lo interval, perf]
  | .unknownOpcode op plen => .message (op :: List.replicate plen.toNat 0#8)
  | .badLength op plen => .message (op :: List.replicate plen.toNat 0#8)
  | .emptyMessage => .message []
  | .codeZero => .code 0x00#8
  | .codeFull => .code 0xFF#8
  | .codeRun c => .code c
  | .syncStartDelim => .wire .seekStart 0#16 100 0#8
  | .syncStartData b => .wire .seekStart 0#16 100 b
  | .syncSeekEndDelim => .wire .seekEnd 0#16 100 0#8
  | .syncSeekEndData b => .wire .seekEnd 0#16 100 b
  | .syncAccDelimEmpty => .wire .accumulating 0#16 100 0#8
  | .syncAccDelimEnd => .wire .accumulating 1#16 100 0#8
  | .syncAccData b => .wire .accumulating 0#16 100 b
  | .syncAccOverflow b => .wire .accumulating 100#16 100 b
  | .grantImu => .grant 0b00#2
  | .grantCs => .grant 0b01#2
  | .grantPeriodic => .grant 0b10#2
  | .grantIdle => .grant 0b11#2
  | .rxPoll a => .port (.rxPoll a)
  | .decode => .port (.mphase 1#4)
  | .frameDone => .port .insideFrameDone
  | .dispatch => .port (.mphase 2#4)
  | .calDone => .port .calibDone
  | .arb => .port (.mphase 4#4)
  | .svcDone l => .port (.svcDone l)
  | .rearm1 => .port (.mphase 6#4)
  | .rearm2 => .port (.mphase 7#4)
  | .endIter => .port (.mphase 8#4)
  | .perfFlush => .port .insidePerfFlush
  | .txReq m => .port (.txReq m)
  | .txPut => .port .txPut
  | .irqFire l => .port (.irq l)
  | .alert l => .port (.alert l)
  | .bootArm l => .port (.arm l)
  | .clockTick d => .port (.clock d)
  | .reset => .port .rst
  | .encode src => .port (.callEncode src)
  | .decodeFn src cap => .port (.callDecode src cap)

/-! ### The table's words -/

/-- A table word read as a message: the opcode is its low byte, the payload the bytes above, as many as the opcode has (R88), or
as the row's bits hold for an opcode that has none. -/
def tableMessage (nbits w : Nat) : List Byte :=
  BitVec.ofNat 8 w :: wordBytes (w / 256) ((expectedPlen (BitVec.ofNat 8 w)).getD (nbits / 8 - 1))

/-- The space a table word is read in. The table's spaces overlap and only the block's context tells them apart (R108), so one
space is chosen for each word: DESIGN CHOICE, safe (log entry 6). -/
def tableEncoded (nbits w : Nat) : Option Encoded :=
  if nbits = 0 then none
  else if 8 < nbits then some (.message (tableMessage nbits w))
  else if BitVec.ofNat 8 w = 0#8 then some (.wire .seekStart 0#16 100 0#8)
  else if BitVec.ofNat 8 w = 0xFF#8 then some (.code 0xFF#8)
  else some (.message (tableMessage nbits w))

/-- The operation the decoder reads from a table word. -/
def decodeTableWord (nbits w : Nat) : Option Instr :=
  match tableEncoded nbits w with
  | none => none
  | some e =>
    match decode e with
    | .ok i => some i
    | .error _ => none

end Sys2Proof
end

