-- ==== Sys2Proof/Machine/State.lean ====
section
/-! DEFINITION. The state of the block (10_state.md), its observable trace (R45), and the reasons a step can stop. -/

namespace Sys2Proof.Machine

/-- A byte buffer: the bytes that hold a value, by index, strictly rising; an index that is not listed holds no value (R14). -/
abbrev Memory := List Host.Cell

/-- The three byte-addressed spaces (R60). -/
inductive Space where
  /-- FB, the frame buffer. -/
  | fb
  /-- MB, the message buffer. -/
  | mb
  /-- TB, the transmit buffer. -/
  | tb
deriving DecidableEq, Repr

/-- One bit for each alert line. -/
structure LineBits where
  imu : Bool
  cs : Bool
deriving DecidableEq, Repr

/-- A port transaction of the trace (R45, R106): the inputs the block accepted, then its outputs. -/
inductive Transaction where
  | rxAnswer (answer : Option Byte)
  | txReq (m : List Byte)
  | svcDone (l : Line)
  | calibDone
  | arm (l : Line)
  | alert (l : Line)
  | txPut (b : Byte)
  | servoCmd (rf rb lf lb : Leg)
  | stateReq
  | calibReq
  | errlogReq
  | resetDr
  | poUpdate (level : Byte) (interval : BitVec 16) (perf : Bool)
  | svcReq (l : Line)
  | telemReq
  | perfReq (idle : BitVec 16) (elapsed : BitVec 32)
  | errReport (code : BitVec 4) (arg : Byte) (len : BitVec 16) (stat : BitVec 4)
deriving DecidableEq, Repr

/-- The local variables of `Decode` (R123): the unread input `src[i..)`, the output, the status, the output capacity, and whether
the decode has returned. The model's own field: it lets a code byte's operation be run by itself (log entry 7). -/
structure DecWork where
  rest : List Byte
  dst : List Byte
  stat : BitVec 4
  cap : Nat
  ended : Bool
deriving DecidableEq, Repr

/-- The machine's state. -/
structure State where
  /-- The implementation parameters (R10); no step writes them. -/
  params : Params
  /-- MAIN's phase register, 4 bits (R21). -/
  mphase : BitVec 4
  /-- The alert line being serviced (R22). -/
  svcLine : Line
  /-- The synchronizer state (R23). -/
  fsState : FsState
  /-- FB, the frame accumulation buffer (R24). -/
  fb : Memory
  /-- The number of body bytes in FB (R25). -/
  flen : BitVec 16
  /-- MB, the decoded message buffer (R26). -/
  mb : Memory
  /-- The number of message bytes in MB (R27). -/
  mlen : BitVec 16
  /-- The status of the last decode (R28, R100). -/
  dstat : BitVec 4
  /-- PO_LEVEL (R29). -/
  poLevel : Byte
  /-- PO_INTERVAL, an i16 (R30). -/
  poInterval : BitVec 16
  /-- PO_PERF (R31). -/
  poPerf : Bool
  /-- The next periodic telemetry time, microseconds (R34). -/
  deadline : BitVec 64
  /-- Main-loop iterations since the last performance flush (R35). -/
  loopCount : BitVec 16
  /-- Idle iterations since the last performance flush (R36). -/
  idleCount : BitVec 16
  /-- The clock at the start of the performance window (R37). -/
  perfT0 : BitVec 64
  /-- The work-pending flags (R38). -/
  flag : LineBits
  /-- The interrupt enables (R39). -/
  ien : LineBits
  /-- The pending latches (R40). -/
  latch : LineBits
  /-- The transmit framer's phase (R41). -/
  txPhase : TxPhase
  /-- TB, the transmit frame buffer (R42). -/
  tb : Memory
  /-- The number of valid bytes in TB (R42). -/
  txLen : BitVec 16
  /-- The index of the next byte to send (R42). -/
  txIdx : BitVec 16
  /-- The environment's microsecond clock (R44). -/
  nowUs : BitVec 64
  /-- The observable trace, oldest first (R45). -/
  trace : List Transaction
  /-- The model's own: the local variables of DEC (log entry 7). -/
  dec : DecWork
  /-- The model's own: the string the last ENCODE operation returned (log entry 7). -/
  encOut : List Byte
  /-- The model's own: the events that come next, soonest first (log entry 1). -/
  pending : List Event
  /-- The model's own: how many events have been drawn from `Config.freeEvent` (log entry 1). -/
  draws : Nat
deriving DecidableEq, Repr

/-- Why the model stops. Every one is a state or an access the spec says no rule reaches; the block itself has no fatal error
(R280). -/
inductive Fault where
  /-- MAIN, or a rule that reads `mphase`, finds 9 to 15 there (R21). Safe. -/
  | illegalPhase (v : BitVec 4)
  /-- A read at or beyond a buffer's fill count (R62). Safe. -/
  | beyondFill (sp : Space) (i : Nat)
  /-- A read of a byte that holds no value (R14). Safe. -/
  | noValue (sp : Space) (i : Nat)
  /-- A write at or beyond a buffer's size (R61). Safe. -/
  | beyondCapacity (sp : Space) (i : Nat)
  /-- A data byte arrives in ACCUMULATING with `flen` above FRAME_CAP, which R25 excludes. Safe. -/
  | fillBeyondCapacity
deriving DecidableEq, Repr

/-- Why an operation has no meaning here. -/
inductive Refusal where
  /-- Raised by an arm of `exec` without a meaning; no arm is without one. Safe. -/
  | notModelled (mnemonic : String)
deriving DecidableEq, Repr

/-- DEC before any decode. -/
def DecWork.idle : DecWork where
  rest := []
  dst := []
  stat := 0#4
  cap := 0
  ended := true

/-- The state right after reset (R47, R321), for given parameters and a given value of the environment's clock. -/
def State.resetWith (p : Params) (now : BitVec 64) : State where
  params := p
  mphase := 0#4
  svcLine := .imu
  fsState := .seekStart
  fb := []
  flen := 0#16
  mb := []
  mlen := 0#16
  dstat := 0#4
  poLevel := p.poResetLevel
  poInterval := p.poResetInterval
  poPerf := p.poResetPerf
  deadline := 0#64
  loopCount := 0#16
  idleCount := 0#16
  perfT0 := 0#64
  flag := ⟨false, false⟩
  ien := ⟨false, false⟩
  latch := ⟨false, false⟩
  txPhase := .idle
  tb := []
  txLen := 0#16
  txIdx := 0#16
  nowUs := now
  trace := []
  dec := .idle
  encOut := []
  pending := []
  draws := 0

/-- The machine right after reset, with the default parameters (R10), the clock at a drawn value (R44), an empty trace and no event
scheduled. -/
def State.reset : State := State.resetWith Params.default Config.clockAtReset

/-- What a meaning answers. -/
abbrev Out := Host.Outcome State Fault Refusal

end Sys2Proof.Machine
end

