-- ==== Sys2Proof/Machine/Flags.lean ====
section
/-! DEFINITION. Status bits and error codes: the decode status (R100), the encoder status (R101), the error codes (R103), and the
line bits by line. -/

namespace Sys2Proof.Machine

/-- The error codes the block sends (R103). -/
inductive ErrorCode where
  | frameOverflow
  | syncLost
  | decodeError
  | emptyMessage
  | unknownOpcode
  | badLength
  | encodeOverflow
deriving DecidableEq, Repr

/-- R103. -/
def ErrorCode.bits : ErrorCode → BitVec 4
  | .frameOverflow => 0x1#4
  | .syncLost => 0x2#4
  | .decodeError => 0x3#4
  | .emptyMessage => 0x4#4
  | .unknownOpcode => 0x5#4
  | .badLength => 0x6#4
  | .encodeOverflow => 0x7#4

/-- `stat[1]`, BufferOverflow (R100). -/
def statOverflow : BitVec 4 := 0b0010#4

/-- `stat[2]`, ZeroByteInInput (R100). -/
def statZeroByte : BitVec 4 := 0b0100#4

/-- `stat[3]`, InputTooShort (R100). -/
def statTooShort : BitVec 4 := 0b1000#4

/-- Sets the bits `m` of a status when `c` holds; bits combine (R100). -/
def statSet (c : Bool) (m stat : BitVec 4) : BitVec 4 := if c then stat ||| m else stat

/-- Whether BufferOverflow is set. -/
def hasOverflow (stat : BitVec 4) : Bool := decide (stat &&& statOverflow ≠ 0#4)

/-- The bit of a line. -/
def LineBits.get (v : LineBits) : Line → Bool
  | .imu => v.imu
  | .cs => v.cs

/-- Writes the bit of a line, one indivisible single-bit write (R69). -/
def LineBits.put (v : LineBits) (l : Line) (b : Bool) : LineBits :=
  match l with
  | .imu => { v with imu := b }
  | .cs => { v with cs := b }

end Sys2Proof.Machine
end

