-- ==== Sys2Proof/Machine/Ops.lean ====
section
/-! DEFINITION. The named operations over buffers, trace and sequencing registers, and the two shared operations of
60_exceptions.md: raising an error (R281) and interrupt entry (R293). -/

namespace Sys2Proof.Machine

/-- Goes on with `k` from the next state. -/
def andThen (o : Out) (k : State → Out) : Out :=
  match o with
  | .next s => k s
  | .fault r => .fault r
  | .refused r => .refused r

/-! ### Buffers (20_memory.md) -/

/-- What an index that is not listed reads as: no value (R14, R63). -/
def Memory.unlisted : Option Byte := none

/-- The byte at an index. -/
def Memory.read : Memory → Nat → Option Byte
  | [], _ => Memory.unlisted
  | (k, v) :: r, a => if a = k then some v else Memory.read r a

/-- Writes one byte and keeps the indices strictly rising. -/
def Memory.write : Memory → Nat → Byte → Memory
  | [], a, b => [(a, b)]
  | (k, v) :: r, a, b =>
      if a < k then (a, b) :: (k, v) :: r
      else if a = k then (a, b) :: r
      else (k, v) :: Memory.write r a b

/-- A cleared buffer: every byte holds no value (R63). -/
def Memory.cleared : Memory := []

/-- The canonical form: indices strictly rise. An index that reads as no value has no entry, so nothing more is asked. -/
abbrev Memory.wf (m : Memory) : Prop := m.Pairwise (fun a b => a.1 < b.1)

/-- The buffer of a space (R60). -/
def State.buffer (s : State) : Space → Memory
  | .fb => s.fb
  | .mb => s.mb
  | .tb => s.tb

/-- Replaces the buffer of a space. -/
def State.withBuffer (s : State) (sp : Space) (m : Memory) : State :=
  match sp with
  | .fb => { s with fb := m }
  | .mb => { s with mb := m }
  | .tb => { s with tb := m }

/-- The size of a space (R60). -/
def State.size (s : State) : Space → Nat
  | .fb => s.params.frameCap
  | .mb => s.params.msgCap
  | .tb => s.params.txEncCap + 2

/-- The fill count of a space (R62). -/
def State.fill (s : State) : Space → Nat
  | .fb => s.flen.toNat
  | .mb => s.mlen.toNat
  | .tb => s.txLen.toNat

/-- `MemRead(M, i, 1)` (R62). -/
def memRead (sp : Space) (i : Nat) (s : State) : Except Fault Byte :=
  if i < s.fill sp then
    match (s.buffer sp).read i with
    | some b => .ok b
    | none => .error (.noValue sp i)
  else .error (.beyondFill sp i)

/-- `MemWrite(M, i, 1, b)` (R61). -/
def memWrite (sp : Space) (i : Nat) (b : Byte) (s : State) : Out :=
  if i < s.size sp then .next (s.withBuffer sp ((s.buffer sp).write i b)) else .fault (.beyondCapacity sp i)

/-- `n` bytes from index `i` on. -/
def readFrom (sp : Space) (s : State) : Nat → Nat → Except Fault (List Byte)
  | _, 0 => .ok []
  | i, n + 1 =>
      match memRead sp i s with
      | .error f => .error f
      | .ok b =>
        match readFrom sp s (i + 1) n with
        | .error f => .error f
        | .ok bs => .ok (b :: bs)

/-- The bytes `[0..fill)` of a space. -/
def readAll (sp : Space) (s : State) : Except Fault (List Byte) := readFrom sp s 0 (s.fill sp)

/-- Writes bytes from index `i` on. -/
def writeFrom (sp : Space) : Nat → List Byte → State → Out
  | _, [], s => .next s
  | i, b :: bs, s => andThen (memWrite sp i b s) (writeFrom sp (i + 1) bs)

/-! ### Trace and sequencing -/

/-- Appends one port transaction to the trace: an accepted input or an `emit` (R13, R45). -/
def record (t : Transaction) (s : State) : State := { s with trace := s.trace ++ [t] }

/-- `goto phase` (R13). -/
def goto (p : Phase) (s : State) : State := { s with mphase := p.bits }

/-- A MAIN operation enabled in one phase. In another legal phase MAIN takes no step of it and nothing changes (R7; the offer of a
port waits); a value of `mphase` that is no phase faults (R21). -/
def inPhase (p : Phase) (s : State) (k : Out) : Out :=
  match Phase.ofBits s.mphase with
  | none => .fault (.illegalPhase s.mphase)
  | some q => if q = p then k else .next s

/-- The line MAIN is servicing, in SVC_WAIT, REARM1 and REARM2 (R22). -/
def servicing (s : State) (l : Line) : Bool :=
  (decide (s.mphase = Phase.svcWait.bits) || decide (s.mphase = Phase.rearm1.bits) || decide (s.mphase = Phase.rearm2.bits))
    && decide (s.svcLine = l)

/-- FRAME_DONE: FB and MB cleared, SEEK_START, back to RX (R172). -/
def frameDone (s : State) : State :=
  { s with
    flen := 0#16, mlen := 0#16, fb := Memory.cleared, mb := Memory.cleared, fsState := .seekStart, mphase := Phase.rx.bits }

/-- Restarts the performance window (R198, R238). -/
def perfRestart (s : State) : State :=
  { s with loopCount := 0#16, idleCount := 0#16, perfT0 := s.nowUs }

/-- Writes the latch of a line. -/
def setLatch (l : Line) (b : Bool) (s : State) : State := { s with latch := s.latch.put l b }

/-- Writes the enable of a line. -/
def setIen (l : Line) (b : Bool) (s : State) : State := { s with ien := s.ien.put l b }

/-- Writes the work-pending flag of a line. -/
def setFlag (l : Line) (b : Bool) (s : State) : State := { s with flag := s.flag.put l b }

/-! ### Errors and interrupts (60_exceptions.md) -/

/-- `raise E(arg, len, stat)`: one error report, no block state written, and the step goes on (R281, R282). -/
def raise (e : ErrorCode) (arg : Byte) (len : BitVec 16) (stat : BitVec 4) (s : State) : State :=
  record (.errReport e.bits arg len stat) s

/-- Interrupt entry, the whole handler: it saves nothing, disables the line, acknowledges the latch and sets the flag (R241, R293).
There is no return operation: the handler's step ends and any agent's step follows (R294). -/
def irqEntry (l : Line) (s : State) : State := setFlag l true (setLatch l false (setIen l false s))

end Sys2Proof.Machine
end

