-- ==== Sys2Proof/Machine/Operands.lean ====
section
/-! DEFINITION. The values the rules compute from registers and operands. -/

namespace Sys2Proof.Machine

/-- `per_en`: `PO_INTERVAL >= 0` as an i16 (R32). -/
def State.perEn (s : State) : Bool := decide (0 ≤ s.poInterval.toInt)

/-- An interval in microseconds, `zext_64(iv) * 1000` (R198, R234). -/
def intervalUs (iv : BitVec 16) : BitVec 64 := iv.setWidth 64 * 1000#64

/-- `perf = (byte != 0)` (R95). -/
def perfBit (b : Byte) : Bool := decide (b ≠ 0#8)

/-- The clock has reached the deadline, compared unsigned (R231). -/
def State.deadlineReached (s : State) : Bool := decide (s.deadline ≤ s.nowUs)

/-- `(now_us - perf_t0)[31:0]` (R238). -/
def State.elapsedUs (s : State) : BitVec 32 := (s.nowUs - s.perfT0).setWidth 32

/-- The level output ports `po_level`, `po_interval`, `po_perf`: continuous copies of ProgramOptions (R106). -/
def State.poPorts (s : State) : Byte × BitVec 16 × Bool := (s.poLevel, s.poInterval, s.poPerf)

end Sys2Proof.Machine
end

