-- ==== Sys2Proof/Machine/Codec.lean ====
section
/-! DEFINITION. The codec (40_codec.md): ENC, DEC and the operations of the code-byte classes. -/

namespace Sys2Proof.Machine

/-! ### Encoder (R120) -/

/-- The local variables of `Encode`: the output, the index of the open block's code byte, and the open block's code. -/
structure EncWork where
  out : List Byte
  cp : Nat
  code : Byte
deriving DecidableEq, Repr

/-- Before the first byte. -/
def encStart : EncWork := ⟨[0x00#8], 0, 1#8⟩

/-- Closes the open block and opens the next one. -/
def encClose (w : EncWork) : EncWork := ⟨(w.out.set w.cp w.code) ++ [0x00#8], w.out.length, 1#8⟩

/-- Adds one source byte; `last` says that it is the final one. -/
def encByte (last : Bool) (w : EncWork) (b : Byte) : EncWork :=
  if b = 0#8 then encClose w
  else
    let w' : EncWork := ⟨w.out ++ [b], w.cp, w.code + 1#8⟩
    if w'.code = 0xFF#8 && !last then encClose w' else w'

/-- The loop over the source. -/
def encLoop : EncWork → List Byte → EncWork
  | w, [] => w
  | w, b :: bs => encLoop (encByte bs.isEmpty w b) bs

/-- `Encode(src)` (R120). -/
def encodeFn (src : List Byte) : List Byte :=
  let w := encLoop encStart src
  w.out.set w.cp w.code

/-- `MaxEnc(n)`: 1 for 0, else `n + ceil(n / 254)` (R122). -/
def maxEnc (n : Nat) : Nat := if n = 0 then 1 else n + (n + 253) / 254

/-- `enc_ovf`, the encoder status (R101). -/
def encOvf (p : Params) (m : List Byte) : Bool :=
  decide (p.txMsgCap < m.length) || decide (p.txEncCap < (encodeFn m).length)

/-! ### Decoder (R123) -/

/-- DEC at the start of `Decode(src, cap)`. -/
def decStart (src : List Byte) (cap : Nat) : DecWork := ⟨src, [], 0#4, cap, false⟩

/-- Copies up to `n` data bytes: first the InputTooShort cut, then the BufferOverflow cut, and ZeroByteInInput for a zero among the
bytes copied (R123). -/
def decCopy (n : Nat) (w : DecWork) : DecWork :=
  let short := decide (w.rest.length < n)
  let n1 := min n w.rest.length
  let ovf := decide (w.cap - w.dst.length < n1)
  let n2 := min n1 (w.cap - w.dst.length)
  let data := w.rest.take n2
  { w with
    rest := w.rest.drop n2
    dst := w.dst ++ data
    stat := statSet (data.contains 0#8) statZeroByte (statSet ovf statOverflow (statSet short statTooShort w.stat)) }

/-- What follows a run: the decode returns at the end of the input or after a BufferOverflow; else, where the class has one, the
original zero is appended, or does not fit (R123). -/
def decAfter (zero : Bool) (w : DecWork) : DecWork :=
  if w.rest.isEmpty || hasOverflow w.stat then { w with ended := true }
  else if zero then
    (if w.dst.length = w.cap then { w with stat := w.stat ||| statOverflow, ended := true }
     else { w with dst := w.dst ++ [0x00#8] })
  else w

/-- CODE_ZERO: ZeroByteInInput, and the decode ends (R124). -/
def decZero (w : DecWork) : DecWork := { w with stat := w.stat ||| statZeroByte, ended := true }

/-- CODE_RUN: `c - 1` data bytes, then the original zero if input remains (R125). -/
def decRun (c : Byte) (w : DecWork) : DecWork := decAfter true (decCopy (c.toNat - 1) w)

/-- CODE_FULL: 254 data bytes and no zero (R126). -/
def decFull (w : DecWork) : DecWork := decAfter false (decCopy 254 w)

/-- One pass of the decoder: the code byte `c` has been taken from the input. -/
def decPass (c : Byte) (w : DecWork) : DecWork :=
  match decodeCode c with
  | .zero => decZero w
  | .full => decFull w
  | .run c => decRun c w

/-- At most `fuel` passes. Every pass consumes a byte, so as many passes as there are bytes suffice (R123). -/
def decLoop : Nat → DecWork → DecWork
  | 0, w => w
  | fuel + 1, w =>
      if w.ended then w
      else
        match w.rest with
        | [] => { w with ended := true }
        | c :: r => decLoop fuel (decPass c { w with rest := r })

/-- DEC's variables at the end of `Decode(src, cap)`. -/
def decRunAll (src : List Byte) (cap : Nat) : DecWork := decLoop (src.length + 1) (decStart src cap)

/-- `Decode(src, cap) -> (dst, stat)` (R123). -/
def decodeFn (src : List Byte) (cap : Nat) : List Byte × BitVec 4 :=
  ((decRunAll src cap).dst, (decRunAll src cap).stat)

/-! ### Meanings -/

/-- An operation of DEC on its own variables; after the decode has returned there is none. -/
def onDec (f : DecWork → DecWork) (s : State) : Out :=
  .next (if s.dec.ended then s else { s with dec := f s.dec })

/-- CODE_ZERO (R124). -/
def execCodeZero (s : State) : Out := onDec decZero s

/-- CODE_FULL (R126). -/
def execCodeFull (s : State) : Out := onDec decFull s

/-- CODE_RUN (R125). -/
def execCodeRun (c : Byte) (s : State) : Out := onDec (decRun c) s

/-- ENCODE, the function of R120, its value in `encOut`. -/
def execEncode (src : List Byte) (s : State) : Out := .next { s with encOut := encodeFn src }

/-- DECODE_FN, the function of R123, its variables in `dec`. -/
def execDecodeFn (src : List Byte) (cap : Nat) (s : State) : Out := .next { s with dec := decRunAll src cap }

end Sys2Proof.Machine
end

