-- ==== Sys2Proof/Machine/FrameSync.lean ====
section
/-! DEFINITION. The frame synchronizer FSYNC (41_frame_sync.md). -/

namespace Sys2Proof.Machine

/-! ### Transitions -/

/-- SYNC_START_DELIM (R161). -/
def execSyncStartDelim (s : State) : Out := .next { s with fsState := .accumulating, flen := 0#16 }

/-- SYNC_START_DATA (R162, R284). -/
def execSyncStartData (b : Byte) (s : State) : Out :=
  .next { raise .syncLost b 0#16 0#4 s with fsState := .seekEnd }

/-- SYNC_SEEKEND_DELIM (R163). -/
def execSyncSeekEndDelim (s : State) : Out := .next { s with fsState := .seekStart }

/-- SYNC_SEEKEND_DATA (R164): the byte is discarded. -/
def execSyncSeekEndData (_b : Byte) (s : State) : Out := .next s

/-- SYNC_ACC_DELIM_EMPTY (R165): a repeated delimiter is absorbed. -/
def execSyncAccDelimEmpty (s : State) : Out := .next s

/-- SYNC_ACC_DELIM_END (R167): the frame is complete. -/
def execSyncAccDelimEnd (s : State) : Out := .next (goto .decode { s with fsState := .handoff })

/-- SYNC_ACC_DATA (R166). -/
def execSyncAccData (b : Byte) (s : State) : Out :=
  andThen (memWrite .fb s.flen.toNat b s) (fun s1 => .next { s1 with flen := s.flen + 1#16 })

/-- SYNC_ACC_OVERFLOW (R168, R283): the frame is dropped whole and FB cleared. -/
def execSyncAccOverflow (b : Byte) (s : State) : Out :=
  .next { raise .frameOverflow b (BitVec.ofNat 16 s.params.frameCap) 0#4 s with
    flen := 0#16, fb := Memory.cleared, fsState := .seekEnd }

/-- The transition the table of R170 selects. -/
def runSync (op : SyncOp) (s : State) : Out :=
  match op with
  | .startDelim => execSyncStartDelim s
  | .startData b => execSyncStartData b s
  | .seekEndDelim => execSyncSeekEndDelim s
  | .seekEndData b => execSyncSeekEndData b s
  | .accDelimEmpty => execSyncAccDelimEmpty s
  | .accDelimEnd => execSyncAccDelimEnd s
  | .accData b => execSyncAccData b s
  | .accOverflow b => execSyncAccOverflow b s

/-! ### Polling and decoding -/

/-- RX_POLL (R160): `none` ends the drain; a byte is sorted by R170 in the same step. No poll happens in HANDOFF (R169). -/
def execRxPoll (answer : Option Byte) (s : State) : Out :=
  inPhase .rx s
    (match s.fsState, answer with
     | .handoff, _ => .next s
     | _, none => .next (goto .arb (record (.rxAnswer none) s))
     | fs, some b =>
       match decodeWire fs s.flen s.params.frameCap b with
       | .ok op => runSync op (record (.rxAnswer (some b)) s)
       | .error .fillBeyondCapacity => .fault .fillBeyondCapacity
       | .error _ => .next s)

/-- FRAME_DONE (R172). -/
def execFrameDone (s : State) : Out := .next (frameDone s)

/-- The end of DECODE on a non-zero status: one report and FRAME_DONE (R171, R285). -/
def decodeFailed (stat : BitVec 4) (s : State) : State :=
  frameDone (raise .decodeError 0#8 s.flen stat { s with dstat := stat })

/-- The end of DECODE on success: MB holds the message (R171). -/
def decodeSucceeded (m : List Byte) (s : State) : Out :=
  andThen (writeFrom .mb 0 m { s with dstat := 0#4 })
    (fun s1 => .next (goto .dispatch { s1 with mlen := BitVec.ofNat 16 m.length }))

/-- DECODE (R171). -/
def execDecode (s : State) : Out :=
  inPhase .decode s
    (match readAll .fb s with
     | .error f => .fault f
     | .ok body =>
       match decodeFn body s.params.msgCap with
       | (m, stat) => if stat = 0#4 then decodeSucceeded m s else .next (decodeFailed stat s))

end Sys2Proof.Machine
end

