-- ==== Sys2Proof/Machine/Dispatcher.lean ====
section
/-! DEFINITION. The command dispatcher DISP (42_dispatcher.md). -/

namespace Sys2Proof.Machine

/-! ### Commands -/

/-- SET_SERVO_ANGLES (R194): the angles pass through unchecked. -/
def execSetServoAngles (rf rb lf lb : Leg) (s : State) : Out := .next (record (.servoCmd rf rb lf lb) s)

/-- REQUEST_STATE (R195). -/
def execRequestState (s : State) : Out := .next (record .stateReq s)

/-- CALIBRATE_IMU (R196): the one blocking command. -/
def execCalibrateImu (s : State) : Out := .next (goto .calWait (record .calibReq s))

/-- EMIT_BUFFERED_ERROR_LOG (R197). -/
def execEmitBufferedErrorLog (s : State) : Out := .next (record .errlogReq s)

/-- RESET_DEAD_RECKONING (R200). -/
def execResetDeadReckoning (s : State) : Out := .next (record .resetDr s)

/-- The new options, all three in one step (R33, R198). -/
def setOptions (level : Byte) (interval : BitVec 16) (perf : Bool) (s : State) : State :=
  { s with poLevel := level, poInterval := interval, poPerf := perf }

/-- The first deadline, one interval from now, for an interval that is not negative (R198). -/
def anchorDeadline (s : State) : State :=
  if s.perEn then { s with deadline := s.nowUs + intervalUs s.poInterval } else s

/-- SET_PROGRAM_OPTIONS (R198). -/
def execSetProgramOptions (level : Byte) (interval : BitVec 16) (perfFlag : Byte) (s : State) : Out :=
  .next (record (.poUpdate level interval (perfBit perfFlag))
    (perfRestart (anchorDeadline (setOptions level interval (perfBit perfFlag) s))))

/-- UNKNOWN_OPCODE (R191, R287). -/
def execUnknownOpcode (op : Byte) (plen : BitVec 16) (s : State) : Out := .next (raise .unknownOpcode op plen 0#4 s)

/-- BAD_LENGTH (R192, R287). -/
def execBadLength (op : Byte) (plen : BitVec 16) (s : State) : Out := .next (raise .badLength op plen 0#4 s)

/-- EMPTY_MESSAGE (R193, R286). -/
def execEmptyMessage (s : State) : Out := .next (raise .emptyMessage 0#8 0#16 0#4 s)

/-! ### Dispatch -/

/-- The case table of R190: every case but CALIBRATE_IMU ends with FRAME_DONE. -/
def runMessage (m : Message) (s : State) : Out :=
  match m with
  | .setServoAngles rf rb lf lb => andThen (execSetServoAngles rf rb lf lb s) execFrameDone
  | .requestState => andThen (execRequestState s) execFrameDone
  | .calibrateImu => execCalibrateImu s
  | .emitBufferedErrorLog => andThen (execEmitBufferedErrorLog s) execFrameDone
  | .resetDeadReckoning => andThen (execResetDeadReckoning s) execFrameDone
  | .setProgramOptions level interval perfFlag => andThen (execSetProgramOptions level interval perfFlag s) execFrameDone
  | .unknownOpcode op plen => andThen (execUnknownOpcode op plen s) execFrameDone
  | .badLength op plen => andThen (execBadLength op plen s) execFrameDone
  | .emptyMessage => andThen (execEmptyMessage s) execFrameDone

/-- DISPATCH (R190). -/
def execDispatch (s : State) : Out :=
  inPhase .dispatch s
    (match readAll .mb s with
     | .error f => .fault f
     | .ok m => runMessage (decodeMessage m) s)

/-- CAL_DONE (R199): accepted in CAL_WAIT only. -/
def execCalDone (s : State) : Out := inPhase .calWait s (.next (frameDone (record .calibDone s)))

end Sys2Proof.Machine
end

