-- ==== Sys2Proof/Machine/Environment.lean ====
section
/-! DEFINITION. The environment's steps on the block: alerts, clock, first arming and reset (43_handoff.md section 3, R244, R320). -/

namespace Sys2Proof.Machine

/-- ALERT (R240): always enabled. -/
def execAlert (l : Line) (s : State) : Out := .next (setLatch l true (record (.alert l) s))

/-- BOOT_ARM (R244): accepted while the line is disabled, has no work pending and is not being serviced. -/
def execBootArm (l : Line) (s : State) : Out :=
  match Phase.ofBits s.mphase with
  | none => .fault (.illegalPhase s.mphase)
  | some _ =>
    .next (if s.ien.get l || s.flag.get l || servicing s l then s
           else setIen l true (setLatch l false (record (.arm l) s)))

/-- CLOCK_TICK (R239): any advance of at least 1 that does not wrap the clock. -/
def execClockTick (d : BitVec 64) (s : State) : Out :=
  .next (if d ≠ 0#64 ∧ s.nowUs.toNat + d.toNat < 2 ^ 64 then { s with nowUs := s.nowUs + d } else s)

/-- RESET (R320): every item of block state at its reset value (R47), in one step. The clock, the parameters, the trace of what has
been observed and the events to come are not block state and stay. -/
def execReset (s : State) : Out :=
  .next { State.resetWith s.params s.nowUs with trace := s.trace, pending := s.pending, draws := s.draws }

end Sys2Proof.Machine
end

