-- ==== Sys2Proof/Machine/Handoff.lean ====
section
/-! DEFINITION. The arbiter half of HOA, on MAIN, and the interrupt half, on IRQ (43_handoff.md sections 2 and 4). -/

namespace Sys2Proof.Machine

/-! ### The arbiter -/

/-- The start of a sensor service: the flag is cleared before EST is asked (R232, R233). -/
def startService (l : Line) (s : State) : State :=
  goto .svcWait (record (.svcReq l) { setFlag l false s with svcLine := l })

/-- GRANT_IMU (R232). -/
def execGrantImu (s : State) : Out := .next (startService .imu s)

/-- GRANT_CS (R233). -/
def execGrantCs (s : State) : Out := .next (startService .cs s)

/-- GRANT_PERIODIC (R234): the deadline advances by the interval, not from now. -/
def execGrantPeriodic (s : State) : Out :=
  .next (goto .endIter { record .telemReq s with deadline := s.deadline + intervalUs s.poInterval })

/-- GRANT_IDLE (R235). -/
def execGrantIdle (s : State) : Out :=
  .next (goto .endIter { s with idleCount := if s.poPerf then s.idleCount + 1#16 else s.idleCount })

/-- The priority of R231. -/
def arbGrant (s : State) : Grant :=
  if s.flag.get .imu then .imu
  else if s.flag.get .cs then .cs
  else if s.perEn && s.deadlineReached then .periodic
  else .idle

/-- ARB: the chosen grant's effects happen in the same step (R231). -/
def execArb (s : State) : Out :=
  inPhase .arb s
    (match arbGrant s with
     | .imu => execGrantImu s
     | .cs => execGrantCs s
     | .periodic => execGrantPeriodic s
     | .idle => execGrantIdle s)

/-- SVC_DONE (R237): accepted in SVC_WAIT for the line being serviced. -/
def execSvcDone (l : Line) (s : State) : Out :=
  inPhase .svcWait s (.next (if s.svcLine = l then goto .rearm1 (record (.svcDone l) s) else s))

/-- REARM1 (R242). -/
def execRearm1 (s : State) : Out := inPhase .rearm1 s (.next (goto .rearm2 (setLatch s.svcLine false s)))

/-- REARM2 (R243). -/
def execRearm2 (s : State) : Out := inPhase .rearm2 s (.next (goto .endIter (setIen s.svcLine true s)))

/-- PERF_FLUSH (R238). -/
def execPerfFlush (s : State) : Out := .next (perfRestart (record (.perfReq s.idleCount s.elapsedUs) s))

/-- END (R236). -/
def execEndIter (s : State) : Out :=
  inPhase .endIter s
    (andThen
      (if s.poPerf then
        (if s.loopCount.toNat + 1 = Config.perfPeriod then execPerfFlush s
         else .next { s with loopCount := s.loopCount + 1#16 })
       else .next s)
      (fun s1 => .next (goto .rx s1)))

/-! ### The interrupt context -/

/-- IRQ_FIRE (R241): enabled by `ien[l] = 1` and `latch[l] = 1`. -/
def execIrqFire (l : Line) (s : State) : Out :=
  .next (if s.ien.get l && s.latch.get l then irqEntry l s else s)

end Sys2Proof.Machine
end

