-- ==== Sys2Proof/Machine/Transmit.lean ====
section
/-! DEFINITION. The transmit framer TXF (40_codec.md section 3). -/

namespace Sys2Proof.Machine

/-- `0x00 ++ Encode(M) ++ 0x00` (R80, R130). -/
def txFrame (m : List Byte) : List Byte := 0x00#8 :: (encodeFn m ++ [0x00#8])

/-- The refusal of a message that does not fit: `arg` its kind or 0, `len` cut to 16 bits (R130, R288). -/
def refuseMessage (m : List Byte) (s : State) : State :=
  raise .encodeOverflow (m.headD 0#8) (BitVec.ofNat 16 m.length) 0#4 s

/-- Starts sending the `n` bytes now in TB (R130). -/
def startSending (n : Nat) (s : State) : State :=
  { s with txLen := BitVec.ofNat 16 n, txIdx := 0#16, txPhase := .send }

/-- TX_REQ (R130, R133): accepted in IDLE only; while TX sends, the offer waits and nothing changes. A message that is then refused with
ENCODE_OVERFLOW counts as accepted by the port and is in the trace before its report: DESIGN CHOICE, unsafe (log entry 22). -/
def execTxReq (m : List Byte) (s : State) : Out :=
  match s.txPhase with
  | .send => .next s
  | .idle =>
    let s1 := record (.txReq m) s
    if encOvf s.params m then .next (refuseMessage m s1)
    else andThen (writeFrom .tb 0 (txFrame m) s1) (fun s2 => .next (startSending (txFrame m).length s2))

/-- Moves past the byte at `tx_idx`; after the last byte the phase is IDLE (R131). -/
def advanceTx (s : State) : State :=
  { s with
    txIdx := s.txIdx + 1#16
    txPhase := if s.txIdx + 1#16 = s.txLen then .idle else s.txPhase }

/-- TX_PUT (R131): enabled in SEND when the sink accepts. -/
def execTxPut (s : State) : Out :=
  match s.txPhase with
  | .idle => .next s
  | .send =>
    match memRead .tb s.txIdx.toNat s with
    | .error f => .fault f
    | .ok b => .next (advanceTx (record (.txPut b) s))

end Sys2Proof.Machine
end

