-- ==== Sys2Proof/Machine/Dispatch.lean ====
section
/-! DEFINITION. The meaning of every operation. -/

namespace Sys2Proof.Machine

def exec (i : Instr) (s : State) : Host.Outcome State Fault Refusal :=
  match i with
  | .setServoAngles rf rb lf lb => Sys2Proof.Machine.execSetServoAngles rf rb lf lb s
  | .requestState => Sys2Proof.Machine.execRequestState s
  | .calibrateImu => Sys2Proof.Machine.execCalibrateImu s
  | .emitBufferedErrorLog => Sys2Proof.Machine.execEmitBufferedErrorLog s
  | .resetDeadReckoning => Sys2Proof.Machine.execResetDeadReckoning s
  | .setProgramOptions lv iv pf => Sys2Proof.Machine.execSetProgramOptions lv iv pf s
  | .unknownOpcode op plen => Sys2Proof.Machine.execUnknownOpcode op plen s
  | .badLength op plen => Sys2Proof.Machine.execBadLength op plen s
  | .emptyMessage => Sys2Proof.Machine.execEmptyMessage s
  | .codeZero => Sys2Proof.Machine.execCodeZero s
  | .codeFull => Sys2Proof.Machine.execCodeFull s
  | .codeRun c => Sys2Proof.Machine.execCodeRun c s
  | .syncStartDelim => Sys2Proof.Machine.execSyncStartDelim s
  | .syncStartData b => Sys2Proof.Machine.execSyncStartData b s
  | .syncSeekEndDelim => Sys2Proof.Machine.execSyncSeekEndDelim s
  | .syncSeekEndData b => Sys2Proof.Machine.execSyncSeekEndData b s
  | .syncAccDelimEmpty => Sys2Proof.Machine.execSyncAccDelimEmpty s
  | .syncAccDelimEnd => Sys2Proof.Machine.execSyncAccDelimEnd s
  | .syncAccData b => Sys2Proof.Machine.execSyncAccData b s
  | .syncAccOverflow b => Sys2Proof.Machine.execSyncAccOverflow b s
  | .grantImu => Sys2Proof.Machine.execGrantImu s
  | .grantCs => Sys2Proof.Machine.execGrantCs s
  | .grantPeriodic => Sys2Proof.Machine.execGrantPeriodic s
  | .grantIdle => Sys2Proof.Machine.execGrantIdle s
  | .rxPoll a => Sys2Proof.Machine.execRxPoll a s
  | .decode => Sys2Proof.Machine.execDecode s
  | .frameDone => Sys2Proof.Machine.execFrameDone s
  | .dispatch => Sys2Proof.Machine.execDispatch s
  | .calDone => Sys2Proof.Machine.execCalDone s
  | .arb => Sys2Proof.Machine.execArb s
  | .svcDone l => Sys2Proof.Machine.execSvcDone l s
  | .rearm1 => Sys2Proof.Machine.execRearm1 s
  | .rearm2 => Sys2Proof.Machine.execRearm2 s
  | .endIter => Sys2Proof.Machine.execEndIter s
  | .perfFlush => Sys2Proof.Machine.execPerfFlush s
  | .txReq m => Sys2Proof.Machine.execTxReq m s
  | .txPut => Sys2Proof.Machine.execTxPut s
  | .irqFire l => Sys2Proof.Machine.execIrqFire l s
  | .alert l => Sys2Proof.Machine.execAlert l s
  | .bootArm l => Sys2Proof.Machine.execBootArm l s
  | .clockTick d => Sys2Proof.Machine.execClockTick d s
  | .reset => Sys2Proof.Machine.execReset s
  | .encode src => Sys2Proof.Machine.execEncode src s
  | .decodeFn src cap => Sys2Proof.Machine.execDecodeFn src cap s

end Sys2Proof.Machine
end

