-- ==== Sys2Proof/Machine/Fetch.lean ====
section
/-! DEFINITION. Which operation the next step runs. The block fetches no program (R3, R76): an operation is selected by the event that
comes next and the state it meets. -/

namespace Sys2Proof.Machine

/-- The event that comes next, and the state without it: the schedule's first, else the next draw (R7; log entry 1). -/
def nextEvent (s : State) : Event × State :=
  match s.pending with
  | e :: r => (e, { s with pending := r })
  | [] => (Config.freeEvent s.draws, { s with draws := s.draws + 1 })

/-- The trigger an event is to the block (R106): MAIN's own step is selected by its phase. -/
def Event.trigger (s : State) : Event → Trigger
  | .main => .mphase s.mphase
  | .rxPoll a => .rxPoll a
  | .calibDone => .calibDone
  | .svcDone l => .svcDone l
  | .txReq m => .txReq m
  | .txPut => .txPut
  | .irq l => .irq l
  | .alert l => .alert l
  | .arm l => .arm l
  | .clock d => .clock d
  | .rst => .rst

/-- What a step answers where no operation is selected: a phase that waits for a port takes no step, a value that is no phase faults
(R21). -/
def noOperation (e : DecodeError) (s : State) : Out :=
  match e with
  | .illegalPhase v => .fault (.illegalPhase v)
  | .fillBeyondCapacity => .fault .fillBeyondCapacity
  | .awaitsPort _ => .next s
  | .notPolled => .next s

/-- Runs the operation an event selects. -/
def runEvent (e : Event) (s : State) : Out :=
  match decode (.port (Event.trigger s e)) with
  | .ok i => exec i s
  | .error r => noOperation r s

/-- The bytes of a list as buffer contents from index 0. -/
def listed (bs : List Byte) : Memory := bs.mapIdx (fun i b => (i, b))

/-- Places an encoded operation so that the next event selects it: a message in MB with MAIN in DISPATCH, a wire byte as HOST's answer to
the next poll, a code byte as the body of a complete frame (log entry 6). -/
def placeEncoded (e : Encoded) (s : State) : State :=
  match e with
  | .message m =>
      { s with
        mb := listed m, mlen := BitVec.ofNat 16 m.length, fsState := .handoff, mphase := Phase.dispatch.bits
        pending := .main :: s.pending }
  | .code c =>
      { s with
        fb := listed [c], flen := 1#16, fsState := .handoff, mphase := Phase.decode.bits, pending := .main :: s.pending }
  | .wire fs flen _ b =>
      { s with fsState := fs, flen := flen, mphase := Phase.rx.bits, pending := .rxPoll (some b) :: s.pending }
  | .grant _ => s
  | .port _ => s

/-- Places a table word. -/
def placeWord (nbits w : Nat) (s : State) : State :=
  match tableEncoded nbits w with
  | none => s
  | some e => placeEncoded e s

end Sys2Proof.Machine
end

