-- ==== Sys2Proof/Machine/Step.lean ====
section
/-! DEFINITION. One step: the next event, and the operation it selects. -/

namespace Sys2Proof.Machine

/-- One atomic step of one agent (R7). -/
def step (s : State) : Host.Outcome State Fault Refusal :=
  match nextEvent s with
  | (e, s1) => runEvent e s1

/-- The state with the operation of a table word placed so that the next step runs it. -/
def State.withFetchWord (s : State) (nbits w : Nat) : State := placeWord nbits w s

end Sys2Proof.Machine
end

