-- ==== Sys2Proof/Safety.lean ====
section
/-! DEFINITION. The terms claims use: what a buffer holds, the invariant of reachable states, runs of bytes, operations and events,
what a stretch of the trace counts, and the fairness and the duties of R9 as properties of runs. -/

namespace Sys2Proof.Machine

/-! ### Buffers -/

/-- Buffer `m` holds the bytes `bs` from index 0 on. -/
abbrev Memory.holds (m : Memory) (bs : List Byte) : Prop := ∀ k, k < bs.length → m.read k = bs[k]?

/-- Every index below `n` holds a value. -/
abbrev Memory.filled (m : Memory) (n : Nat) : Prop := ∀ k, k < n → (m.read k).isSome = true

/-- Every listed index lies below `n`. -/
abbrev Memory.within (m : Memory) (n : Nat) : Prop := ∀ c ∈ m, c.1 < n

/-- MAIN is in DISPATCH and MB holds the message `m`. -/
abbrev State.atMessage (s : State) (m : List Byte) : Prop :=
  s.mphase = 2#4 ∧ s.mlen.toNat = m.length ∧ s.mb.holds m

/-- MAIN is in DECODE and FB holds the frame body `body`. -/
abbrev State.atFrame (s : State) (body : List Byte) : Prop :=
  s.mphase = 1#4 ∧ s.flen.toNat = body.length ∧ s.fb.holds body

/-- The state after a frame attempt that emitted `ts` and ended (R172), every other part as in `s`. -/
def State.doneWith (s : State) (ts : List Transaction) : State :=
  { s with
    flen := 0#16, mlen := 0#16, fb := [], mb := [], fsState := .seekStart, mphase := 0#4, trace := s.trace ++ ts }

/-- The ZeroByteInInput bit for the data bytes a decoder operation copied (R123). -/
def zeroBit (data : List Byte) : BitVec 4 := if 0x00#8 ∈ data then 0b0100#4 else 0b0000#4

/-- The bytes a sequence of runs stands for: an original zero follows every run but the last and the ones of 254 bytes (R84, R85). -/
def unblock : List (List Byte) → List Byte
  | [] => []
  | r :: rs => if rs = [] then r else if r.length = 254 then r ++ unblock rs else r ++ 0x00#8 :: unblock rs

/-! ### The invariant -/

/-- What every reachable state satisfies: R46, the bounds of 10_state.md, and that no buffer byte below its fill count is without a
value (R14, R62). -/
structure State.Inv (s : State) : Prop where
  /-- R10. -/
  params_valid : s.params.Valid
  /-- R21: `mphase` is 0 to 8. -/
  phase_legal : s.mphase ≤ 8#4
  /-- R46 items 1 and 2: a pending line is disabled. -/
  pending_disabled : ∀ l, s.flag.get l = true → s.ien.get l = false
  /-- R46 item 2, with the flag: the line being serviced is disabled and has no work pending. -/
  serviced_disabled : ∀ l, servicing s l = true → s.ien.get l = false ∧ s.flag.get l = false
  /-- R46 item 3. -/
  handoff_phase : s.fsState = .handoff ↔ s.mphase = 1#4 ∨ s.mphase = 2#4 ∨ s.mphase = 3#4
  /-- R46 item 4. -/
  seek_empty : s.fsState = .seekStart ∨ s.fsState = .seekEnd → s.flen = 0#16
  /-- R46 item 4. -/
  handoff_nonempty : s.fsState = .handoff → 1 ≤ s.flen.toNat
  /-- R25. -/
  flen_bound : s.flen.toNat ≤ s.params.frameCap
  /-- R27. -/
  mlen_bound : s.mlen.toNat ≤ s.params.msgCap
  /-- R203: no message outside DISPATCH and CAL_WAIT. -/
  message_phase : s.mphase ≠ 2#4 → s.mphase ≠ 3#4 → s.mlen = 0#16
  /-- R35. -/
  loop_bound : s.loopCount.toNat < 10000
  /-- R46 item 5; in END, before the iteration is counted, an idle grant is one ahead. -/
  idle_bound : s.idleCount.toNat ≤ s.loopCount.toNat + (if s.mphase = 8#4 ∧ s.poPerf = true then 1 else 0)
  /-- R46 item 6. -/
  tx_idle : s.txPhase = .idle → s.txIdx = s.txLen
  /-- R42. -/
  tx_send : s.txPhase = .send → s.txIdx.toNat < s.txLen.toNat
  /-- R42. -/
  tx_bound : s.txLen.toNat ≤ s.params.txEncCap + 2
  /-- R127: bit 0 of `dstat` is hard-wired 0. -/
  dstat_null : s.dstat.getLsbD 0 = false
  /-- R82: a frame body holds no 0x00. -/
  fb_nonzero : ∀ k, k < s.flen.toNat → s.fb.read k ≠ some 0#8
  fb_filled : s.fb.filled s.flen.toNat
  mb_filled : s.mb.filled s.mlen.toNat
  tb_filled : s.tb.filled s.txLen.toNat
  fb_within : s.fb.within s.params.frameCap
  mb_within : s.mb.within s.params.msgCap
  tb_within : s.tb.within (s.params.txEncCap + 2)
  fb_wf : s.fb.wf
  mb_wf : s.mb.wf
  tb_wf : s.tb.wf
  /-- The decoder's output fits its capacity (R123). -/
  dec_bound : s.dec.dst.length ≤ s.dec.cap
  /-- A decode that goes on has no BufferOverflow (R123). -/
  dec_running : s.dec.ended = false → s.dec.stat.getLsbD 1 = false

/-! ### Runs -/

/-- HOST answers successive polls with the bytes. -/
def rxBytes : List Byte → State → Out
  | [], s => .next s
  | b :: bs, s => andThen (exec (.rxPoll (some b)) s) (rxBytes bs)

/-- `n` accepted TX_PUT steps. -/
def txPuts : Nat → State → Out
  | 0, s => .next s
  | n + 1, s => andThen (exec .txPut s) (txPuts n)

/-- A sequence of operations. -/
def runInstrs : List Instr → State → Out
  | [], s => .next s
  | i :: is, s => andThen (exec i s) (runInstrs is)

/-- A sequence of events. -/
def runEvents : List Event → State → Out
  | [], s => .next s
  | e :: es, s => andThen (runEvent e s) (runEvents es)

/-- How often line `l` fires in a sequence of events: its IRQ steps that meet their enabling condition (R241). -/
def firings (l : Line) : List Event → State → Nat
  | [], _ => 0
  | e :: es, s =>
      (if e = .irq l ∧ s.ien.get l = true ∧ s.latch.get l = true then 1 else 0) +
        match runEvent e s with
        | .next t => firings l es t
        | .fault _ => 0
        | .refused _ => 0

/-! ### Enabled events, fairness and the environment's duties (R7, R9) -/

/-- Whether the state enables an event: the enabling conditions of the rules. -/
def Event.enabled (s : State) : Event → Bool
  | .main =>
      match decodePhase s.mphase with
      | .ok _ => true
      | .error _ => false
  | .rxPoll _ => decide (s.mphase = Phase.rx.bits) && decide (s.fsState ≠ .handoff)
  | .calibDone => decide (s.mphase = Phase.calWait.bits)
  | .svcDone l => decide (s.mphase = Phase.svcWait.bits) && decide (s.svcLine = l)
  | .txReq _ => decide (s.txPhase = .idle)
  | .txPut => decide (s.txPhase = .send)
  | .irq l => s.ien.get l && s.latch.get l
  | .alert _ => true
  | .arm l => !(s.ien.get l || s.flag.get l || servicing s l)
  | .clock d => decide (d ≠ 0#64) && decide (s.nowUs.toNat + d.toNat < 2 ^ 64)
  | .rst => true

/-- The agents that take steps (R7). -/
inductive Agent where
  | main
  | irq
  | tx
  | alert (l : Line)
  | boot
  | clock
  | platform
deriving DecidableEq, Repr

/-- The agent whose step an event is (R7, R106). -/
def Event.agent : Event → Agent
  | .main => .main
  | .rxPoll _ => .main
  | .calibDone => .main
  | .svcDone _ => .main
  | .txReq _ => .tx
  | .txPut => .tx
  | .irq _ => .irq
  | .alert l => .alert l
  | .arm _ => .boot
  | .clock _ => .clock
  | .rst => .platform

/-- The events that need an offer of the environment at a port: a request of EMIT, an accepting sink, an answer of EST, an arming by BOOT,
an asserted reset. The others do not: HOST answers every poll, and IRQ, CLOCK and ALERT step by themselves (R239 to R241; that ALERT is
always enabled is read literally, log entry 17). -/
def Event.needsOffer : Event → Bool
  | .main => false
  | .rxPoll _ => false
  | .calibDone => true
  | .svcDone _ => true
  | .txReq _ => true
  | .txPut => true
  | .irq _ => false
  | .alert _ => false
  | .arm _ => true
  | .clock _ => false
  | .rst => true

/-- An infinite run: event `ev n` leads from state `st n` to the next one, and is on offer where it needs an offer. `offers n e` says
that the environment holds out `e` at position `n`. -/
def IsRun (offers : Nat → Event → Prop) (ev : Nat → Event) (st : Nat → State) : Prop :=
  ∀ n, (Event.needsOffer (ev n) = true → offers n (ev n)) ∧ runEvent (ev n) (st n) = .next (st (n + 1))

/-- Agent `a` is enabled at position `n`: the state enables a step of it that is on offer where it needs an offer. -/
def CanStep (offers : Nat → Event → Prop) (st : Nat → State) (a : Agent) (n : Nat) : Prop :=
  ∃ e, Event.agent e = a ∧ (Event.needsOffer e = true → offers n e) ∧ Event.enabled (st n) e = true

/-- The event at position `n` is a step of agent `a` that the state enables. -/
def Steps (ev : Nat → Event) (st : Nat → State) (a : Agent) (n : Nat) : Prop :=
  Event.agent (ev n) = a ∧ Event.enabled (st n) (ev n) = true

/-- Weak fairness to one agent: where it stays enabled it eventually steps (R9). -/
def WeaklyFairTo (offers : Nat → Event → Prop) (ev : Nat → Event) (st : Nat → State) (a : Agent) : Prop :=
  ∀ n, (∀ m, n ≤ m → CanStep offers st a m) → ∃ m, n ≤ m ∧ Steps ev st a m

/-- Weak fairness to every agent (R9, 92_eei_decisions.md D30). -/
def WeaklyFair (offers : Nat → Event → Prop) (ev : Nat → Event) (st : Nat → State) : Prop :=
  ∀ a, WeaklyFairTo offers ev st a

/-- A poll that MAIN makes at position `n`, whatever HOST answers. -/
def PollsAt (ev : Nat → Event) (st : Nat → State) (n : Nat) : Prop :=
  (∃ a, ev n = .rxPoll a) ∧ Event.enabled (st n) (ev n) = true

/-- Position `n` comes right after a reset: the run starts there in a reset state, or the event before is `rst`. -/
def AfterReset (ev : Nat → Event) (st : Nat → State) (n : Nat) : Prop :=
  (n = 0 ∧ ∃ (p : Params) (now : BitVec 64), p.Valid ∧ st 0 = State.resetWith p now) ∨ ∃ k, n = k + 1 ∧ ev k = .rst

/-- The duties of the environment (R9). Except for HOST's, a reset of the block ends what is owed. -/
structure Duties (ev : Nat → Event) (st : Nat → State) : Prop where
  /-- HOST eventually answers `none`: while MAIN polls again and again, whatever it does in between, no tail of the polls goes without
  that answer. -/
  host : ∀ n, (∀ k, n ≤ k → ∃ m, k ≤ m ∧ PollsAt ev st m) → ∃ m, n ≤ m ∧ PollsAt ev st m ∧ ev m = .rxPoll none
  /-- EST answers every `svc_req`. -/
  service : ∀ n, (st n).mphase = 5#4 → ∃ m, n ≤ m ∧ (ev m = .svcDone (st n).svcLine ∨ ev m = .rst)
  /-- EST answers every `calib_req`. -/
  calibration : ∀ n, (st n).mphase = 3#4 → ∃ m, n ≤ m ∧ (ev m = .calibDone ∨ ev m = .rst)
  /-- HOST's sink accepts every byte TX sends. -/
  sink : ∀ n, (st n).txPhase = .send → ∃ m, n ≤ m ∧ (ev m = .txPut ∨ ev m = .rst)
  /-- BOOT arms each line after each reset. -/
  boot : ∀ n l, AfterReset ev st n → ∃ m, n ≤ m ∧ (ev m = .arm l ∨ ev m = .rst)
  /-- BOOT arms a line once for each reset. -/
  bootOnce : ∀ n m l, n < m → ev n = .arm l → ev m = .arm l → ∃ k, n < k ∧ k < m ∧ ev k = .rst

/-! ### Counting the trace -/

/-- A report to EMIT of an error (R102). -/
def Transaction.isReport : Transaction → Bool
  | .errReport _ _ _ _ => true
  | _ => false

/-- How many services of line `l` a stretch of trace asks for. -/
def svcReqs (l : Line) (ts : List Transaction) : Nat := ts.count (.svcReq l)

/-- How many periodic telemetry requests a stretch of trace holds. -/
def telemReqs (ts : List Transaction) : Nat := ts.count .telemReq

end Sys2Proof.Machine
end

