-- ==== Sys2Proof/Certificates/Slice0/Obligations.lean ====
section
/-! DEFINITION. The statements for the provers. Each docstring names the rule of spec/ it formalises, or what it rests on. -/

open Sys2Proof Sys2Proof.Machine

/-! ## 1 Commands (42_dispatcher.md) -/

/-- R194: the angles pass through in message order, from the operation and from DISPATCH; any other payload length is BAD_LENGTH. -/
def Obligations.ServoCommandResult : Prop :=
  ∀ (rf rb lf lb : Leg) (s : State),
    exec (.setServoAngles rf rb lf lb) s = .next { s with trace := s.trace ++ [.servoCmd rf rb lf lb] } ∧
    (s.atMessage [0x00#8, rf.j0, rf.j1, rf.j2, rb.j0, rb.j1, rb.j2, lf.j0, lf.j1, lf.j2, lb.j0, lb.j1, lb.j2] →
      exec .dispatch s = .next (s.doneWith [.servoCmd rf rb lf lb])) ∧
    (∀ payload : List Byte, payload.length ≠ 12 → s.atMessage (0x00#8 :: payload) →
      exec .dispatch s = .next (s.doneWith [.errReport 6#4 0x00#8 (BitVec.ofNat 16 payload.length) 0#4]))

/-- R195, R197, R200: one request and no block state; any payload is BAD_LENGTH. -/
def Obligations.PlainRequestResults : Prop :=
  ∀ s : State,
    exec .requestState s = .next { s with trace := s.trace ++ [.stateReq] } ∧
    exec .emitBufferedErrorLog s = .next { s with trace := s.trace ++ [.errlogReq] } ∧
    exec .resetDeadReckoning s = .next { s with trace := s.trace ++ [.resetDr] } ∧
    (s.atMessage [0x01#8] → exec .dispatch s = .next (s.doneWith [.stateReq])) ∧
    (s.atMessage [0x03#8] → exec .dispatch s = .next (s.doneWith [.errlogReq])) ∧
    (s.atMessage [0x04#8] → exec .dispatch s = .next (s.doneWith [.resetDr])) ∧
    (∀ (op : Byte) (payload : List Byte), (op = 0x01#8 ∨ op = 0x03#8 ∨ op = 0x04#8) → payload ≠ [] →
      s.atMessage (op :: payload) →
      exec .dispatch s = .next (s.doneWith [.errReport 6#4 op (BitVec.ofNat 16 payload.length) 0#4]))

/-- From R196 and R199 (R328 in part): CALIBRATE_IMU goes to CAL_WAIT without FRAME_DONE; there MAIN's other operations take no step, IRQ
still fires, and `calib_done`, accepted there only, ends the frame attempt. That an operation or an offer without a step answers the
state unchanged is the model's rendering and not the rules' words (log entry 8). -/
def Obligations.CalibrateBlocksMain : Prop :=
  ∀ s : State,
    exec .calibrateImu s = .next { s with mphase := 3#4, trace := s.trace ++ [.calibReq] } ∧
    (s.atMessage [0x02#8] → exec .dispatch s = .next { s with mphase := 3#4, trace := s.trace ++ [.calibReq] }) ∧
    (∀ payload : List Byte, payload ≠ [] → s.atMessage (0x02#8 :: payload) →
      exec .dispatch s = .next (s.doneWith [.errReport 6#4 0x02#8 (BitVec.ofNat 16 payload.length) 0#4])) ∧
    (s.mphase = 3#4 →
      (∀ a, exec (.rxPoll a) s = .next s) ∧ exec .decode s = .next s ∧ exec .dispatch s = .next s ∧ exec .arb s = .next s ∧
      (∀ l, exec (.svcDone l) s = .next s) ∧ exec .rearm1 s = .next s ∧ exec .rearm2 s = .next s ∧ exec .endIter s = .next s ∧
      (∀ l, s.ien.get l = true → s.latch.get l = true → ∃ t, exec (.irqFire l) s = .next t ∧ t.flag.get l = true) ∧
      exec .calDone s = .next (s.doneWith [.calibDone])) ∧
    (s.mphase ≤ 8#4 → s.mphase ≠ 3#4 → exec .calDone s = .next s)

/-- R198, R33, R91, R94, R95: the three options in one step, the deadline one interval from now when the interval is not negative, and a
new performance window; afterwards periodic telemetry is enabled exactly for an interval that is not negative, interval 0 is due, and
the level ports `po_level`, `po_interval` and `po_perf` are the new options (their row in R106). -/
def Obligations.SetProgramOptionsResult : Prop :=
  ∀ (level hi lo perf : Byte) (s : State),
    exec (.setProgramOptions level (hi ++ lo) perf) s = .next { s with
      poLevel := level
      poInterval := hi ++ lo
      poPerf := decide (perf ≠ 0x00#8)
      deadline := if 0 ≤ (hi ++ lo : BitVec 16).toInt then s.nowUs + (hi ++ lo : BitVec 16).setWidth 64 * 1000#64
        else s.deadline
      loopCount := 0#16
      idleCount := 0#16
      perfT0 := s.nowUs
      trace := s.trace ++ [.poUpdate level (hi ++ lo) (decide (perf ≠ 0x00#8))] } ∧
    (s.atMessage [0x05#8, level, hi, lo, perf] →
      exec .dispatch s = .next { s.doneWith [.poUpdate level (hi ++ lo) (decide (perf ≠ 0x00#8))] with
        poLevel := level
        poInterval := hi ++ lo
        poPerf := decide (perf ≠ 0x00#8)
        deadline := if 0 ≤ (hi ++ lo : BitVec 16).toInt then s.nowUs + (hi ++ lo : BitVec 16).setWidth 64 * 1000#64
          else s.deadline
        loopCount := 0#16
        idleCount := 0#16
        perfT0 := s.nowUs }) ∧
    (∀ payload : List Byte, payload.length ≠ 4 → s.atMessage (0x05#8 :: payload) →
      exec .dispatch s = .next (s.doneWith [.errReport 6#4 0x05#8 (BitVec.ofNat 16 payload.length) 0#4])) ∧
    (∀ t, exec (.setProgramOptions level (hi ++ lo) perf) s = .next t →
      (t.perEn = true ↔ 0 ≤ (hi ++ lo : BitVec 16).toInt) ∧ ((hi ++ lo : BitVec 16) = 0#16 → t.deadlineReached = true) ∧
      t.poPorts = (level, hi ++ lo, decide (perf ≠ 0x00#8)))

/-- R191, R192, R193, R201: a message that fails a check gives exactly one report, of its opcode and payload length, and nothing of the
opcode happens; a message of length 0, which the frame body [01] decodes to, is reported as such. -/
def Obligations.ProtocolErrorResults : Prop :=
  ∀ (op : Byte) (s : State),
    (∀ plen, exec (.unknownOpcode op plen) s = .next { s with trace := s.trace ++ [.errReport 5#4 op plen 0#4] }) ∧
    (∀ payload : List Byte, 5#8 < op → s.atMessage (op :: payload) →
      exec .dispatch s = .next (s.doneWith [.errReport 5#4 op (BitVec.ofNat 16 payload.length) 0#4])) ∧
    (∀ plen, exec (.badLength op plen) s = .next { s with trace := s.trace ++ [.errReport 6#4 op plen 0#4] }) ∧
    (∀ payload : List Byte,
      (op = 0#8 ∧ payload.length ≠ 12) ∨ (1#8 ≤ op ∧ op ≤ 4#8 ∧ payload.length ≠ 0) ∨ (op = 5#8 ∧ payload.length ≠ 4) →
      s.atMessage (op :: payload) →
      exec .dispatch s = .next (s.doneWith [.errReport 6#4 op (BitVec.ofNat 16 payload.length) 0#4])) ∧
    exec .emptyMessage s = .next { s with trace := s.trace ++ [.errReport 4#4 0#8 0#16 0#4] } ∧
    (s.atMessage [] → exec .dispatch s = .next (s.doneWith [.errReport 4#4 0#8 0#16 0#4])) ∧
    (∀ cap, decodeFn [0x01#8] cap = ([], 0#4))

/-- R87: which opcode and payload length select which command. -/
def Obligations.OpcodeAndLengthSelectCommand : Prop :=
  ∀ (op : Byte) (p : List Byte),
    ((∃ rf rb lf lb, decode (.message (op :: p)) = .ok (.setServoAngles rf rb lf lb)) ↔ op = 0#8 ∧ p.length = 12) ∧
    (decode (.message (op :: p)) = .ok .requestState ↔ op = 1#8 ∧ p = []) ∧
    (decode (.message (op :: p)) = .ok .calibrateImu ↔ op = 2#8 ∧ p = []) ∧
    (decode (.message (op :: p)) = .ok .emitBufferedErrorLog ↔ op = 3#8 ∧ p = []) ∧
    (decode (.message (op :: p)) = .ok .resetDeadReckoning ↔ op = 4#8 ∧ p = []) ∧
    ((∃ level iv perf, decode (.message (op :: p)) = .ok (.setProgramOptions level iv perf)) ↔ op = 5#8 ∧ p.length = 4) ∧
    ((∃ n, decode (.message (op :: p)) = .ok (.unknownOpcode op n)) ↔ 5#8 < op)

/-- R190: DISPATCH runs the operation the message in MB decodes to, and FRAME_DONE follows every one but CALIBRATE_IMU. -/
def Obligations.DispatchRunsDecodedMessage : Prop :=
  ∀ (s t : State) (m : List Byte) (i : Instr),
    s.atMessage m → decode (.message m) = .ok i → exec i s = .next t →
    exec .dispatch s = .next (if i = .calibrateImu then t else t.doneWith [])

/-- R202: every dispatch completes in its step and ends the frame attempt, except the calibration command, which goes to CAL_WAIT; only
`calib_done`, or `rst`, leaves CAL_WAIT. -/
def Obligations.DispatchNeverBlocks : Prop :=
  (∀ (s : State) (m : List Byte), s.atMessage m →
    ∃ t, exec .dispatch s = .next t ∧ (m = [0x02#8] → t.mphase = 3#4) ∧
      (m ≠ [0x02#8] → t.mphase = 0#4 ∧ t.fsState = .seekStart ∧ t.flen = 0#16 ∧ t.mlen = 0#16)) ∧
  ∀ (s t : State) (e : Event), s.mphase = 3#4 → runEvent e s = .next t → t.mphase = 3#4 ∨ e = .calibDone ∨ e = .rst

/-! ## 2 Codec (40_codec.md) -/

/-- R124: ZeroByteInInput, nothing appended, the decode ends. -/
def Obligations.CodeZeroResult : Prop :=
  ∀ s : State,
    (s.dec.ended = false →
      exec .codeZero s = .next { s with dec := { s.dec with stat := s.dec.stat ||| 0b0100#4, ended := true } }) ∧
    (∀ (src : List Byte) (cap : Nat), decodeFn (0x00#8 :: src) cap = ([], 0b0100#4))

/-- R125: the `c - 1` data bytes, then one zero if input remains; InputTooShort and BufferOverflow where the bytes or the zero are
missing or do not fit. -/
def Obligations.CodeRunResult : Prop :=
  ∀ (s : State) (c : Byte) (n k : Nat) (rest dst : List Byte) (stat : BitVec 4) (cap : Nat),
    s.dec = ⟨rest, dst, stat, cap, false⟩ → dst.length ≤ cap → stat.getLsbD 1 = false →
    1#8 ≤ c → c ≤ 0xFE#8 → n = c.toNat - 1 → k = cap - dst.length →
    (rest.length = n → dst.length + n ≤ cap →
      exec (.codeRun c) s = .next { s with dec := ⟨[], dst ++ rest, stat ||| zeroBit rest, cap, true⟩ }) ∧
    (n < rest.length → dst.length + n < cap →
      exec (.codeRun c) s = .next { s with
        dec := ⟨rest.drop n, dst ++ rest.take n ++ [0x00#8], stat ||| zeroBit (rest.take n), cap, false⟩ }) ∧
    (n < rest.length → dst.length + n = cap →
      exec (.codeRun c) s = .next { s with
        dec := ⟨rest.drop n, dst ++ rest.take n, stat ||| zeroBit (rest.take n) ||| 0b0010#4, cap, true⟩ }) ∧
    (rest.length < n → dst.length + rest.length ≤ cap →
      exec (.codeRun c) s = .next { s with dec := ⟨[], dst ++ rest, stat ||| 0b1000#4 ||| zeroBit rest, cap, true⟩ }) ∧
    (n ≤ rest.length → cap < dst.length + n →
      exec (.codeRun c) s = .next { s with
        dec := ⟨rest.drop k, dst ++ rest.take k, stat ||| 0b0010#4 ||| zeroBit (rest.take k), cap, true⟩ }) ∧
    (rest.length < n → cap < dst.length + rest.length →
      exec (.codeRun c) s = .next { s with
        dec := ⟨rest.drop k, dst ++ rest.take k, stat ||| 0b1010#4 ||| zeroBit (rest.take k), cap, true⟩ })

/-- R126: the 254 data bytes and no zero; the status as for a run. -/
def Obligations.CodeFullResult : Prop :=
  ∀ (s : State) (k : Nat) (rest dst : List Byte) (stat : BitVec 4) (cap : Nat),
    s.dec = ⟨rest, dst, stat, cap, false⟩ → dst.length ≤ cap → stat.getLsbD 1 = false → k = cap - dst.length →
    (rest.length = 254 → dst.length + 254 ≤ cap →
      exec .codeFull s = .next { s with dec := ⟨[], dst ++ rest, stat ||| zeroBit rest, cap, true⟩ }) ∧
    (254 < rest.length → dst.length + 254 ≤ cap →
      exec .codeFull s = .next { s with
        dec := ⟨rest.drop 254, dst ++ rest.take 254, stat ||| zeroBit (rest.take 254), cap, false⟩ }) ∧
    (rest.length < 254 → dst.length + rest.length ≤ cap →
      exec .codeFull s = .next { s with dec := ⟨[], dst ++ rest, stat ||| 0b1000#4 ||| zeroBit rest, cap, true⟩ }) ∧
    (254 ≤ rest.length → cap < dst.length + 254 →
      exec .codeFull s = .next { s with
        dec := ⟨rest.drop k, dst ++ rest.take k, stat ||| 0b0010#4 ||| zeroBit (rest.take k), cap, true⟩ }) ∧
    (rest.length < 254 → cap < dst.length + rest.length →
      exec .codeFull s = .next { s with
        dec := ⟨rest.drop k, dst ++ rest.take k, stat ||| 0b1010#4 ||| zeroBit (rest.take k), cap, true⟩ })

/-- R61 for the decoder: a pass never goes over the capacity, only takes input, only extends the output, and does not go on after
BufferOverflow. A decode that has ended has no pass left (the model's own convention, log entry 7). -/
def Obligations.DecoderPassesStayInBounds : Prop :=
  ∀ (s : State) (c : Byte) (i : Instr), i ∈ [Instr.codeZero, .codeFull, .codeRun c] → s.dec.dst.length ≤ s.dec.cap →
    (s.dec.ended = true → exec i s = .next s) ∧
    (s.dec.ended = false → ∃ (w : DecWork) (k : Nat) (data : List Byte), exec i s = .next { s with dec := w } ∧
      w.cap = s.dec.cap ∧ w.dst.length ≤ w.cap ∧ w.rest = s.dec.rest.drop k ∧ w.dst = s.dec.dst ++ data ∧
      (w.ended = false → w.stat.getLsbD 1 = false ∧ w.rest ≠ []))

/-- R121: ENCODE completes, its output is not empty and holds no 0x00, whatever the input; nothing but the result is written, and equal
inputs give equal outputs from any two states. -/
def Obligations.EncodedHasNoDelimiter : Prop :=
  ∀ (x : List Byte) (s s' : State), ∃ out : List Byte,
    exec (.encode x) s = .next { s with encOut := out } ∧ exec (.encode x) s' = .next { s' with encOut := out } ∧
    out = encodeFn x ∧ 0x00#8 ∉ out ∧ 1 ≤ out.length

/-- R122: the output bound `MaxEnc`, reached when the input has no zero, within the source's bound; and its two values. -/
def Obligations.EncodedLengthBound : Prop :=
  (∀ x : List Byte,
    (encodeFn x).length ≤ (if x.length = 0 then 1 else x.length + (x.length + 253) / 254) ∧
    (0x00#8 ∉ x → (encodeFn x).length = (if x.length = 0 then 1 else x.length + (x.length + 253) / 254)) ∧
    (encodeFn x).length ≤ x.length + (x.length + 253) / 254 + 1) ∧
  maxEnc 13 = 14 ∧ maxEnc 128 = 129 ∧ ∀ n, maxEnc n = (if n = 0 then 1 else n + (n + 253) / 254)

/-- R83, R85: the output is a sequence of blocks, each a code byte from 1 to 255 and one fewer non-zero data bytes, and the runs, with
a zero after each but the last and the full ones, are the message. -/
def Obligations.EncoderFollowsRunRule : Prop :=
  ∀ x : List Byte, ∃ runs : List (List Byte),
    encodeFn x = runs.flatMap (fun r => BitVec.ofNat 8 (r.length + 1) :: r) ∧
    (∀ r ∈ runs, r.length ≤ 254 ∧ 0x00#8 ∉ r) ∧ runs ≠ [] ∧ unblock runs = x ∧
    (∀ r, runs.getLast? = some r → r = [] → x = [] ∨ x.getLast? = some 0x00#8)

/-- R128: decoding an encoded message gives it back with status 0, for every capacity it fits. -/
def Obligations.DecodeInvertsEncode : Prop :=
  ∀ (x : List Byte) (cap : Nat), x.length ≤ cap →
    decodeFn (encodeFn x) cap = (x, 0#4) ∧
    ∀ s : State, exec (.decodeFn (encodeFn x) cap) s = .next { s with dec := ⟨[], x, 0#4, cap, true⟩ }

/-- R123, R127, R129: DECODE_FN ends on every input, writes nothing but its result, never exceeds the capacity, and never sets
NullPointer. -/
def Obligations.DecodeFnCompletes : Prop :=
  ∀ (src : List Byte) (cap : Nat) (s : State), ∃ w : DecWork,
    exec (.decodeFn src cap) s = .next { s with dec := w } ∧ w.ended = true ∧ (w.dst, w.stat) = decodeFn src cap ∧
    w.dst.length ≤ cap ∧ w.stat.getLsbD 0 = false

/-- R171, corner cases: a frame body has no 0x00 and at most `MSG_CAP + 1` bytes, so the only failure is InputTooShort. -/
def Obligations.FrameBodyFailsOnlyShort : Prop :=
  ∀ (body : List Byte) (cap : Nat), 0x00#8 ∉ body → body.length ≤ cap + 1 →
    (decodeFn body cap).2 = 0b0000#4 ∨ (decodeFn body cap).2 = 0b1000#4

/-! ## 3 Frame synchronizer (41_frame_sync.md) -/

/-- From R161 to R164: the two classes of byte in SEEK_START and in SEEK_END, as operations and as polled bytes. That the polled byte stands
in the trace before the report of its step is the model's choice (log entry 10). -/
def Obligations.SeekResults : Prop :=
  ∀ (s : State) (b : Byte),
    exec .syncStartDelim s = .next { s with fsState := .accumulating, flen := 0#16 } ∧
    exec (.syncStartData b) s = .next { s with fsState := .seekEnd, trace := s.trace ++ [.errReport 2#4 b 0#16 0#4] } ∧
    exec .syncSeekEndDelim s = .next { s with fsState := .seekStart } ∧
    exec (.syncSeekEndData b) s = .next s ∧
    (s.mphase = 0#4 → s.fsState = .seekStart →
      exec (.rxPoll (some 0x00#8)) s = .next { s with
        fsState := .accumulating, flen := 0#16, trace := s.trace ++ [.rxAnswer (some 0x00#8)] } ∧
      (b ≠ 0x00#8 → exec (.rxPoll (some b)) s = .next { s with
        fsState := .seekEnd, trace := s.trace ++ [.rxAnswer (some b), .errReport 2#4 b 0#16 0#4] })) ∧
    (s.mphase = 0#4 → s.fsState = .seekEnd →
      exec (.rxPoll (some 0x00#8)) s = .next { s with fsState := .seekStart, trace := s.trace ++ [.rxAnswer (some 0x00#8)] } ∧
      (b ≠ 0x00#8 → exec (.rxPoll (some b)) s = .next { s with trace := s.trace ++ [.rxAnswer (some b)] }))

/-- R165, R167: a delimiter inside a frame is absorbed while nothing is accumulated and else completes the frame. -/
def Obligations.FrameDelimiterResults : Prop :=
  ∀ s : State,
    exec .syncAccDelimEmpty s = .next s ∧
    exec .syncAccDelimEnd s = .next { s with fsState := .handoff, mphase := 1#4 } ∧
    (s.mphase = 0#4 → s.fsState = .accumulating →
      (s.flen = 0#16 → exec (.rxPoll (some 0x00#8)) s = .next { s with trace := s.trace ++ [.rxAnswer (some 0x00#8)] }) ∧
      (1#16 ≤ s.flen → exec (.rxPoll (some 0x00#8)) s = .next { s with
        fsState := .handoff, mphase := 1#4, trace := s.trace ++ [.rxAnswer (some 0x00#8)] }))

/-- R166: a data byte goes to FB at `flen`, every other byte of FB reads as before, and `flen` counts it. That the operation alone runs
without its context and faults at or beyond FRAME_CAP is the model's choice (log entries 9 and 14), which R61 permits. -/
def Obligations.FrameDataResult : Prop :=
  ∀ (s : State) (b : Byte),
    (s.flen.toNat < s.params.frameCap → ∃ m : Memory,
      m.read s.flen.toNat = some b ∧ (∀ a, a ≠ s.flen.toNat → m.read a = s.fb.read a) ∧
      exec (.syncAccData b) s = .next { s with fb := m, flen := s.flen + 1#16 } ∧
      (s.mphase = 0#4 → s.fsState = .accumulating → b ≠ 0x00#8 →
        exec (.rxPoll (some b)) s = .next { s with
          fb := m, flen := s.flen + 1#16, trace := s.trace ++ [.rxAnswer (some b)] })) ∧
    (s.params.frameCap ≤ s.flen.toNat → exec (.syncAccData b) s = .fault (.beyondCapacity .fb s.flen.toNat))

/-- From R168: an overlong frame is reported once and dropped whole. That the polled byte stands in the trace before the report of its step
is the model's choice (log entry 10). -/
def Obligations.FrameOverflowResult : Prop :=
  ∀ (s : State) (b : Byte),
    exec (.syncAccOverflow b) s = .next { s with
      flen := 0#16, fb := [], fsState := .seekEnd
      trace := s.trace ++ [.errReport 1#4 b (BitVec.ofNat 16 s.params.frameCap) 0#4] } ∧
    (s.mphase = 0#4 → s.fsState = .accumulating → s.flen.toNat = s.params.frameCap → b ≠ 0x00#8 →
      exec (.rxPoll (some b)) s = .next { s with
        flen := 0#16, fb := [], fsState := .seekEnd
        trace := s.trace ++ [.rxAnswer (some b), .errReport 1#4 b (BitVec.ofNat 16 s.params.frameCap) 0#4] })

/-- From R160: `none` ends the drain and keeps the synchronizer; a byte runs the transition it selects in the same step; no poll takes
place outside RX, nor in HANDOFF (R169). That such a poll answers the state unchanged (log entry 8), and that the answer stands in the
trace before the outputs of the transition (log entry 10), are the model's. -/
def Obligations.RxPollResult : Prop :=
  ∀ s : State,
    (s.mphase = 0#4 → s.fsState ≠ .handoff →
      exec (.rxPoll none) s = .next { s with mphase := 4#4, trace := s.trace ++ [.rxAnswer none] }) ∧
    (∀ (b : Byte) (i : Instr), s.mphase = 0#4 → decode (.wire s.fsState s.flen s.params.frameCap b) = .ok i →
      exec (.rxPoll (some b)) s = exec i { s with trace := s.trace ++ [.rxAnswer (some b)] }) ∧
    (∀ a, s.mphase ≤ 8#4 → s.mphase ≠ 0#4 → exec (.rxPoll a) s = .next s) ∧
    (∀ a, s.mphase = 0#4 → s.fsState = .handoff → exec (.rxPoll a) s = .next s)

/-- R172: both buffers are cleared, the synchronizer expects a start delimiter, MAIN polls again. -/
def Obligations.FrameDoneResult : Prop :=
  ∀ s : State, ∃ t, exec .frameDone s = .next t ∧
    t = { s with flen := 0#16, mlen := 0#16, fb := t.fb, mb := t.mb, fsState := .seekStart, mphase := 0#4 } ∧
    ∀ a, t.fb.read a = none ∧ t.mb.read a = none

/-- R171: DECODE of a complete frame: a non-zero status gives one report and FRAME_DONE; status 0 leaves the message in MB, every byte
of MB above it as before, and goes to DISPATCH. -/
def Obligations.DecodeStepResult : Prop :=
  ∀ (s : State) (body m : List Byte) (stat : BitVec 4), s.atFrame body → decodeFn body s.params.msgCap = (m, stat) →
    (stat ≠ 0#4 →
      exec .decode s = .next { s.doneWith [.errReport 3#4 0#8 s.flen stat] with dstat := stat }) ∧
    (stat = 0#4 → ∃ mb' : Memory,
      exec .decode s = .next { s with dstat := 0#4, mb := mb', mlen := BitVec.ofNat 16 m.length, mphase := 2#4 } ∧
      mb'.holds m ∧ ∀ a, m.length ≤ a → mb'.read a = s.mb.read a)

/-- R80, R161, R166, R167: from SEEK_START, the bytes `00 body 00` of a frame that fits put exactly the body into FB, raise nothing and
move MAIN to DECODE. -/
def Obligations.HostFrameIsDelivered : Prop :=
  ∀ (s : State) (body : List Byte),
    s.params.Valid → s.mphase = 0#4 → s.fsState = .seekStart → body ≠ [] → 0x00#8 ∉ body → body.length ≤ s.params.frameCap →
    ∃ t, rxBytes (0x00#8 :: (body ++ [0x00#8])) s = .next t ∧ t.atFrame body ∧ t.fsState = .handoff ∧
      t.trace = s.trace ++ (0x00#8 :: (body ++ [0x00#8])).map (fun b => .rxAnswer (some b))

/-- R128 and R171 end to end: a host message whose encoding fits a frame reaches the dispatcher unchanged. -/
def Obligations.HostMessageReachesDispatcher : Prop :=
  ∀ (s : State) (x : List Byte),
    s.params.Valid → s.mphase = 0#4 → s.fsState = .seekStart → (encodeFn x).length ≤ s.params.frameCap →
    ∃ t, andThen (rxBytes (0x00#8 :: (encodeFn x ++ [0x00#8])) s) (exec .decode) = .next t ∧ t.atMessage x ∧ t.dstat = 0#4 ∧
      t.trace = s.trace ++ (0x00#8 :: (encodeFn x ++ [0x00#8])).map (fun b => .rxAnswer (some b))

/-- R174 property 2: an overlong body raises FRAME_OVERFLOW once, its rest is discarded through its end delimiter, and the synchronizer
then expects a frame. -/
def Obligations.OverlongFrameRecovers : Prop :=
  ∀ (s : State) (body : List Byte),
    s.params.Valid → s.mphase = 0#4 → s.fsState = .accumulating → s.flen = 0#16 → 0x00#8 ∉ body →
    s.params.frameCap < body.length →
    ∃ t new, rxBytes (body ++ [0x00#8]) s = .next t ∧ t.mphase = 0#4 ∧ t.fsState = .seekStart ∧ t.flen = 0#16 ∧
      t.trace = s.trace ++ new ∧
      new.filter Transaction.isReport
        = [.errReport 1#4 (body.getD s.params.frameCap 0#8) (BitVec.ofNat 16 s.params.frameCap) 0#4]

/-- R174 property 3 and R324: bytes before the first delimiter raise one SYNC_LOST and are discarded through that delimiter. That the polled
byte stands in the trace before the report of its step is the model's choice (log entry 10). -/
def Obligations.GarbageIsDiscarded : Prop :=
  ∀ (s : State) (b : Byte) (data : List Byte),
    s.mphase = 0#4 → s.fsState = .seekStart → 0x00#8 ∉ b :: data →
    rxBytes (b :: (data ++ [0x00#8])) s = .next { s with
      trace := s.trace ++ (.rxAnswer (some b) :: .errReport 2#4 b 0#16 0#4 ::
        (data ++ [0x00#8]).map (fun c => .rxAnswer (some c))) }

/-! ## 4 Arbiter and handoff (43_handoff.md) -/

/-- R232 to R235: a service clears its flag, names its line, asks EST and waits; the periodic grant advances the old deadline by the
interval; the idle grant counts while PO_PERF is 1. -/
def Obligations.GrantResults : Prop :=
  ∀ s : State,
    exec .grantImu s = .next { s with
      flag := { s.flag with imu := false }, svcLine := .imu, mphase := 5#4, trace := s.trace ++ [.svcReq .imu] } ∧
    exec .grantCs s = .next { s with
      flag := { s.flag with cs := false }, svcLine := .cs, mphase := 5#4, trace := s.trace ++ [.svcReq .cs] } ∧
    exec .grantPeriodic s = .next { s with
      deadline := s.deadline + s.poInterval.setWidth 64 * 1000#64, mphase := 8#4, trace := s.trace ++ [.telemReq] } ∧
    (s.poPerf = true → exec .grantIdle s = .next { s with idleCount := s.idleCount + 1#16, mphase := 8#4 }) ∧
    (s.poPerf = false → exec .grantIdle s = .next { s with mphase := 8#4 })

/-- R231 with R32: exactly one grant, IMU before CS before periodic before idle; a negative interval is never periodic. -/
def Obligations.ArbGrantsByPriority : Prop :=
  ∀ s : State, s.mphase = 4#4 →
    (s.flag.imu = true → exec .arb s = .next { s with
      flag := { s.flag with imu := false }, svcLine := .imu, mphase := 5#4, trace := s.trace ++ [.svcReq .imu] }) ∧
    (s.flag.imu = false → s.flag.cs = true → exec .arb s = .next { s with
      flag := { s.flag with cs := false }, svcLine := .cs, mphase := 5#4, trace := s.trace ++ [.svcReq .cs] }) ∧
    (s.flag.imu = false → s.flag.cs = false → 0 ≤ s.poInterval.toInt → s.deadline ≤ s.nowUs → exec .arb s = .next { s with
      deadline := s.deadline + s.poInterval.setWidth 64 * 1000#64, mphase := 8#4, trace := s.trace ++ [.telemReq] }) ∧
    (s.flag.imu = false → s.flag.cs = false → s.poInterval.toInt < 0 ∨ s.nowUs < s.deadline →
      exec .arb s = .next { s with
        idleCount := if s.poPerf = true then s.idleCount + 1#16 else s.idleCount, mphase := 8#4 })

/-- From R237, R242, R243: `svc_done` is accepted in SVC_WAIT for the line being serviced only; then the two halves of re-arming clear the
latch and enable the line. That a `svc_done` which is not accepted answers the state unchanged is the model's rendering (log entry 8). -/
def Obligations.ServiceEndResults : Prop :=
  ∀ (s : State) (l : Line), s.mphase ≤ 8#4 →
    (s.mphase = 5#4 → s.svcLine = l →
      exec (.svcDone l) s = .next { s with mphase := 6#4, trace := s.trace ++ [.svcDone l] }) ∧
    (s.mphase ≠ 5#4 ∨ s.svcLine ≠ l → exec (.svcDone l) s = .next s) ∧
    (s.mphase = 6#4 → s.svcLine = .imu →
      exec .rearm1 s = .next { s with latch := { s.latch with imu := false }, mphase := 7#4 }) ∧
    (s.mphase = 6#4 → s.svcLine = .cs →
      exec .rearm1 s = .next { s with latch := { s.latch with cs := false }, mphase := 7#4 }) ∧
    (s.mphase = 7#4 → s.svcLine = .imu →
      exec .rearm2 s = .next { s with ien := { s.ien with imu := true }, mphase := 8#4 }) ∧
    (s.mphase = 7#4 → s.svcLine = .cs →
      exec .rearm2 s = .next { s with ien := { s.ien with cs := true }, mphase := 8#4 })

/-- R236, R238: END counts the iteration while PO_PERF is 1, and the PERF_PERIOD-th one flushes the counters. -/
def Obligations.EndAndFlushResults : Prop :=
  ∀ s : State,
    exec .perfFlush s = .next { s with
      loopCount := 0#16, idleCount := 0#16, perfT0 := s.nowUs
      trace := s.trace ++ [.perfReq s.idleCount ((s.nowUs - s.perfT0).setWidth 32)] } ∧
    (s.mphase = 8#4 →
      (s.poPerf = false → exec .endIter s = .next { s with mphase := 0#4 }) ∧
      (s.poPerf = true → s.loopCount.toNat + 1 ≠ 10000 →
        exec .endIter s = .next { s with loopCount := s.loopCount + 1#16, mphase := 0#4 }) ∧
      (s.poPerf = true → s.loopCount.toNat + 1 = 10000 →
        exec .endIter s = .next { s with
          loopCount := 0#16, idleCount := 0#16, perfT0 := s.nowUs, mphase := 0#4
          trace := s.trace ++ [.perfReq s.idleCount ((s.nowUs - s.perfT0).setWidth 32)] }))

/-- From R241: the handler writes the three bits of its line and nothing else, when the line is enabled and latched. That it answers the
state unchanged otherwise is the model's rendering of no step (log entry 8). That both orders of firing the two lines leave the same
state is inferred from the three bits; R245 only leaves the order open. -/
def Obligations.IrqFireResult : Prop :=
  ∀ s : State,
    (s.ien.imu = true → s.latch.imu = true → exec (.irqFire .imu) s = .next { s with
      ien := { s.ien with imu := false }, latch := { s.latch with imu := false }, flag := { s.flag with imu := true } }) ∧
    (s.ien.cs = true → s.latch.cs = true → exec (.irqFire .cs) s = .next { s with
      ien := { s.ien with cs := false }, latch := { s.latch with cs := false }, flag := { s.flag with cs := true } }) ∧
    (∀ l, s.ien.get l = false ∨ s.latch.get l = false → exec (.irqFire l) s = .next s) ∧
    runInstrs [.irqFire .imu, .irqFire .cs] s = runInstrs [.irqFire .cs, .irqFire .imu] s

/-- R239, R240: an alert is always latched, whether or not the line is enabled; the clock advances by any amount of at least 1 that does
not wrap it, and then never decreases. -/
def Obligations.AlertAndClockResults : Prop :=
  ∀ (s : State) (d : BitVec 64),
    exec (.alert .imu) s = .next { s with latch := { s.latch with imu := true }, trace := s.trace ++ [.alert .imu] } ∧
    exec (.alert .cs) s = .next { s with latch := { s.latch with cs := true }, trace := s.trace ++ [.alert .cs] } ∧
    (d ≠ 0#64 → s.nowUs.toNat + d.toNat < 2 ^ 64 →
      exec (.clockTick d) s = .next { s with nowUs := s.nowUs + d } ∧ (s.nowUs + d).toNat = s.nowUs.toNat + d.toNat)

/-- From R244: the first arming, not accepted while the line is enabled, pending or being serviced. That an arming which is not accepted
answers the state unchanged is the model's rendering (log entry 8). -/
def Obligations.BootArmResult : Prop :=
  ∀ s : State, s.mphase ≤ 8#4 →
    (s.ien.imu = false → s.flag.imu = false →
      ¬ ((s.mphase = 5#4 ∨ s.mphase = 6#4 ∨ s.mphase = 7#4) ∧ s.svcLine = .imu) →
      exec (.bootArm .imu) s = .next { s with
        latch := { s.latch with imu := false }, ien := { s.ien with imu := true }, trace := s.trace ++ [.arm .imu] }) ∧
    (s.ien.cs = false → s.flag.cs = false →
      ¬ ((s.mphase = 5#4 ∨ s.mphase = 6#4 ∨ s.mphase = 7#4) ∧ s.svcLine = .cs) →
      exec (.bootArm .cs) s = .next { s with
        latch := { s.latch with cs := false }, ien := { s.ien with cs := true }, trace := s.trace ++ [.arm .cs] }) ∧
    (∀ l, s.ien.get l = true ∨ s.flag.get l = true ∨
        ((s.mphase = 5#4 ∨ s.mphase = 6#4 ∨ s.mphase = 7#4) ∧ s.svcLine = l) →
      exec (.bootArm l) s = .next s)

/-- R248 and R236 in part: after the drain one iteration takes exactly one grant and ends: with a flag set it is the service of one line,
which takes EST's answer and leaves that line enabled; else two steps of MAIN. It counts once while PO_PERF is 1. -/
def Obligations.IterationCompletes : Prop :=
  ∀ s : State, s.Inv → s.mphase = 0#4 →
    (∀ l : Line, (l = .imu ∧ s.flag.imu = true) ∨ (l = .cs ∧ s.flag.imu = false ∧ s.flag.cs = true) →
      ∃ t new, runEvents [.rxPoll none, .main, .svcDone l, .main, .main, .main] s = .next t ∧
        t.mphase = 0#4 ∧ t.flag.get l = false ∧ t.ien.get l = true ∧ t.trace = s.trace ++ new ∧
        svcReqs l new = 1 ∧ svcReqs .imu new + svcReqs .cs new = 1 ∧ telemReqs new = 0 ∧
        (s.poPerf = true → t.loopCount.toNat = (s.loopCount.toNat + 1) % 10000)) ∧
    (s.flag.imu = false → s.flag.cs = false →
      ∃ t new, runEvents [.rxPoll none, .main, .main] s = .next t ∧
        t.mphase = 0#4 ∧ t.trace = s.trace ++ new ∧ svcReqs .imu new + svcReqs .cs new = 0 ∧
        telemReqs new = (if 0 ≤ s.poInterval.toInt ∧ s.deadline ≤ s.nowUs then 1 else 0) ∧
        (s.poPerf = true → t.loopCount.toNat = (s.loopCount.toNat + 1) % 10000))

/-- R326: an alert before REARM1 is discarded by it; one after REARM1 fires as soon as the line is enabled. -/
def Obligations.RearmWindowDiscardsAlert : Prop :=
  ∀ (s : State) (l : Line), s.mphase = 6#4 → s.svcLine = l →
    (∃ t, runInstrs [.alert l, .rearm1, .rearm2, .irqFire l] s = .next t ∧
      t.flag.get l = s.flag.get l ∧ t.ien.get l = true ∧ t.latch.get l = false) ∧
    (∃ t, runInstrs [.rearm1, .alert l, .rearm2, .irqFire l] s = .next t ∧
      t.flag.get l = true ∧ t.ien.get l = false ∧ t.latch.get l = false)

/-- R246: no lost flag and no duplicate service. Over any events without a reset, the firings of a line and its pending flag before are
as many as its services and its pending flag after. -/
def Obligations.FiringsAreServicedOnce : Prop :=
  ∀ (l : Line) (es : List Event) (s t : State),
    s.Inv → Event.rst ∉ es → runEvents es s = .next t →
    ∃ new, t.trace = s.trace ++ new ∧
      firings l es s + (if s.flag.get l = true then 1 else 0) = svcReqs l new + (if t.flag.get l = true then 1 else 0)

/-- R249: while no `po_update` is emitted, the deadline is the first one plus one interval for each periodic grant, whenever the grants
came and whatever else ran, dispatches included. -/
def Obligations.PeriodicDeadlinesDoNotDrift : Prop :=
  ∀ (is : List Instr) (s t : State), Instr.reset ∉ is → runInstrs is s = .next t →
    ∃ new, t.trace = s.trace ++ new ∧
      ((∀ level iv perf, .poUpdate level iv perf ∉ new) →
        t.poInterval = s.poInterval ∧
        t.deadline = s.deadline + BitVec.ofNat 64 (telemReqs new) * (s.poInterval.setWidth 64 * 1000#64))

/-! ## 5 Transmit framer (40_codec.md section 3) -/

/-- R130: TX_REQ loads TB with `00 Encode(M) 00`, or refuses the whole message with ENCODE_OVERFLOW; while TX sends, the offer waits. That
the trace holds a refused request, that it stands there before its report, and that an offer that waits is an unchanged state, are the
model's (log entries 22, 10 and 8). -/
def Obligations.TxReqResult : Prop :=
  ∀ (s : State) (m : List Byte),
    (s.txPhase = .idle → m.length ≤ s.params.txMsgCap → (encodeFn m).length ≤ s.params.txEncCap → ∃ tb' : Memory,
      exec (.txReq m) s = .next { s with
        tb := tb', txLen := BitVec.ofNat 16 ((encodeFn m).length + 2), txIdx := 0#16, txPhase := .send
        trace := s.trace ++ [.txReq m] } ∧
      tb'.holds (0x00#8 :: (encodeFn m ++ [0x00#8])) ∧ ∀ a, (encodeFn m).length + 2 ≤ a → tb'.read a = s.tb.read a) ∧
    (s.txPhase = .idle → s.params.txMsgCap < m.length ∨ s.params.txEncCap < (encodeFn m).length →
      exec (.txReq m) s = .next { s with
        trace := s.trace ++ [.txReq m, .errReport 7#4 (m.headD 0#8) (BitVec.ofNat 16 m.length) 0#4] }) ∧
    (s.txPhase = .send → exec (.txReq m) s = .next s)

/-- From R131: TX_PUT sends the byte at `tx_idx`, and the phase is IDLE after the last. From R62: a read at or beyond the fill count faults.
That TX_PUT in IDLE, where it is not enabled, answers the state unchanged is the model's rendering (log entry 8). -/
def Obligations.TxPutResult : Prop :=
  ∀ (s : State) (b : Byte),
    (s.txPhase = .send → s.txIdx.toNat < s.txLen.toNat → s.tb.read s.txIdx.toNat = some b →
      exec .txPut s = .next { s with
        txIdx := s.txIdx + 1#16, txPhase := if s.txIdx + 1#16 = s.txLen then .idle else .send
        trace := s.trace ++ [.txPut b] }) ∧
    (s.txPhase = .send → s.txLen.toNat ≤ s.txIdx.toNat → exec .txPut s = .fault (.beyondFill .tb s.txIdx.toNat)) ∧
    (s.txPhase = .idle → exec .txPut s = .next s)

/-- R130 to R132: an accepted message is sent as exactly `00 Encode(M) 00`, and then TX is IDLE again with `tx_idx = tx_len`. -/
def Obligations.TransmitSendsWholeFrame : Prop :=
  ∀ (s : State) (m : List Byte),
    s.params.Valid → s.txPhase = .idle → m.length ≤ s.params.txMsgCap → (encodeFn m).length ≤ s.params.txEncCap →
    ∃ t, andThen (exec (.txReq m) s) (txPuts ((encodeFn m).length + 2)) = .next t ∧
      t.txPhase = .idle ∧ t.txIdx = t.txLen ∧ t.txLen.toNat = (encodeFn m).length + 2 ∧
      t.trace = s.trace ++ .txReq m :: (0x00#8 :: (encodeFn m ++ [0x00#8])).map (fun b => .txPut b)

/-- R133, second item: with `TX_ENC_CAP = MaxEnc(TX_MSG_CAP)` no message that is short enough has an encoding that is too long. -/
def Obligations.DefaultEncoderCapacitySuffices : Prop :=
  Params.default.txEncCap = maxEnc Params.default.txMsgCap ∧
  ∀ (p : Params) (m : List Byte), p.txEncCap = maxEnc p.txMsgCap → m.length ≤ p.txMsgCap → (encodeFn m).length ≤ p.txEncCap

/-! ## 6 Encoding and stepping -/

/-- Decoding an encoding gives the operation back, for every well-formed operation and every operand. -/
def Obligations.DecodeEncodeAgree : Prop :=
  ∀ i : Instr, i.wellFormed = true → decode (encode i) = .ok i

/-- What a decoder gives is well-formed: for messages that `mlen` can count and clock advances of at least 1. -/
def Obligations.DecodedIsWellFormed : Prop :=
  ∀ (e : Encoded) (i : Instr),
    (∀ m, e = .message m → m.length ≤ 65535) → e ≠ .port (.clock 0#64) → decode e = .ok i → i.wellFormed = true

/-- R81, R84, R87, R104: words written out from the encoding tables. -/
def Obligations.WordsOfTheTables : Prop :=
  decode (.message [0x01#8]) = .ok .requestState ∧
  decode (.message [0x05#8, 0x02#8, 0x01#8, 0xF4#8, 0x01#8]) = .ok (.setProgramOptions 2#8 500#16 1#8) ∧
  decode (.message [0x09#8, 0x01#8, 0x02#8]) = .ok (.unknownOpcode 9#8 2#16) ∧
  decode (.code 0x00#8) = .ok .codeZero ∧ decode (.code 0xFF#8) = .ok .codeFull ∧ decode (.code 0xFE#8) = .ok (.codeRun 0xFE#8) ∧
  decode (.wire .seekStart 0#16 100 0x00#8) = .ok .syncStartDelim ∧
  decode (.wire .accumulating 100#16 100 0x41#8) = .ok (.syncAccOverflow 0x41#8) ∧
  decode (.grant 0b10#2) = .ok .grantPeriodic ∧ decode (.port (.mphase 8#4)) = .ok .endIter

/-- A step runs the operation its event selects, on the state without that event: the schedule's first event, or, with none scheduled, a
free draw and the draw counter's advance; MAIN waiting for a port takes no step, and a value that is no phase faults (R21, log entry
12). The schedule is the model's own (log entry 1), and so is the unchanged state that renders no step (log entry 8). -/
def Obligations.StepRunsSelectedOperation : Prop :=
  (∀ (s : State) (e : Event) (r : List Event), s.pending = e :: r → step s = runEvent e { s with pending := r }) ∧
  (∀ s : State, s.pending = [] → step s = runEvent (Config.freeEvent s.draws) { s with draws := s.draws + 1 }) ∧
  (∀ (s : State) (e : Event) (i : Instr), decode (.port (Event.trigger s e)) = .ok i → runEvent e s = exec i s) ∧
  (∀ s : State, s.mphase = 0#4 ∨ s.mphase = 3#4 ∨ s.mphase = 5#4 → runEvent .main s = .next s) ∧
  (∀ s : State, 8#4 < s.mphase → runEvent .main s = .fault (.illegalPhase s.mphase))

/-- R21, R7: each MAIN operation waits in the other phases and faults on a value that is no phase, and an event that the state does not
enable changes nothing: the model's rendering of no step (log entry 8). -/
def Obligations.EventsWaitUntilEnabled : Prop :=
  (∀ (s : State) (i : Instr) (v : BitVec 4) (a : Option Byte) (l : Line),
    (i, v) ∈ [(Instr.rxPoll a, 0#4), (.decode, 1#4), (.dispatch, 2#4), (.calDone, 3#4), (.arb, 4#4), (.svcDone l, 5#4),
      (.rearm1, 6#4), (.rearm2, 7#4), (.endIter, 8#4)] →
    (s.mphase ≤ 8#4 → s.mphase ≠ v → exec i s = .next s) ∧
    (8#4 < s.mphase → exec i s = .fault (.illegalPhase s.mphase))) ∧
  ∀ (s : State) (e : Event), s.mphase ≤ 8#4 → Event.enabled s e = false → runEvent e s = .next s

/-! ## 7 Reset -/

/-- R47: the reset values, for every choice of the parameters and of the environment's clock. -/
def Obligations.ResetValues : Prop :=
  (∀ (p : Params) (now : BitVec 64) (s : State), s = State.resetWith p now →
    s.mphase = 0#4 ∧ s.svcLine = .imu ∧ s.fsState = .seekStart ∧
    (∀ a, s.fb.read a = none ∧ s.mb.read a = none ∧ s.tb.read a = none) ∧
    s.flen = 0#16 ∧ s.mlen = 0#16 ∧ s.txLen = 0#16 ∧ s.txIdx = 0#16 ∧ s.dstat = 0#4 ∧
    s.poLevel = p.poResetLevel ∧ s.poInterval = p.poResetInterval ∧ s.poPerf = p.poResetPerf ∧
    s.deadline = 0#64 ∧ s.loopCount = 0#16 ∧ s.idleCount = 0#16 ∧ s.perfT0 = 0#64 ∧
    s.flag = ⟨false, false⟩ ∧ s.ien = ⟨false, false⟩ ∧ s.latch = ⟨false, false⟩ ∧ s.txPhase = .idle ∧ s.nowUs = now) ∧
  ∃ now, State.reset = State.resetWith Params.default now

/-- From R320: `rst`, in any state, sets every item of block state in one step; the clock stays, and no report is raised. That the parameters,
the trace, the events to come and the draw counter stay too is the model's (log entry 20). What it leaves in the model's own `dec` and
`encOut` is not said here (log entry 7). -/
def Obligations.ResetResult : Prop :=
  ∀ s : State, ∃ (dec' : DecWork) (encOut' : List Byte),
    exec .reset s = .next { s with
      mphase := 0#4, svcLine := .imu, fsState := .seekStart, fb := [], flen := 0#16, mb := [], mlen := 0#16, dstat := 0#4
      poLevel := s.params.poResetLevel, poInterval := s.params.poResetInterval, poPerf := s.params.poResetPerf
      deadline := 0#64, loopCount := 0#16, idleCount := 0#16, perfT0 := 0#64
      flag := ⟨false, false⟩, ien := ⟨false, false⟩, latch := ⟨false, false⟩
      txPhase := .idle, tb := [], txLen := 0#16, txIdx := 0#16, dec := dec', encOut := encOut' } ∧
    runEvent .rst s = exec .reset s

/-! ## 8 The whole machine -/

/-- The invariant holds at reset, for every valid choice of the parameters. -/
def Obligations.InvariantAtReset : Prop :=
  State.reset.Inv ∧ ∀ (p : Params) (now : BitVec 64), p.Valid → (State.resetWith p now).Inv

/-- R46: every step keeps the invariant, whatever event comes. -/
def Obligations.StepKeepsInvariant : Prop :=
  ∀ s t : State, s.Inv → step s = .next t → t.Inv

/-- R14, R21, R61, R62: in a state with the invariant a step always answers a next state: no rule reads a byte without a value, writes
past a bound or finds a value that is no phase. -/
def Obligations.StepAlwaysCompletes : Prop :=
  ∀ s : State, s.Inv → ∃ t, step s = .next t

/-- Every operation keeps the three buffers in their canonical form. -/
def Obligations.BuffersStayCanonical : Prop :=
  ∀ (i : Instr) (s t : State), s.fb.wf → s.mb.wf → s.tb.wf → exec i s = .next t → t.fb.wf ∧ t.mb.wf ∧ t.tb.wf

/-- The model's own: no operation is left without a meaning, so `exec` never answers Host's outcome `refused`, in any state (log entry 23).
That outcome is not the spec's refusal of a message, which is a next state with a report (R130, R280). -/
def Obligations.NothingIsRefused : Prop :=
  ∀ (i : Instr) (s : State) (r : Refusal), exec i s ≠ .refused r

/-- R289, R103: a step only appends to the trace, raises at most one error, and sends only the codes 1 to 7. -/
def Obligations.AtMostOneReport : Prop :=
  ∀ (i : Instr) (s t : State), exec i s = .next t →
    ∃ new, t.trace = s.trace ++ new ∧ (new.filter Transaction.isReport).length ≤ 1 ∧
      ∀ code arg len stat, .errReport code arg len stat ∈ new → 1#4 ≤ code ∧ code ≤ 7#4

/-- R38 to R40, R73: who may set and who may clear the flag, the enable and the latch of a line, ARB only the flag of the line it grants;
reset clears them all (R320). -/
def Obligations.SharedBitWriters : Prop :=
  ∀ (i : Instr) (s t : State) (l : Line), exec i s = .next t →
    (s.flag.get l = false → t.flag.get l = true → i = .irqFire l) ∧
    (s.flag.get l = true → t.flag.get l = false →
      (i = .arb ∧ (l = .imu ∨ (l = .cs ∧ s.flag.imu = false))) ∨ (i = .grantImu ∧ l = .imu) ∨ (i = .grantCs ∧ l = .cs) ∨
        i = .reset) ∧
    (s.ien.get l = false → t.ien.get l = true → (i = .rearm2 ∧ s.svcLine = l) ∨ i = .bootArm l) ∧
    (s.ien.get l = true → t.ien.get l = false → i = .irqFire l ∨ i = .reset) ∧
    (s.latch.get l = false → t.latch.get l = true → i = .alert l) ∧
    (s.latch.get l = true → t.latch.get l = false →
      i = .irqFire l ∨ (i = .rearm1 ∧ s.svcLine = l) ∨ i = .bootArm l ∨ i = .reset) ∧
    (i = .reset → t.flag.get l = false ∧ t.ien.get l = false ∧ t.latch.get l = false)

/-- R29 to R31, R106: the level ports are the current ProgramOptions; only SET_PROGRAM_OPTIONS, alone or from DISPATCH, and reset change
them; every change is announced by the `po_update` of what the ports then show. -/
def Obligations.OptionsChangeOnlyByCommand : Prop :=
  ∀ (i : Instr) (s t : State), exec i s = .next t →
    t.poPorts = (t.poLevel, t.poInterval, t.poPerf) ∧
    (t.poPorts ≠ s.poPorts → i ≠ .reset →
      (i = .dispatch ∨ ∃ level iv perf, i = .setProgramOptions level iv perf) ∧
        t.trace = s.trace ++ [.poUpdate t.poLevel t.poInterval t.poPerf])

/-- R44: the clock never decreases and only CLOCK moves it. That an advance of 0 or one that would wrap is not taken, and that no
operation changes the parameters, are the model's own (log entries 2 and 11). -/
def Obligations.ClockIsMonotonic : Prop :=
  ∀ (i : Instr) (s t : State), exec i s = .next t →
    s.nowUs ≤ t.nowUs ∧ t.params = s.params ∧ (t.nowUs ≠ s.nowUs → ∃ d, i = .clockTick d ∧ t = { s with nowUs := s.nowUs + d }) ∧
      ∀ d, i = .clockTick d → d = 0#64 ∨ 2 ^ 64 ≤ s.nowUs.toNat + d.toNat → t = s
end

