-- ==== Sys2Proof/Laws/State.lean ====
section
/-! SUPPORT. The fields of a state after each named update: one lemma for each field of each update. -/

namespace Sys2Proof.Machine

/-! ### record -/

@[simp] theorem record_params (t : Transaction) (s : State) : (record t s).params = s.params := rfl
@[simp] theorem record_mphase (t : Transaction) (s : State) : (record t s).mphase = s.mphase := rfl
@[simp] theorem record_svcLine (t : Transaction) (s : State) : (record t s).svcLine = s.svcLine := rfl
@[simp] theorem record_fsState (t : Transaction) (s : State) : (record t s).fsState = s.fsState := rfl
@[simp] theorem record_fb (t : Transaction) (s : State) : (record t s).fb = s.fb := rfl
@[simp] theorem record_flen (t : Transaction) (s : State) : (record t s).flen = s.flen := rfl
@[simp] theorem record_mb (t : Transaction) (s : State) : (record t s).mb = s.mb := rfl
@[simp] theorem record_mlen (t : Transaction) (s : State) : (record t s).mlen = s.mlen := rfl
@[simp] theorem record_dstat (t : Transaction) (s : State) : (record t s).dstat = s.dstat := rfl
@[simp] theorem record_poLevel (t : Transaction) (s : State) : (record t s).poLevel = s.poLevel := rfl
@[simp] theorem record_poInterval (t : Transaction) (s : State) : (record t s).poInterval = s.poInterval := rfl
@[simp] theorem record_poPerf (t : Transaction) (s : State) : (record t s).poPerf = s.poPerf := rfl
@[simp] theorem record_deadline (t : Transaction) (s : State) : (record t s).deadline = s.deadline := rfl
@[simp] theorem record_loopCount (t : Transaction) (s : State) : (record t s).loopCount = s.loopCount := rfl
@[simp] theorem record_idleCount (t : Transaction) (s : State) : (record t s).idleCount = s.idleCount := rfl
@[simp] theorem record_perfT0 (t : Transaction) (s : State) : (record t s).perfT0 = s.perfT0 := rfl
@[simp] theorem record_flag (t : Transaction) (s : State) : (record t s).flag = s.flag := rfl
@[simp] theorem record_ien (t : Transaction) (s : State) : (record t s).ien = s.ien := rfl
@[simp] theorem record_latch (t : Transaction) (s : State) : (record t s).latch = s.latch := rfl
@[simp] theorem record_txPhase (t : Transaction) (s : State) : (record t s).txPhase = s.txPhase := rfl
@[simp] theorem record_tb (t : Transaction) (s : State) : (record t s).tb = s.tb := rfl
@[simp] theorem record_txLen (t : Transaction) (s : State) : (record t s).txLen = s.txLen := rfl
@[simp] theorem record_txIdx (t : Transaction) (s : State) : (record t s).txIdx = s.txIdx := rfl
@[simp] theorem record_nowUs (t : Transaction) (s : State) : (record t s).nowUs = s.nowUs := rfl
@[simp] theorem record_trace (t : Transaction) (s : State) : (record t s).trace = s.trace ++ [t] := rfl
@[simp] theorem record_dec (t : Transaction) (s : State) : (record t s).dec = s.dec := rfl
@[simp] theorem record_encOut (t : Transaction) (s : State) : (record t s).encOut = s.encOut := rfl
@[simp] theorem record_pending (t : Transaction) (s : State) : (record t s).pending = s.pending := rfl
@[simp] theorem record_draws (t : Transaction) (s : State) : (record t s).draws = s.draws := rfl

/-! ### goto -/

@[simp] theorem goto_params (p : Phase) (s : State) : (goto p s).params = s.params := rfl
@[simp] theorem goto_mphase (p : Phase) (s : State) : (goto p s).mphase = p.bits := rfl
@[simp] theorem goto_svcLine (p : Phase) (s : State) : (goto p s).svcLine = s.svcLine := rfl
@[simp] theorem goto_fsState (p : Phase) (s : State) : (goto p s).fsState = s.fsState := rfl
@[simp] theorem goto_fb (p : Phase) (s : State) : (goto p s).fb = s.fb := rfl
@[simp] theorem goto_flen (p : Phase) (s : State) : (goto p s).flen = s.flen := rfl
@[simp] theorem goto_mb (p : Phase) (s : State) : (goto p s).mb = s.mb := rfl
@[simp] theorem goto_mlen (p : Phase) (s : State) : (goto p s).mlen = s.mlen := rfl
@[simp] theorem goto_dstat (p : Phase) (s : State) : (goto p s).dstat = s.dstat := rfl
@[simp] theorem goto_poLevel (p : Phase) (s : State) : (goto p s).poLevel = s.poLevel := rfl
@[simp] theorem goto_poInterval (p : Phase) (s : State) : (goto p s).poInterval = s.poInterval := rfl
@[simp] theorem goto_poPerf (p : Phase) (s : State) : (goto p s).poPerf = s.poPerf := rfl
@[simp] theorem goto_deadline (p : Phase) (s : State) : (goto p s).deadline = s.deadline := rfl
@[simp] theorem goto_loopCount (p : Phase) (s : State) : (goto p s).loopCount = s.loopCount := rfl
@[simp] theorem goto_idleCount (p : Phase) (s : State) : (goto p s).idleCount = s.idleCount := rfl
@[simp] theorem goto_perfT0 (p : Phase) (s : State) : (goto p s).perfT0 = s.perfT0 := rfl
@[simp] theorem goto_flag (p : Phase) (s : State) : (goto p s).flag = s.flag := rfl
@[simp] theorem goto_ien (p : Phase) (s : State) : (goto p s).ien = s.ien := rfl
@[simp] theorem goto_latch (p : Phase) (s : State) : (goto p s).latch = s.latch := rfl
@[simp] theorem goto_txPhase (p : Phase) (s : State) : (goto p s).txPhase = s.txPhase := rfl
@[simp] theorem goto_tb (p : Phase) (s : State) : (goto p s).tb = s.tb := rfl
@[simp] theorem goto_txLen (p : Phase) (s : State) : (goto p s).txLen = s.txLen := rfl
@[simp] theorem goto_txIdx (p : Phase) (s : State) : (goto p s).txIdx = s.txIdx := rfl
@[simp] theorem goto_nowUs (p : Phase) (s : State) : (goto p s).nowUs = s.nowUs := rfl
@[simp] theorem goto_trace (p : Phase) (s : State) : (goto p s).trace = s.trace := rfl
@[simp] theorem goto_dec (p : Phase) (s : State) : (goto p s).dec = s.dec := rfl
@[simp] theorem goto_encOut (p : Phase) (s : State) : (goto p s).encOut = s.encOut := rfl
@[simp] theorem goto_pending (p : Phase) (s : State) : (goto p s).pending = s.pending := rfl
@[simp] theorem goto_draws (p : Phase) (s : State) : (goto p s).draws = s.draws := rfl

/-! ### frameDone -/

@[simp] theorem frameDone_params (s : State) : (frameDone s).params = s.params := rfl
@[simp] theorem frameDone_mphase (s : State) : (frameDone s).mphase = 0#4 := rfl
@[simp] theorem frameDone_svcLine (s : State) : (frameDone s).svcLine = s.svcLine := rfl
@[simp] theorem frameDone_fsState (s : State) : (frameDone s).fsState = .seekStart := rfl
@[simp] theorem frameDone_fb (s : State) : (frameDone s).fb = [] := rfl
@[simp] theorem frameDone_flen (s : State) : (frameDone s).flen = 0#16 := rfl
@[simp] theorem frameDone_mb (s : State) : (frameDone s).mb = [] := rfl
@[simp] theorem frameDone_mlen (s : State) : (frameDone s).mlen = 0#16 := rfl
@[simp] theorem frameDone_dstat (s : State) : (frameDone s).dstat = s.dstat := rfl
@[simp] theorem frameDone_poLevel (s : State) : (frameDone s).poLevel = s.poLevel := rfl
@[simp] theorem frameDone_poInterval (s : State) : (frameDone s).poInterval = s.poInterval := rfl
@[simp] theorem frameDone_poPerf (s : State) : (frameDone s).poPerf = s.poPerf := rfl
@[simp] theorem frameDone_deadline (s : State) : (frameDone s).deadline = s.deadline := rfl
@[simp] theorem frameDone_loopCount (s : State) : (frameDone s).loopCount = s.loopCount := rfl
@[simp] theorem frameDone_idleCount (s : State) : (frameDone s).idleCount = s.idleCount := rfl
@[simp] theorem frameDone_perfT0 (s : State) : (frameDone s).perfT0 = s.perfT0 := rfl
@[simp] theorem frameDone_flag (s : State) : (frameDone s).flag = s.flag := rfl
@[simp] theorem frameDone_ien (s : State) : (frameDone s).ien = s.ien := rfl
@[simp] theorem frameDone_latch (s : State) : (frameDone s).latch = s.latch := rfl
@[simp] theorem frameDone_txPhase (s : State) : (frameDone s).txPhase = s.txPhase := rfl
@[simp] theorem frameDone_tb (s : State) : (frameDone s).tb = s.tb := rfl
@[simp] theorem frameDone_txLen (s : State) : (frameDone s).txLen = s.txLen := rfl
@[simp] theorem frameDone_txIdx (s : State) : (frameDone s).txIdx = s.txIdx := rfl
@[simp] theorem frameDone_nowUs (s : State) : (frameDone s).nowUs = s.nowUs := rfl
@[simp] theorem frameDone_trace (s : State) : (frameDone s).trace = s.trace := rfl
@[simp] theorem frameDone_dec (s : State) : (frameDone s).dec = s.dec := rfl
@[simp] theorem frameDone_encOut (s : State) : (frameDone s).encOut = s.encOut := rfl
@[simp] theorem frameDone_pending (s : State) : (frameDone s).pending = s.pending := rfl
@[simp] theorem frameDone_draws (s : State) : (frameDone s).draws = s.draws := rfl

/-! ### perfRestart -/

@[simp] theorem perfRestart_params (s : State) : (perfRestart s).params = s.params := rfl
@[simp] theorem perfRestart_mphase (s : State) : (perfRestart s).mphase = s.mphase := rfl
@[simp] theorem perfRestart_svcLine (s : State) : (perfRestart s).svcLine = s.svcLine := rfl
@[simp] theorem perfRestart_fsState (s : State) : (perfRestart s).fsState = s.fsState := rfl
@[simp] theorem perfRestart_fb (s : State) : (perfRestart s).fb = s.fb := rfl
@[simp] theorem perfRestart_flen (s : State) : (perfRestart s).flen = s.flen := rfl
@[simp] theorem perfRestart_mb (s : State) : (perfRestart s).mb = s.mb := rfl
@[simp] theorem perfRestart_mlen (s : State) : (perfRestart s).mlen = s.mlen := rfl
@[simp] theorem perfRestart_dstat (s : State) : (perfRestart s).dstat = s.dstat := rfl
@[simp] theorem perfRestart_poLevel (s : State) : (perfRestart s).poLevel = s.poLevel := rfl
@[simp] theorem perfRestart_poInterval (s : State) : (perfRestart s).poInterval = s.poInterval := rfl
@[simp] theorem perfRestart_poPerf (s : State) : (perfRestart s).poPerf = s.poPerf := rfl
@[simp] theorem perfRestart_deadline (s : State) : (perfRestart s).deadline = s.deadline := rfl
@[simp] theorem perfRestart_loopCount (s : State) : (perfRestart s).loopCount = 0#16 := rfl
@[simp] theorem perfRestart_idleCount (s : State) : (perfRestart s).idleCount = 0#16 := rfl
@[simp] theorem perfRestart_perfT0 (s : State) : (perfRestart s).perfT0 = s.nowUs := rfl
@[simp] theorem perfRestart_flag (s : State) : (perfRestart s).flag = s.flag := rfl
@[simp] theorem perfRestart_ien (s : State) : (perfRestart s).ien = s.ien := rfl
@[simp] theorem perfRestart_latch (s : State) : (perfRestart s).latch = s.latch := rfl
@[simp] theorem perfRestart_txPhase (s : State) : (perfRestart s).txPhase = s.txPhase := rfl
@[simp] theorem perfRestart_tb (s : State) : (perfRestart s).tb = s.tb := rfl
@[simp] theorem perfRestart_txLen (s : State) : (perfRestart s).txLen = s.txLen := rfl
@[simp] theorem perfRestart_txIdx (s : State) : (perfRestart s).txIdx = s.txIdx := rfl
@[simp] theorem perfRestart_nowUs (s : State) : (perfRestart s).nowUs = s.nowUs := rfl
@[simp] theorem perfRestart_trace (s : State) : (perfRestart s).trace = s.trace := rfl
@[simp] theorem perfRestart_dec (s : State) : (perfRestart s).dec = s.dec := rfl
@[simp] theorem perfRestart_encOut (s : State) : (perfRestart s).encOut = s.encOut := rfl
@[simp] theorem perfRestart_pending (s : State) : (perfRestart s).pending = s.pending := rfl
@[simp] theorem perfRestart_draws (s : State) : (perfRestart s).draws = s.draws := rfl

/-! ### setLatch -/

@[simp] theorem setLatch_params (l : Line) (b : Bool) (s : State) : (setLatch l b s).params = s.params := rfl
@[simp] theorem setLatch_mphase (l : Line) (b : Bool) (s : State) : (setLatch l b s).mphase = s.mphase := rfl
@[simp] theorem setLatch_svcLine (l : Line) (b : Bool) (s : State) : (setLatch l b s).svcLine = s.svcLine := rfl
@[simp] theorem setLatch_fsState (l : Line) (b : Bool) (s : State) : (setLatch l b s).fsState = s.fsState := rfl
@[simp] theorem setLatch_fb (l : Line) (b : Bool) (s : State) : (setLatch l b s).fb = s.fb := rfl
@[simp] theorem setLatch_flen (l : Line) (b : Bool) (s : State) : (setLatch l b s).flen = s.flen := rfl
@[simp] theorem setLatch_mb (l : Line) (b : Bool) (s : State) : (setLatch l b s).mb = s.mb := rfl
@[simp] theorem setLatch_mlen (l : Line) (b : Bool) (s : State) : (setLatch l b s).mlen = s.mlen := rfl
@[simp] theorem setLatch_dstat (l : Line) (b : Bool) (s : State) : (setLatch l b s).dstat = s.dstat := rfl
@[simp] theorem setLatch_poLevel (l : Line) (b : Bool) (s : State) : (setLatch l b s).poLevel = s.poLevel := rfl
@[simp] theorem setLatch_poInterval (l : Line) (b : Bool) (s : State) : (setLatch l b s).poInterval = s.poInterval := rfl
@[simp] theorem setLatch_poPerf (l : Line) (b : Bool) (s : State) : (setLatch l b s).poPerf = s.poPerf := rfl
@[simp] theorem setLatch_deadline (l : Line) (b : Bool) (s : State) : (setLatch l b s).deadline = s.deadline := rfl
@[simp] theorem setLatch_loopCount (l : Line) (b : Bool) (s : State) : (setLatch l b s).loopCount = s.loopCount := rfl
@[simp] theorem setLatch_idleCount (l : Line) (b : Bool) (s : State) : (setLatch l b s).idleCount = s.idleCount := rfl
@[simp] theorem setLatch_perfT0 (l : Line) (b : Bool) (s : State) : (setLatch l b s).perfT0 = s.perfT0 := rfl
@[simp] theorem setLatch_flag (l : Line) (b : Bool) (s : State) : (setLatch l b s).flag = s.flag := rfl
@[simp] theorem setLatch_ien (l : Line) (b : Bool) (s : State) : (setLatch l b s).ien = s.ien := rfl
@[simp] theorem setLatch_latch (l : Line) (b : Bool) (s : State) : (setLatch l b s).latch = s.latch.put l b := rfl
@[simp] theorem setLatch_txPhase (l : Line) (b : Bool) (s : State) : (setLatch l b s).txPhase = s.txPhase := rfl
@[simp] theorem setLatch_tb (l : Line) (b : Bool) (s : State) : (setLatch l b s).tb = s.tb := rfl
@[simp] theorem setLatch_txLen (l : Line) (b : Bool) (s : State) : (setLatch l b s).txLen = s.txLen := rfl
@[simp] theorem setLatch_txIdx (l : Line) (b : Bool) (s : State) : (setLatch l b s).txIdx = s.txIdx := rfl
@[simp] theorem setLatch_nowUs (l : Line) (b : Bool) (s : State) : (setLatch l b s).nowUs = s.nowUs := rfl
@[simp] theorem setLatch_trace (l : Line) (b : Bool) (s : State) : (setLatch l b s).trace = s.trace := rfl
@[simp] theorem setLatch_dec (l : Line) (b : Bool) (s : State) : (setLatch l b s).dec = s.dec := rfl
@[simp] theorem setLatch_encOut (l : Line) (b : Bool) (s : State) : (setLatch l b s).encOut = s.encOut := rfl
@[simp] theorem setLatch_pending (l : Line) (b : Bool) (s : State) : (setLatch l b s).pending = s.pending := rfl
@[simp] theorem setLatch_draws (l : Line) (b : Bool) (s : State) : (setLatch l b s).draws = s.draws := rfl

/-! ### setIen -/

@[simp] theorem setIen_params (l : Line) (b : Bool) (s : State) : (setIen l b s).params = s.params := rfl
@[simp] theorem setIen_mphase (l : Line) (b : Bool) (s : State) : (setIen l b s).mphase = s.mphase := rfl
@[simp] theorem setIen_svcLine (l : Line) (b : Bool) (s : State) : (setIen l b s).svcLine = s.svcLine := rfl
@[simp] theorem setIen_fsState (l : Line) (b : Bool) (s : State) : (setIen l b s).fsState = s.fsState := rfl
@[simp] theorem setIen_fb (l : Line) (b : Bool) (s : State) : (setIen l b s).fb = s.fb := rfl
@[simp] theorem setIen_flen (l : Line) (b : Bool) (s : State) : (setIen l b s).flen = s.flen := rfl
@[simp] theorem setIen_mb (l : Line) (b : Bool) (s : State) : (setIen l b s).mb = s.mb := rfl
@[simp] theorem setIen_mlen (l : Line) (b : Bool) (s : State) : (setIen l b s).mlen = s.mlen := rfl
@[simp] theorem setIen_dstat (l : Line) (b : Bool) (s : State) : (setIen l b s).dstat = s.dstat := rfl
@[simp] theorem setIen_poLevel (l : Line) (b : Bool) (s : State) : (setIen l b s).poLevel = s.poLevel := rfl
@[simp] theorem setIen_poInterval (l : Line) (b : Bool) (s : State) : (setIen l b s).poInterval = s.poInterval := rfl
@[simp] theorem setIen_poPerf (l : Line) (b : Bool) (s : State) : (setIen l b s).poPerf = s.poPerf := rfl
@[simp] theorem setIen_deadline (l : Line) (b : Bool) (s : State) : (setIen l b s).deadline = s.deadline := rfl
@[simp] theorem setIen_loopCount (l : Line) (b : Bool) (s : State) : (setIen l b s).loopCount = s.loopCount := rfl
@[simp] theorem setIen_idleCount (l : Line) (b : Bool) (s : State) : (setIen l b s).idleCount = s.idleCount := rfl
@[simp] theorem setIen_perfT0 (l : Line) (b : Bool) (s : State) : (setIen l b s).perfT0 = s.perfT0 := rfl
@[simp] theorem setIen_flag (l : Line) (b : Bool) (s : State) : (setIen l b s).flag = s.flag := rfl
@[simp] theorem setIen_ien (l : Line) (b : Bool) (s : State) : (setIen l b s).ien = s.ien.put l b := rfl
@[simp] theorem setIen_latch (l : Line) (b : Bool) (s : State) : (setIen l b s).latch = s.latch := rfl
@[simp] theorem setIen_txPhase (l : Line) (b : Bool) (s : State) : (setIen l b s).txPhase = s.txPhase := rfl
@[simp] theorem setIen_tb (l : Line) (b : Bool) (s : State) : (setIen l b s).tb = s.tb := rfl
@[simp] theorem setIen_txLen (l : Line) (b : Bool) (s : State) : (setIen l b s).txLen = s.txLen := rfl
@[simp] theorem setIen_txIdx (l : Line) (b : Bool) (s : State) : (setIen l b s).txIdx = s.txIdx := rfl
@[simp] theorem setIen_nowUs (l : Line) (b : Bool) (s : State) : (setIen l b s).nowUs = s.nowUs := rfl
@[simp] theorem setIen_trace (l : Line) (b : Bool) (s : State) : (setIen l b s).trace = s.trace := rfl
@[simp] theorem setIen_dec (l : Line) (b : Bool) (s : State) : (setIen l b s).dec = s.dec := rfl
@[simp] theorem setIen_encOut (l : Line) (b : Bool) (s : State) : (setIen l b s).encOut = s.encOut := rfl
@[simp] theorem setIen_pending (l : Line) (b : Bool) (s : State) : (setIen l b s).pending = s.pending := rfl
@[simp] theorem setIen_draws (l : Line) (b : Bool) (s : State) : (setIen l b s).draws = s.draws := rfl

/-! ### setFlag -/

@[simp] theorem setFlag_params (l : Line) (b : Bool) (s : State) : (setFlag l b s).params = s.params := rfl
@[simp] theorem setFlag_mphase (l : Line) (b : Bool) (s : State) : (setFlag l b s).mphase = s.mphase := rfl
@[simp] theorem setFlag_svcLine (l : Line) (b : Bool) (s : State) : (setFlag l b s).svcLine = s.svcLine := rfl
@[simp] theorem setFlag_fsState (l : Line) (b : Bool) (s : State) : (setFlag l b s).fsState = s.fsState := rfl
@[simp] theorem setFlag_fb (l : Line) (b : Bool) (s : State) : (setFlag l b s).fb = s.fb := rfl
@[simp] theorem setFlag_flen (l : Line) (b : Bool) (s : State) : (setFlag l b s).flen = s.flen := rfl
@[simp] theorem setFlag_mb (l : Line) (b : Bool) (s : State) : (setFlag l b s).mb = s.mb := rfl
@[simp] theorem setFlag_mlen (l : Line) (b : Bool) (s : State) : (setFlag l b s).mlen = s.mlen := rfl
@[simp] theorem setFlag_dstat (l : Line) (b : Bool) (s : State) : (setFlag l b s).dstat = s.dstat := rfl
@[simp] theorem setFlag_poLevel (l : Line) (b : Bool) (s : State) : (setFlag l b s).poLevel = s.poLevel := rfl
@[simp] theorem setFlag_poInterval (l : Line) (b : Bool) (s : State) : (setFlag l b s).poInterval = s.poInterval := rfl
@[simp] theorem setFlag_poPerf (l : Line) (b : Bool) (s : State) : (setFlag l b s).poPerf = s.poPerf := rfl
@[simp] theorem setFlag_deadline (l : Line) (b : Bool) (s : State) : (setFlag l b s).deadline = s.deadline := rfl
@[simp] theorem setFlag_loopCount (l : Line) (b : Bool) (s : State) : (setFlag l b s).loopCount = s.loopCount := rfl
@[simp] theorem setFlag_idleCount (l : Line) (b : Bool) (s : State) : (setFlag l b s).idleCount = s.idleCount := rfl
@[simp] theorem setFlag_perfT0 (l : Line) (b : Bool) (s : State) : (setFlag l b s).perfT0 = s.perfT0 := rfl
@[simp] theorem setFlag_flag (l : Line) (b : Bool) (s : State) : (setFlag l b s).flag = s.flag.put l b := rfl
@[simp] theorem setFlag_ien (l : Line) (b : Bool) (s : State) : (setFlag l b s).ien = s.ien := rfl
@[simp] theorem setFlag_latch (l : Line) (b : Bool) (s : State) : (setFlag l b s).latch = s.latch := rfl
@[simp] theorem setFlag_txPhase (l : Line) (b : Bool) (s : State) : (setFlag l b s).txPhase = s.txPhase := rfl
@[simp] theorem setFlag_tb (l : Line) (b : Bool) (s : State) : (setFlag l b s).tb = s.tb := rfl
@[simp] theorem setFlag_txLen (l : Line) (b : Bool) (s : State) : (setFlag l b s).txLen = s.txLen := rfl
@[simp] theorem setFlag_txIdx (l : Line) (b : Bool) (s : State) : (setFlag l b s).txIdx = s.txIdx := rfl
@[simp] theorem setFlag_nowUs (l : Line) (b : Bool) (s : State) : (setFlag l b s).nowUs = s.nowUs := rfl
@[simp] theorem setFlag_trace (l : Line) (b : Bool) (s : State) : (setFlag l b s).trace = s.trace := rfl
@[simp] theorem setFlag_dec (l : Line) (b : Bool) (s : State) : (setFlag l b s).dec = s.dec := rfl
@[simp] theorem setFlag_encOut (l : Line) (b : Bool) (s : State) : (setFlag l b s).encOut = s.encOut := rfl
@[simp] theorem setFlag_pending (l : Line) (b : Bool) (s : State) : (setFlag l b s).pending = s.pending := rfl
@[simp] theorem setFlag_draws (l : Line) (b : Bool) (s : State) : (setFlag l b s).draws = s.draws := rfl

/-! ### raise -/

@[simp] theorem raise_params (e : ErrorCode) (arg : Byte) (len : BitVec 16) (stat : BitVec 4) (s : State) : (raise e arg len stat s).params = s.params := rfl
@[simp] theorem raise_mphase (e : ErrorCode) (arg : Byte) (len : BitVec 16) (stat : BitVec 4) (s : State) : (raise e arg len stat s).mphase = s.mphase := rfl
@[simp] theorem raise_svcLine (e : ErrorCode) (arg : Byte) (len : BitVec 16) (stat : BitVec 4) (s : State) : (raise e arg len stat s).svcLine = s.svcLine := rfl
@[simp] theorem raise_fsState (e : ErrorCode) (arg : Byte) (len : BitVec 16) (stat : BitVec 4) (s : State) : (raise e arg len stat s).fsState = s.fsState := rfl
@[simp] theorem raise_fb (e : ErrorCode) (arg : Byte) (len : BitVec 16) (stat : BitVec 4) (s : State) : (raise e arg len stat s).fb = s.fb := rfl
@[simp] theorem raise_flen (e : ErrorCode) (arg : Byte) (len : BitVec 16) (stat : BitVec 4) (s : State) : (raise e arg len stat s).flen = s.flen := rfl
@[simp] theorem raise_mb (e : ErrorCode) (arg : Byte) (len : BitVec 16) (stat : BitVec 4) (s : State) : (raise e arg len stat s).mb = s.mb := rfl
@[simp] theorem raise_mlen (e : ErrorCode) (arg : Byte) (len : BitVec 16) (stat : BitVec 4) (s : State) : (raise e arg len stat s).mlen = s.mlen := rfl
@[simp] theorem raise_dstat (e : ErrorCode) (arg : Byte) (len : BitVec 16) (stat : BitVec 4) (s : State) : (raise e arg len stat s).dstat = s.dstat := rfl
@[simp] theorem raise_poLevel (e : ErrorCode) (arg : Byte) (len : BitVec 16) (stat : BitVec 4) (s : State) : (raise e arg len stat s).poLevel = s.poLevel := rfl
@[simp] theorem raise_poInterval (e : ErrorCode) (arg : Byte) (len : BitVec 16) (stat : BitVec 4) (s : State) : (raise e arg len stat s).poInterval = s.poInterval := rfl
@[simp] theorem raise_poPerf (e : ErrorCode) (arg : Byte) (len : BitVec 16) (stat : BitVec 4) (s : State) : (raise e arg len stat s).poPerf = s.poPerf := rfl
@[simp] theorem raise_deadline (e : ErrorCode) (arg : Byte) (len : BitVec 16) (stat : BitVec 4) (s : State) : (raise e arg len stat s).deadline = s.deadline := rfl
@[simp] theorem raise_loopCount (e : ErrorCode) (arg : Byte) (len : BitVec 16) (stat : BitVec 4) (s : State) : (raise e arg len stat s).loopCount = s.loopCount := rfl
@[simp] theorem raise_idleCount (e : ErrorCode) (arg : Byte) (len : BitVec 16) (stat : BitVec 4) (s : State) : (raise e arg len stat s).idleCount = s.idleCount := rfl
@[simp] theorem raise_perfT0 (e : ErrorCode) (arg : Byte) (len : BitVec 16) (stat : BitVec 4) (s : State) : (raise e arg len stat s).perfT0 = s.perfT0 := rfl
@[simp] theorem raise_flag (e : ErrorCode) (arg : Byte) (len : BitVec 16) (stat : BitVec 4) (s : State) : (raise e arg len stat s).flag = s.flag := rfl
@[simp] theorem raise_ien (e : ErrorCode) (arg : Byte) (len : BitVec 16) (stat : BitVec 4) (s : State) : (raise e arg len stat s).ien = s.ien := rfl
@[simp] theorem raise_latch (e : ErrorCode) (arg : Byte) (len : BitVec 16) (stat : BitVec 4) (s : State) : (raise e arg len stat s).latch = s.latch := rfl
@[simp] theorem raise_txPhase (e : ErrorCode) (arg : Byte) (len : BitVec 16) (stat : BitVec 4) (s : State) : (raise e arg len stat s).txPhase = s.txPhase := rfl
@[simp] theorem raise_tb (e : ErrorCode) (arg : Byte) (len : BitVec 16) (stat : BitVec 4) (s : State) : (raise e arg len stat s).tb = s.tb := rfl
@[simp] theorem raise_txLen (e : ErrorCode) (arg : Byte) (len : BitVec 16) (stat : BitVec 4) (s : State) : (raise e arg len stat s).txLen = s.txLen := rfl
@[simp] theorem raise_txIdx (e : ErrorCode) (arg : Byte) (len : BitVec 16) (stat : BitVec 4) (s : State) : (raise e arg len stat s).txIdx = s.txIdx := rfl
@[simp] theorem raise_nowUs (e : ErrorCode) (arg : Byte) (len : BitVec 16) (stat : BitVec 4) (s : State) : (raise e arg len stat s).nowUs = s.nowUs := rfl
@[simp] theorem raise_trace (e : ErrorCode) (arg : Byte) (len : BitVec 16) (stat : BitVec 4) (s : State) : (raise e arg len stat s).trace = s.trace ++ [.errReport e.bits arg len stat] := rfl
@[simp] theorem raise_dec (e : ErrorCode) (arg : Byte) (len : BitVec 16) (stat : BitVec 4) (s : State) : (raise e arg len stat s).dec = s.dec := rfl
@[simp] theorem raise_encOut (e : ErrorCode) (arg : Byte) (len : BitVec 16) (stat : BitVec 4) (s : State) : (raise e arg len stat s).encOut = s.encOut := rfl
@[simp] theorem raise_pending (e : ErrorCode) (arg : Byte) (len : BitVec 16) (stat : BitVec 4) (s : State) : (raise e arg len stat s).pending = s.pending := rfl
@[simp] theorem raise_draws (e : ErrorCode) (arg : Byte) (len : BitVec 16) (stat : BitVec 4) (s : State) : (raise e arg len stat s).draws = s.draws := rfl

/-! ### irqEntry -/

@[simp] theorem irqEntry_params (l : Line) (s : State) : (irqEntry l s).params = s.params := rfl
@[simp] theorem irqEntry_mphase (l : Line) (s : State) : (irqEntry l s).mphase = s.mphase := rfl
@[simp] theorem irqEntry_svcLine (l : Line) (s : State) : (irqEntry l s).svcLine = s.svcLine := rfl
@[simp] theorem irqEntry_fsState (l : Line) (s : State) : (irqEntry l s).fsState = s.fsState := rfl
@[simp] theorem irqEntry_fb (l : Line) (s : State) : (irqEntry l s).fb = s.fb := rfl
@[simp] theorem irqEntry_flen (l : Line) (s : State) : (irqEntry l s).flen = s.flen := rfl
@[simp] theorem irqEntry_mb (l : Line) (s : State) : (irqEntry l s).mb = s.mb := rfl
@[simp] theorem irqEntry_mlen (l : Line) (s : State) : (irqEntry l s).mlen = s.mlen := rfl
@[simp] theorem irqEntry_dstat (l : Line) (s : State) : (irqEntry l s).dstat = s.dstat := rfl
@[simp] theorem irqEntry_poLevel (l : Line) (s : State) : (irqEntry l s).poLevel = s.poLevel := rfl
@[simp] theorem irqEntry_poInterval (l : Line) (s : State) : (irqEntry l s).poInterval = s.poInterval := rfl
@[simp] theorem irqEntry_poPerf (l : Line) (s : State) : (irqEntry l s).poPerf = s.poPerf := rfl
@[simp] theorem irqEntry_deadline (l : Line) (s : State) : (irqEntry l s).deadline = s.deadline := rfl
@[simp] theorem irqEntry_loopCount (l : Line) (s : State) : (irqEntry l s).loopCount = s.loopCount := rfl
@[simp] theorem irqEntry_idleCount (l : Line) (s : State) : (irqEntry l s).idleCount = s.idleCount := rfl
@[simp] theorem irqEntry_perfT0 (l : Line) (s : State) : (irqEntry l s).perfT0 = s.perfT0 := rfl
@[simp] theorem irqEntry_flag (l : Line) (s : State) : (irqEntry l s).flag = s.flag.put l true := rfl
@[simp] theorem irqEntry_ien (l : Line) (s : State) : (irqEntry l s).ien = s.ien.put l false := rfl
@[simp] theorem irqEntry_latch (l : Line) (s : State) : (irqEntry l s).latch = s.latch.put l false := rfl
@[simp] theorem irqEntry_txPhase (l : Line) (s : State) : (irqEntry l s).txPhase = s.txPhase := rfl
@[simp] theorem irqEntry_tb (l : Line) (s : State) : (irqEntry l s).tb = s.tb := rfl
@[simp] theorem irqEntry_txLen (l : Line) (s : State) : (irqEntry l s).txLen = s.txLen := rfl
@[simp] theorem irqEntry_txIdx (l : Line) (s : State) : (irqEntry l s).txIdx = s.txIdx := rfl
@[simp] theorem irqEntry_nowUs (l : Line) (s : State) : (irqEntry l s).nowUs = s.nowUs := rfl
@[simp] theorem irqEntry_trace (l : Line) (s : State) : (irqEntry l s).trace = s.trace := rfl
@[simp] theorem irqEntry_dec (l : Line) (s : State) : (irqEntry l s).dec = s.dec := rfl
@[simp] theorem irqEntry_encOut (l : Line) (s : State) : (irqEntry l s).encOut = s.encOut := rfl
@[simp] theorem irqEntry_pending (l : Line) (s : State) : (irqEntry l s).pending = s.pending := rfl
@[simp] theorem irqEntry_draws (l : Line) (s : State) : (irqEntry l s).draws = s.draws := rfl

/-! ### withBuffer -/

@[simp] theorem withBuffer_params (s : State) (sp : Space) (m : Memory) : (s.withBuffer sp m).params = s.params := by cases sp <;> rfl
@[simp] theorem withBuffer_mphase (s : State) (sp : Space) (m : Memory) : (s.withBuffer sp m).mphase = s.mphase := by cases sp <;> rfl
@[simp] theorem withBuffer_svcLine (s : State) (sp : Space) (m : Memory) : (s.withBuffer sp m).svcLine = s.svcLine := by cases sp <;> rfl
@[simp] theorem withBuffer_fsState (s : State) (sp : Space) (m : Memory) : (s.withBuffer sp m).fsState = s.fsState := by cases sp <;> rfl
@[simp] theorem withBuffer_flen (s : State) (sp : Space) (m : Memory) : (s.withBuffer sp m).flen = s.flen := by cases sp <;> rfl
@[simp] theorem withBuffer_mlen (s : State) (sp : Space) (m : Memory) : (s.withBuffer sp m).mlen = s.mlen := by cases sp <;> rfl
@[simp] theorem withBuffer_dstat (s : State) (sp : Space) (m : Memory) : (s.withBuffer sp m).dstat = s.dstat := by cases sp <;> rfl
@[simp] theorem withBuffer_poLevel (s : State) (sp : Space) (m : Memory) : (s.withBuffer sp m).poLevel = s.poLevel := by cases sp <;> rfl
@[simp] theorem withBuffer_poInterval (s : State) (sp : Space) (m : Memory) : (s.withBuffer sp m).poInterval = s.poInterval := by cases sp <;> rfl
@[simp] theorem withBuffer_poPerf (s : State) (sp : Space) (m : Memory) : (s.withBuffer sp m).poPerf = s.poPerf := by cases sp <;> rfl
@[simp] theorem withBuffer_deadline (s : State) (sp : Space) (m : Memory) : (s.withBuffer sp m).deadline = s.deadline := by cases sp <;> rfl
@[simp] theorem withBuffer_loopCount (s : State) (sp : Space) (m : Memory) : (s.withBuffer sp m).loopCount = s.loopCount := by cases sp <;> rfl
@[simp] theorem withBuffer_idleCount (s : State) (sp : Space) (m : Memory) : (s.withBuffer sp m).idleCount = s.idleCount := by cases sp <;> rfl
@[simp] theorem withBuffer_perfT0 (s : State) (sp : Space) (m : Memory) : (s.withBuffer sp m).perfT0 = s.perfT0 := by cases sp <;> rfl
@[simp] theorem withBuffer_flag (s : State) (sp : Space) (m : Memory) : (s.withBuffer sp m).flag = s.flag := by cases sp <;> rfl
@[simp] theorem withBuffer_ien (s : State) (sp : Space) (m : Memory) : (s.withBuffer sp m).ien = s.ien := by cases sp <;> rfl
@[simp] theorem withBuffer_latch (s : State) (sp : Space) (m : Memory) : (s.withBuffer sp m).latch = s.latch := by cases sp <;> rfl
@[simp] theorem withBuffer_txPhase (s : State) (sp : Space) (m : Memory) : (s.withBuffer sp m).txPhase = s.txPhase := by cases sp <;> rfl
@[simp] theorem withBuffer_txLen (s : State) (sp : Space) (m : Memory) : (s.withBuffer sp m).txLen = s.txLen := by cases sp <;> rfl
@[simp] theorem withBuffer_txIdx (s : State) (sp : Space) (m : Memory) : (s.withBuffer sp m).txIdx = s.txIdx := by cases sp <;> rfl
@[simp] theorem withBuffer_nowUs (s : State) (sp : Space) (m : Memory) : (s.withBuffer sp m).nowUs = s.nowUs := by cases sp <;> rfl
@[simp] theorem withBuffer_trace (s : State) (sp : Space) (m : Memory) : (s.withBuffer sp m).trace = s.trace := by cases sp <;> rfl
@[simp] theorem withBuffer_dec (s : State) (sp : Space) (m : Memory) : (s.withBuffer sp m).dec = s.dec := by cases sp <;> rfl
@[simp] theorem withBuffer_encOut (s : State) (sp : Space) (m : Memory) : (s.withBuffer sp m).encOut = s.encOut := by cases sp <;> rfl
@[simp] theorem withBuffer_pending (s : State) (sp : Space) (m : Memory) : (s.withBuffer sp m).pending = s.pending := by cases sp <;> rfl
@[simp] theorem withBuffer_draws (s : State) (sp : Space) (m : Memory) : (s.withBuffer sp m).draws = s.draws := by cases sp <;> rfl
@[simp] theorem withBuffer_fb_fb (s : State) (m : Memory) : (s.withBuffer .fb m).fb = m := rfl
@[simp] theorem withBuffer_fb_mb (s : State) (m : Memory) : (s.withBuffer .fb m).mb = s.mb := rfl
@[simp] theorem withBuffer_fb_tb (s : State) (m : Memory) : (s.withBuffer .fb m).tb = s.tb := rfl
@[simp] theorem withBuffer_mb_fb (s : State) (m : Memory) : (s.withBuffer .mb m).fb = s.fb := rfl
@[simp] theorem withBuffer_mb_mb (s : State) (m : Memory) : (s.withBuffer .mb m).mb = m := rfl
@[simp] theorem withBuffer_mb_tb (s : State) (m : Memory) : (s.withBuffer .mb m).tb = s.tb := rfl
@[simp] theorem withBuffer_tb_fb (s : State) (m : Memory) : (s.withBuffer .tb m).fb = s.fb := rfl
@[simp] theorem withBuffer_tb_mb (s : State) (m : Memory) : (s.withBuffer .tb m).mb = s.mb := rfl
@[simp] theorem withBuffer_tb_tb (s : State) (m : Memory) : (s.withBuffer .tb m).tb = m := rfl

@[simp] theorem withBuffer_buffer (s : State) (sp : Space) (m : Memory) : (s.withBuffer sp m).buffer sp = m := by
  cases sp <;> rfl

theorem withBuffer_buffer_other (s : State) (sp sp' : Space) (m : Memory) (h : sp' ≠ sp) :
    (s.withBuffer sp m).buffer sp' = s.buffer sp' := by
  cases sp <;> cases sp' <;> first | rfl | exact absurd rfl h

@[simp] theorem withBuffer_size (s : State) (sp sp' : Space) (m : Memory) : (s.withBuffer sp m).size sp' = s.size sp' := by
  cases sp <;> cases sp' <;> rfl

@[simp] theorem withBuffer_fill (s : State) (sp sp' : Space) (m : Memory) : (s.withBuffer sp m).fill sp' = s.fill sp' := by
  cases sp <;> cases sp' <;> rfl

@[simp] theorem withBuffer_withBuffer (s : State) (sp : Space) (m m' : Memory) :
    (s.withBuffer sp m).withBuffer sp m' = s.withBuffer sp m' := by
  cases sp <;> rfl

@[simp] theorem withBuffer_self (s : State) (sp : Space) : s.withBuffer sp (s.buffer sp) = s := by
  cases sp <;> rfl

/-! ### Line bits -/

@[simp] theorem LineBits.get_put_same (v : LineBits) (l : Line) (b : Bool) : (v.put l b).get l = b := by
  cases l <;> rfl

theorem LineBits.get_put_other (v : LineBits) (l l' : Line) (b : Bool) (h : l' ≠ l) :
    (v.put l b).get l' = v.get l' := by
  cases l <;> cases l' <;> first | rfl | exact absurd rfl h

/-! ### Phases -/

@[simp] theorem Phase.ofBits_bits (p : Phase) : Phase.ofBits p.bits = some p := by cases p <;> rfl

theorem Phase.bits_of_ofBits (v : BitVec 4) (p : Phase) (h : Phase.ofBits v = some p) : v = p.bits := by
  revert v p; decide

theorem Phase.ofBits_none_iff (v : BitVec 4) : Phase.ofBits v = none ↔ 8#4 < v := by
  revert v; decide

theorem Phase.bits_injective (p q : Phase) (h : p.bits = q.bits) : p = q := by
  cases p <;> cases q <;> first | rfl | exact absurd h (by decide)

end Sys2Proof.Machine
end

