-- ==== Sys2Proof/Laws/Memory.lean ====
section
/-! SUPPORT. The buffers: a read after a write, and the canonical form that every write keeps. -/

namespace Sys2Proof.Machine

theorem Memory.read_nil (a : Nat) : Memory.read [] a = none := rfl

theorem Memory.read_write_same (m : Memory) (a : Nat) (b : Byte) : (m.write a b).read a = some b := by
  induction m with
  | nil => simp [Memory.write, Memory.read]
  | cons c r ih =>
    obtain ⟨k, v⟩ := c
    unfold Memory.write
    split
    · simp [Memory.read]
    · split
      · simp [Memory.read]
      · rename_i h1 h2
        simp [Memory.read, h2, ih]

theorem Memory.read_write_other (m : Memory) (a a' : Nat) (b : Byte) (h : a' ≠ a) :
    (m.write a b).read a' = m.read a' := by
  induction m with
  | nil => simp [Memory.write, Memory.read, h]
  | cons c r ih =>
    obtain ⟨k, v⟩ := c
    unfold Memory.write
    split
    · simp [Memory.read, h]
    · split
      · rename_i h1 h2
        subst h2
        simp [Memory.read, h]
      · simp [Memory.read, ih]

theorem Memory.read_write (m : Memory) (a a' : Nat) (b : Byte) :
    (m.write a b).read a' = if a' = a then some b else m.read a' := by
  split
  · rename_i h
    rw [h, Memory.read_write_same]
  · rename_i h
    exact Memory.read_write_other m a a' b h

/-- The cells of a buffer after a write: the new one and some of the old ones. -/
theorem Memory.mem_write (m : Memory) (a : Nat) (b : Byte) (c : Host.Cell) (h : c ∈ m.write a b) :
    c = (a, b) ∨ c ∈ m := by
  induction m with
  | nil => simpa [Memory.write] using h
  | cons d r ih =>
    obtain ⟨k, v⟩ := d
    unfold Memory.write at h
    split at h
    · simpa using h
    · split at h
      · rcases List.mem_cons.1 h with h | h
        · exact .inl h
        · exact .inr (List.mem_cons_of_mem _ h)
      · rcases List.mem_cons.1 h with h | h
        · exact .inr (h ▸ List.mem_cons_self)
        · rcases ih h with h | h
          · exact .inl h
          · exact .inr (List.mem_cons_of_mem _ h)

theorem Memory.wf_nil : Memory.wf [] := List.Pairwise.nil

theorem Memory.wf_write (m : Memory) (a : Nat) (b : Byte) (h : m.wf) : (m.write a b).wf := by
  induction m with
  | nil => exact List.pairwise_singleton _ _
  | cons c r ih =>
    obtain ⟨k, v⟩ := c
    obtain ⟨h1, h2⟩ := List.pairwise_cons.1 h
    unfold Memory.write
    split
    · rename_i hlt
      refine List.pairwise_cons.2 ⟨?_, h⟩
      intro d hd
      rcases List.mem_cons.1 hd with hd | hd
      · subst hd; exact hlt
      · exact Nat.lt_trans hlt (h1 d hd)
    · split
      · rename_i heq
        subst heq
        exact List.pairwise_cons.2 ⟨h1, h2⟩
      · refine List.pairwise_cons.2 ⟨?_, ih h2⟩
        intro d hd
        rcases Memory.mem_write r a b d hd with hd | hd
        · subst hd; simp only; omega
        · exact h1 d hd

theorem Memory.within_nil (n : Nat) : Memory.within [] n := by intro c hc; cases hc

theorem Memory.within_write (m : Memory) (a n : Nat) (b : Byte) (h : m.within n) (ha : a < n) :
    (m.write a b).within n := by
  intro c hc
  rcases Memory.mem_write m a b c hc with hc | hc
  · subst hc; exact ha
  · exact h c hc

theorem Memory.holds_nil (m : Memory) : m.holds [] := by intro k hk; cases hk

/-- A buffer that holds a list reads each of its bytes. -/
theorem Memory.holds_read (m : Memory) (bs : List Byte) (h : m.holds bs) (k : Nat) (hk : k < bs.length) :
    m.read k = some bs[k] := by
  rw [h k hk, List.getElem?_eq_getElem hk]

theorem Memory.holds_filled (m : Memory) (bs : List Byte) (h : m.holds bs) : m.filled bs.length := by
  intro k hk
  rw [Memory.holds_read m bs h k hk]
  rfl

theorem Memory.holds_mapIdx (bs : List Byte) : Memory.holds (bs.mapIdx (fun i b => (i, b))) bs := by
  intro k hk
  suffices h : ∀ (bs : List Byte) (n k : Nat), k < bs.length →
      Memory.read (bs.mapIdx (fun i b => (i + n, b))) (k + n) = bs[k]? by
    simpa using h bs 0 k hk
  intro bs
  induction bs with
  | nil => intro n k hk; simp at hk
  | cons b r ih =>
    intro n k hk
    rw [List.mapIdx_cons]
    cases k with
    | zero => simp [Memory.read]
    | succ k =>
      have := ih (n + 1) k (by simpa using hk)
      simp only [Memory.read]
      rw [if_neg (by omega)]
      rw [show k + 1 + n = k + (n + 1) by omega]
      rw [show (fun i b => (i + 1 + n, b) : Nat → Byte → Nat × Byte) = (fun i b => (i + (n + 1), b)) by
        funext i b; congr 1; omega]
      rw [this]
      rfl

/-- The reset state's buffers have the canonical form. -/
theorem reset_buffers_wf : State.reset.fb.wf ∧ State.reset.mb.wf ∧ State.reset.tb.wf :=
  ⟨Memory.wf_nil, Memory.wf_nil, Memory.wf_nil⟩

end Sys2Proof.Machine
end

