-- ==== Sys2Proof/Laws/Ops.lean ====
section
/-! SUPPORT. What each shared operation can do, said once: what it answers and when. -/

namespace Sys2Proof.Machine

/-! ### Sequencing -/

@[simp] theorem andThen_next (s : State) (k : State → Out) : andThen (.next s) k = k s := rfl

@[simp] theorem andThen_fault (r : Fault) (k : State → Out) : andThen (.fault r) k = .fault r := rfl

@[simp] theorem andThen_refused (r : Refusal) (k : State → Out) : andThen (.refused r) k = .refused r := rfl

/-- `andThen` answers a next state only through a next state of its first part. -/
theorem andThen_eq_next (o : Out) (k : State → Out) (t : State) (h : andThen o k = .next t) :
    ∃ s, o = .next s ∧ k s = .next t := by
  cases o with
  | next s => exact ⟨s, rfl, h⟩
  | fault r => cases h
  | refused r => cases h

/-- `andThen` refuses only where one of its parts does. -/
theorem andThen_eq_refused (o : Out) (k : State → Out) (r : Refusal) (h : andThen o k = .refused r) :
    o = .refused r ∨ ∃ s, o = .next s ∧ k s = .refused r := by
  cases o with
  | next s => exact .inr ⟨s, rfl, h⟩
  | fault f => cases h
  | refused q => exact .inl h

theorem inPhase_enabled (p : Phase) (s : State) (k : Out) (h : s.mphase = p.bits) : inPhase p s k = k := by
  simp [inPhase, h]

theorem inPhase_waits (p q : Phase) (s : State) (k : Out) (h : s.mphase = q.bits) (hq : q ≠ p) :
    inPhase p s k = .next s := by
  simp [inPhase, h, hq]

theorem inPhase_illegal (p : Phase) (s : State) (k : Out) (h : 8#4 < s.mphase) :
    inPhase p s k = .fault (.illegalPhase s.mphase) := by
  simp [inPhase, (Phase.ofBits_none_iff s.mphase).2 h]

/-- A MAIN operation answers a next state either in its phase, or unchanged in another one. -/
theorem inPhase_eq_next (p : Phase) (s t : State) (k : Out) (h : inPhase p s k = .next t) :
    (s.mphase = p.bits ∧ k = .next t) ∨ (s.mphase ≠ p.bits ∧ t = s) := by
  unfold inPhase at h
  split at h
  · cases h
  · rename_i q hq
    have hb := Phase.bits_of_ofBits _ _ hq
    split at h
    · rename_i e
      exact .inl ⟨by rw [hb, e], h⟩
    · rename_i e
      refine .inr ⟨?_, by cases h; rfl⟩
      rw [hb]
      exact fun he => e (Phase.bits_injective _ _ he)

/-! ### Reading -/

/-- A read inside the fill count of a byte that holds a value. -/
theorem memRead_ok (sp : Space) (i : Nat) (s : State) (b : Byte) (h : i < s.fill sp) (hb : (s.buffer sp).read i = some b) :
    memRead sp i s = .ok b := by
  simp [memRead, h, hb]

theorem memRead_eq_ok (sp : Space) (i : Nat) (s : State) (b : Byte) (h : memRead sp i s = .ok b) :
    i < s.fill sp ∧ (s.buffer sp).read i = some b := by
  unfold memRead at h
  split at h
  · rename_i hi
    split at h
    · rename_i c hc
      cases h
      exact ⟨hi, hc⟩
    · cases h
  · cases h

/-- `n` bytes from `i` on are read when all of them lie inside the fill count and hold values. -/
theorem readFrom_ok (sp : Space) (s : State) (bs : List Byte) (i : Nat) (hf : i + bs.length ≤ s.fill sp)
    (hb : ∀ k, k < bs.length → (s.buffer sp).read (i + k) = bs[k]?) :
    readFrom sp s i bs.length = .ok bs := by
  induction bs generalizing i with
  | nil => rfl
  | cons b r ih =>
    have h0 : (s.buffer sp).read i = some b := by simpa using hb 0 (by simp)
    have hr : readFrom sp s (i + 1) r.length = .ok r := by
      refine ih (i + 1) (by simp only [List.length_cons] at hf; omega) (fun k hk => ?_)
      have := hb (k + 1) (by simpa using hk)
      rw [show i + 1 + k = i + (k + 1) by omega, this]
      rfl
    simp only [List.length_cons, readFrom]
    rw [memRead_ok sp i s b (by simp only [List.length_cons] at hf; omega) h0]
    simp only [hr]

/-- The bytes a successful read gives. -/
theorem readFrom_eq_ok (sp : Space) (s : State) (n i : Nat) (bs : List Byte) (h : readFrom sp s i n = .ok bs) :
    bs.length = n ∧ ∀ k, k < n → (s.buffer sp).read (i + k) = bs[k]? := by
  induction n generalizing i bs with
  | zero =>
    cases h
    exact ⟨rfl, fun k hk => absurd hk (Nat.not_lt_zero k)⟩
  | succ n ih =>
    unfold readFrom at h
    split at h
    · cases h
    · rename_i b hb
      split at h
      · cases h
      · rename_i r hr
        cases h
        obtain ⟨hl, hk⟩ := ih (i + 1) r hr
        refine ⟨by simp [hl], fun k hkn => ?_⟩
        cases k with
        | zero => simpa using (memRead_eq_ok sp i s b hb).2
        | succ k =>
          rw [show i + (k + 1) = i + 1 + k by omega, hk k (by omega)]
          rfl

/-- The whole of a buffer is read when it holds `bs` and its fill count is their number. -/
theorem readAll_ok (sp : Space) (s : State) (bs : List Byte) (hf : s.fill sp = bs.length) (hb : (s.buffer sp).holds bs) :
    readAll sp s = .ok bs := by
  unfold readAll
  rw [hf]
  exact readFrom_ok sp s bs 0 (by omega) (fun k hk => by simpa using hb k hk)

theorem readAll_eq_ok (sp : Space) (s : State) (bs : List Byte) (h : readAll sp s = .ok bs) :
    bs.length = s.fill sp ∧ (s.buffer sp).holds bs := by
  obtain ⟨hl, hk⟩ := readFrom_eq_ok sp s (s.fill sp) 0 bs h
  exact ⟨hl, fun k hkl => by simpa using hk k (by omega)⟩

/-- A buffer whose bytes below the fill count all hold values is read whole. -/
theorem readAll_filled (sp : Space) (s : State) (h : (s.buffer sp).filled (s.fill sp)) :
    ∃ bs, readAll sp s = .ok bs := by
  suffices hh : ∀ n i, i + n ≤ s.fill sp → ∃ bs, readFrom sp s i n = .ok bs by
    exact hh _ 0 (by omega)
  intro n
  induction n with
  | zero => intro i _; exact ⟨[], rfl⟩
  | succ n ih =>
    intro i hi
    obtain ⟨b, hb⟩ := Option.isSome_iff_exists.1 (h i (by omega))
    obtain ⟨bs, hbs⟩ := ih (i + 1) (by omega)
    refine ⟨b :: bs, ?_⟩
    unfold readFrom
    rw [memRead_ok sp i s b (by omega) hb]
    simp only [hbs]

/-! ### Writing -/

theorem memWrite_next (sp : Space) (i : Nat) (b : Byte) (s : State) (h : i < s.size sp) :
    memWrite sp i b s = .next (s.withBuffer sp ((s.buffer sp).write i b)) := by
  simp [memWrite, h]

theorem memWrite_eq_next (sp : Space) (i : Nat) (b : Byte) (s t : State) (h : memWrite sp i b s = .next t) :
    i < s.size sp ∧ t = s.withBuffer sp ((s.buffer sp).write i b) := by
  unfold memWrite at h
  split at h
  · rename_i hi
    cases h
    exact ⟨hi, rfl⟩
  · cases h

/-- The buffer after bytes are written from index `i` on. -/
def writeBytes (m : Memory) : Nat → List Byte → Memory
  | _, [] => m
  | i, b :: bs => writeBytes (m.write i b) (i + 1) bs

theorem read_writeBytes (bs : List Byte) (m : Memory) (i a : Nat) :
    (writeBytes m i bs).read a = if i ≤ a ∧ a < i + bs.length then bs[a - i]? else m.read a := by
  induction bs generalizing m i with
  | nil => simp [writeBytes]
  | cons b r ih =>
    rw [writeBytes, ih, Memory.read_write]
    by_cases h1 : i + 1 ≤ a ∧ a < i + 1 + r.length
    · rw [if_pos h1, if_pos (by simp only [List.length_cons]; omega)]
      rw [show a - i = (a - (i + 1)) + 1 by omega]
      rfl
    · rw [if_neg h1]
      by_cases h2 : a = i
      · subst h2
        rw [if_pos rfl, if_pos (by simp)]
        simp
      · rw [if_neg h2, if_neg (by simp only [List.length_cons]; omega)]

theorem wf_writeBytes (bs : List Byte) (m : Memory) (i : Nat) (h : m.wf) : (writeBytes m i bs).wf := by
  induction bs generalizing m i with
  | nil => exact h
  | cons b r ih => exact ih _ _ (Memory.wf_write m i b h)

theorem within_writeBytes (bs : List Byte) (m : Memory) (i n : Nat) (h : m.within n) (hi : i + bs.length ≤ n) :
    (writeBytes m i bs).within n := by
  induction bs generalizing m i with
  | nil => exact h
  | cons b r ih =>
    simp only [List.length_cons] at hi
    exact ih _ _ (Memory.within_write m i n b h (by omega)) (by omega)

theorem holds_writeBytes (bs : List Byte) (m : Memory) : (writeBytes m 0 bs).holds bs := by
  intro k hk
  rw [read_writeBytes]
  simp [hk]

/-- Bytes that fit are all written. -/
theorem writeFrom_next (sp : Space) (bs : List Byte) (i : Nat) (s : State) (h : i + bs.length ≤ s.size sp) :
    writeFrom sp i bs s = .next (s.withBuffer sp (writeBytes (s.buffer sp) i bs)) := by
  induction bs generalizing i s with
  | nil => simp [writeFrom, writeBytes]
  | cons b r ih =>
    simp only [List.length_cons] at h
    rw [writeFrom, memWrite_next sp i b s (by omega), andThen_next, ih]
    · simp [writeBytes]
    · simp; omega

/-- A write that answers a next state changed its own buffer only, by exactly its bytes. -/
theorem writeFrom_eq_next (sp : Space) (bs : List Byte) (i : Nat) (s t : State) (h : writeFrom sp i bs s = .next t) :
    t = s.withBuffer sp (writeBytes (s.buffer sp) i bs) ∧ (bs ≠ [] → i + bs.length ≤ s.size sp) := by
  induction bs generalizing i s with
  | nil =>
    cases h
    simp [writeBytes]
  | cons b r ih =>
    obtain ⟨u, hu, hk⟩ := andThen_eq_next _ _ _ h
    obtain ⟨hi, rfl⟩ := memWrite_eq_next sp i b s u hu
    obtain ⟨ht, hl⟩ := ih _ _ hk
    refine ⟨by simpa [writeBytes] using ht, fun _ => ?_⟩
    by_cases hr : r = []
    · subst hr; simp; omega
    · have := hl hr
      simp at this ⊢
      omega

/-- A write never refuses. -/
theorem writeFrom_ne_refused (sp : Space) (bs : List Byte) (i : Nat) (s : State) (r : Refusal) :
    writeFrom sp i bs s ≠ .refused r := by
  induction bs generalizing i s with
  | nil => intro h; cases h
  | cons b bs ih =>
    intro h
    rcases andThen_eq_refused _ _ _ h with h | ⟨u, _, h⟩
    · unfold memWrite at h
      split at h <;> cases h
    · exact ih _ _ h

end Sys2Proof.Machine
end

