-- ==== Sys2Proof/Laws/Codec.lean ====
section
/-! SUPPORT. The codec: what each operation of DEC keeps, and the encoder as a recursion over blocks. -/

namespace Sys2Proof.Machine

/-! ### The decoder's operations -/

@[simp] theorem decCopy_cap (n : Nat) (w : DecWork) : (decCopy n w).cap = w.cap := rfl

@[simp] theorem decCopy_ended (n : Nat) (w : DecWork) : (decCopy n w).ended = w.ended := rfl

theorem decCopy_dst (n : Nat) (w : DecWork) :
    (decCopy n w).dst = w.dst ++ w.rest.take (min (min n w.rest.length) (w.cap - w.dst.length)) := rfl

theorem decCopy_rest (n : Nat) (w : DecWork) :
    (decCopy n w).rest = w.rest.drop (min (min n w.rest.length) (w.cap - w.dst.length)) := rfl

/-- Copying never exceeds the output capacity. -/
theorem decCopy_dst_le (n : Nat) (w : DecWork) (h : w.dst.length ≤ w.cap) : (decCopy n w).dst.length ≤ w.cap := by
  rw [decCopy_dst, List.length_append, List.length_take]
  omega

@[simp] theorem decAfter_cap (z : Bool) (w : DecWork) : (decAfter z w).cap = w.cap := by
  unfold decAfter
  split
  · rfl
  · split
    · split <;> rfl
    · rfl

theorem decAfter_dst_le (z : Bool) (w : DecWork) (h : w.dst.length ≤ w.cap) : (decAfter z w).dst.length ≤ w.cap := by
  unfold decAfter
  split
  · exact h
  · split
    · split
      · exact h
      · simp only [List.length_append, List.length_singleton]
        omega
    · exact h

/-- A pass of the decoder keeps its capacity and stays within it. -/
theorem decPass_within (c : Byte) (w : DecWork) (h : w.dst.length ≤ w.cap) :
    (decPass c w).cap = w.cap ∧ (decPass c w).dst.length ≤ w.cap := by
  unfold decPass
  cases decodeCode c with
  | zero => exact ⟨rfl, h⟩
  | full => exact ⟨by simp [decFull], by simpa [decFull] using decAfter_dst_le false _ (decCopy_dst_le 254 w h)⟩
  | run c => exact ⟨by simp [decRun], by simpa [decRun] using decAfter_dst_le true _ (decCopy_dst_le (c.toNat - 1) w h)⟩

theorem decLoop_within (n : Nat) (w : DecWork) (h : w.dst.length ≤ w.cap) :
    (decLoop n w).cap = w.cap ∧ (decLoop n w).dst.length ≤ w.cap := by
  induction n generalizing w with
  | zero => exact ⟨rfl, h⟩
  | succ n ih =>
    unfold decLoop
    split
    · exact ⟨rfl, h⟩
    · split
      · exact ⟨rfl, h⟩
      · rename_i c r _
        obtain ⟨hc, hd⟩ := decPass_within c { w with rest := r } h
        obtain ⟨h1, h2⟩ := ih (decPass c { w with rest := r }) (by rw [hc]; exact hd)
        exact ⟨h1.trans hc, Nat.le_trans h2 (Nat.le_of_eq hc)⟩

/-- `Decode` never gives more than the output capacity. -/
theorem decodeFn_length_le (src : List Byte) (cap : Nat) : (decodeFn src cap).1.length ≤ cap :=
  (decLoop_within (src.length + 1) (decStart src cap) (Nat.zero_le cap)).2

/-! ### The encoder by blocks -/

/-- The blocks still to come: `run` is the data of the open block (R83, R120). -/
def encodeFrom (run : List Byte) : List Byte → List Byte
  | [] => BitVec.ofNat 8 (run.length + 1) :: run
  | b :: bs =>
      if b = 0#8 then BitVec.ofNat 8 (run.length + 1) :: run ++ encodeFrom [] bs
      else if run.length + 1 = 254 ∧ bs ≠ [] then 0xFF#8 :: (run ++ [b]) ++ encodeFrom [] bs
      else encodeFrom (run ++ [b]) bs

/-- The encoder's variables with `closed` behind and `run` in the open block. -/
def encAt (closed run : List Byte) : EncWork :=
  ⟨closed ++ 0x00#8 :: run, closed.length, BitVec.ofNat 8 (run.length + 1)⟩

theorem encClose_encAt (closed run : List Byte) :
    encClose (encAt closed run) = encAt (closed ++ BitVec.ofNat 8 (run.length + 1) :: run) [] := by
  simp [encClose, encAt]

theorem encAt_append (closed run : List Byte) (b : Byte) :
    (⟨(encAt closed run).out ++ [b], (encAt closed run).cp, BitVec.ofNat 8 (run.length + 2)⟩ : EncWork)
      = encAt closed (run ++ [b]) := by
  simp [encAt]

/-- One byte of the source: a zero closes the open block, and so does the 254th byte of a run that goes on. -/
theorem encByte_encAt (last : Bool) (closed run : List Byte) (b : Byte) (h : run.length < 254) :
    encByte last (encAt closed run) b =
      if b = 0#8 then encAt (closed ++ BitVec.ofNat 8 (run.length + 1) :: run) []
      else if run.length + 1 = 254 ∧ last = false then encAt (closed ++ 0xFF#8 :: (run ++ [b])) []
      else encAt closed (run ++ [b]) := by
  unfold encByte
  by_cases hb : b = 0#8
  · simp only [hb, if_true, encClose_encAt]
  · simp only [hb, if_false]
    have hcode : (encAt closed run).code + 1#8 = BitVec.ofNat 8 (run.length + 2) := by
      simp [encAt, ← BitVec.ofNat_add]
    simp only [hcode, encAt_append]
    by_cases hfull : run.length + 1 = 254
    · have : BitVec.ofNat 8 (run.length + 2) = 0xFF#8 := by rw [show run.length + 2 = 255 by omega]
      cases last <;> simp [this, hfull, encClose_encAt]
    · have : BitVec.ofNat 8 (run.length + 2) ≠ 0xFF#8 := by
        intro he
        have := congrArg BitVec.toNat he
        simp only [BitVec.toNat_ofNat] at this
        omega
      simp [this, hfull]

/-- The open block never holds more than 254 bytes, and holds 254 only when no byte is left. -/
theorem encLoop_encAt (src closed run : List Byte) (h : run.length < 254 ∨ (run.length = 254 ∧ src = [])) :
    (encLoop (encAt closed run) src).out.set (encLoop (encAt closed run) src).cp (encLoop (encAt closed run) src).code
      = closed ++ encodeFrom run src := by
  induction src generalizing closed run with
  | nil => simp [encLoop, encAt, encodeFrom]
  | cons b bs ih =>
    have hr : run.length < 254 := by
      rcases h with h | h
      · exact h
      · simp at h
    rw [encLoop, encByte_encAt _ _ _ _ hr, encodeFrom]
    by_cases hb : b = 0#8
    · rw [if_pos hb, if_pos hb, ih _ _ (.inl (by simp))]
      simp
    · rw [if_neg hb, if_neg hb]
      by_cases hfull : run.length + 1 = 254 ∧ bs ≠ []
      · rw [if_pos (by simpa using hfull), if_pos hfull, ih _ _ (.inl (by simp))]
        simp
      · rw [if_neg (by simpa using hfull), if_neg hfull, ih _ _ ?_]
        by_cases hn : bs = []
        · simp only [List.length_append, List.length_singleton, hn, and_true]
          omega
        · simp only [List.length_append, List.length_singleton]
          have : run.length + 1 ≠ 254 := fun e => hfull ⟨e, hn⟩
          omega

/-- `Encode` is the recursion over blocks. -/
theorem encodeFn_eq_blocks (src : List Byte) : encodeFn src = encodeFrom [] src := by
  have := encLoop_encAt src [] [] (by simp)
  simpa [encodeFn, encAt, encStart] using this

end Sys2Proof.Machine
end

