-- ==== Sys2Proof/Laws/PerInstr.lean ====
section
/-! SUPPORT. Statements made for every operation, one lemma for each: the space an operation is encoded in is the format
spec/opcode_table.json gives its row. -/

namespace Sys2Proof.Laws

/-- The `format` column of spec/opcode_table.json. -/
inductive Format where
  | message
  | codeByte
  | wireByte
  | grant
  | portOp
deriving DecidableEq, Repr

/-- The format of each row. -/
def formatOf : Instr → Format
  | .setServoAngles _ _ _ _ => .message
  | .requestState => .message
  | .calibrateImu => .message
  | .emitBufferedErrorLog => .message
  | .resetDeadReckoning => .message
  | .setProgramOptions _ _ _ => .message
  | .unknownOpcode _ _ => .message
  | .badLength _ _ => .message
  | .emptyMessage => .message
  | .codeZero => .codeByte
  | .codeFull => .codeByte
  | .codeRun _ => .codeByte
  | .syncStartDelim => .wireByte
  | .syncStartData _ => .wireByte
  | .syncSeekEndDelim => .wireByte
  | .syncSeekEndData _ => .wireByte
  | .syncAccDelimEmpty => .wireByte
  | .syncAccDelimEnd => .wireByte
  | .syncAccData _ => .wireByte
  | .syncAccOverflow _ => .wireByte
  | .grantImu => .grant
  | .grantCs => .grant
  | .grantPeriodic => .grant
  | .grantIdle => .grant
  | .rxPoll _ => .portOp
  | .decode => .portOp
  | .frameDone => .portOp
  | .dispatch => .portOp
  | .calDone => .portOp
  | .arb => .portOp
  | .svcDone _ => .portOp
  | .rearm1 => .portOp
  | .rearm2 => .portOp
  | .endIter => .portOp
  | .perfFlush => .portOp
  | .txReq _ => .portOp
  | .txPut => .portOp
  | .irqFire _ => .portOp
  | .alert _ => .portOp
  | .bootArm _ => .portOp
  | .clockTick _ => .portOp
  | .reset => .portOp
  | .encode _ => .portOp
  | .decodeFn _ _ => .portOp

/-- The space of an encoding (R108). -/
def spaceOf : Encoded → Format
  | .message _ => .message
  | .code _ => .codeByte
  | .wire _ _ _ _ => .wireByte
  | .grant _ => .grant
  | .port _ => .portOp

/-- The encoder puts the operation into its row's space. -/
def FormatAgrees.Statement (i : Instr) : Prop := spaceOf (encode i) = formatOf i

theorem FormatAgrees.setServoAngles (rf rb lf lb : Leg) : FormatAgrees.Statement (.setServoAngles rf rb lf lb) := rfl
theorem FormatAgrees.requestState : FormatAgrees.Statement (.requestState) := rfl
theorem FormatAgrees.calibrateImu : FormatAgrees.Statement (.calibrateImu) := rfl
theorem FormatAgrees.emitBufferedErrorLog : FormatAgrees.Statement (.emitBufferedErrorLog) := rfl
theorem FormatAgrees.resetDeadReckoning : FormatAgrees.Statement (.resetDeadReckoning) := rfl
theorem FormatAgrees.setProgramOptions (level : Byte) (interval : BitVec 16) (perfFlag : Byte) : FormatAgrees.Statement (.setProgramOptions level interval perfFlag) := rfl
theorem FormatAgrees.unknownOpcode (op : Byte) (plen : BitVec 16) : FormatAgrees.Statement (.unknownOpcode op plen) := rfl
theorem FormatAgrees.badLength (op : Byte) (plen : BitVec 16) : FormatAgrees.Statement (.badLength op plen) := rfl
theorem FormatAgrees.emptyMessage : FormatAgrees.Statement (.emptyMessage) := rfl
theorem FormatAgrees.codeZero : FormatAgrees.Statement (.codeZero) := rfl
theorem FormatAgrees.codeFull : FormatAgrees.Statement (.codeFull) := rfl
theorem FormatAgrees.codeRun (c : Byte) : FormatAgrees.Statement (.codeRun c) := rfl
theorem FormatAgrees.syncStartDelim : FormatAgrees.Statement (.syncStartDelim) := rfl
theorem FormatAgrees.syncStartData (b : Byte) : FormatAgrees.Statement (.syncStartData b) := rfl
theorem FormatAgrees.syncSeekEndDelim : FormatAgrees.Statement (.syncSeekEndDelim) := rfl
theorem FormatAgrees.syncSeekEndData (b : Byte) : FormatAgrees.Statement (.syncSeekEndData b) := rfl
theorem FormatAgrees.syncAccDelimEmpty : FormatAgrees.Statement (.syncAccDelimEmpty) := rfl
theorem FormatAgrees.syncAccDelimEnd : FormatAgrees.Statement (.syncAccDelimEnd) := rfl
theorem FormatAgrees.syncAccData (b : Byte) : FormatAgrees.Statement (.syncAccData b) := rfl
theorem FormatAgrees.syncAccOverflow (b : Byte) : FormatAgrees.Statement (.syncAccOverflow b) := rfl
theorem FormatAgrees.grantImu : FormatAgrees.Statement (.grantImu) := rfl
theorem FormatAgrees.grantCs : FormatAgrees.Statement (.grantCs) := rfl
theorem FormatAgrees.grantPeriodic : FormatAgrees.Statement (.grantPeriodic) := rfl
theorem FormatAgrees.grantIdle : FormatAgrees.Statement (.grantIdle) := rfl
theorem FormatAgrees.rxPoll (answer : Option Byte) : FormatAgrees.Statement (.rxPoll answer) := rfl
theorem FormatAgrees.decode : FormatAgrees.Statement (.decode) := rfl
theorem FormatAgrees.frameDone : FormatAgrees.Statement (.frameDone) := rfl
theorem FormatAgrees.dispatch : FormatAgrees.Statement (.dispatch) := rfl
theorem FormatAgrees.calDone : FormatAgrees.Statement (.calDone) := rfl
theorem FormatAgrees.arb : FormatAgrees.Statement (.arb) := rfl
theorem FormatAgrees.svcDone (l : Line) : FormatAgrees.Statement (.svcDone l) := rfl
theorem FormatAgrees.rearm1 : FormatAgrees.Statement (.rearm1) := rfl
theorem FormatAgrees.rearm2 : FormatAgrees.Statement (.rearm2) := rfl
theorem FormatAgrees.endIter : FormatAgrees.Statement (.endIter) := rfl
theorem FormatAgrees.perfFlush : FormatAgrees.Statement (.perfFlush) := rfl
theorem FormatAgrees.txReq (m : List Byte) : FormatAgrees.Statement (.txReq m) := rfl
theorem FormatAgrees.txPut : FormatAgrees.Statement (.txPut) := rfl
theorem FormatAgrees.irqFire (l : Line) : FormatAgrees.Statement (.irqFire l) := rfl
theorem FormatAgrees.alert (l : Line) : FormatAgrees.Statement (.alert l) := rfl
theorem FormatAgrees.bootArm (l : Line) : FormatAgrees.Statement (.bootArm l) := rfl
theorem FormatAgrees.clockTick (d : BitVec 64) : FormatAgrees.Statement (.clockTick d) := rfl
theorem FormatAgrees.reset : FormatAgrees.Statement (.reset) := rfl
theorem FormatAgrees.encode (src : List Byte) : FormatAgrees.Statement (.encode src) := rfl
theorem FormatAgrees.decodeFn (src : List Byte) (cap : Nat) : FormatAgrees.Statement (.decodeFn src cap) := rfl

end Sys2Proof.Laws
end

