-- ==== Sys2Proof/Laws/Runs.lean ====
section
/-! SUPPORT. Runs: how events move MAIN's phase, and that under the fairness and the duties of R9 the drain and every wait end, so MAIN
arbitrates again and again (R248). -/

namespace Sys2Proof.Machine

/-! ### How an event moves MAIN -/

/-- MAIN's phase is legal, and the synchronizer holds a complete frame only while MAIN works on it (R21, R46 item 3). -/
structure State.Orderly (s : State) : Prop where
  legal : s.mphase ≤ 8#4
  handoff : s.fsState = .handoff → s.mphase = 1#4 ∨ s.mphase = 2#4 ∨ s.mphase = 3#4

theorem State.Inv.orderly {s : State} (h : s.Inv) : s.Orderly := ⟨h.phase_legal, h.handoff_phase.1⟩

/-- The moves MAIN makes between its phases. -/
def mainMoves : List (BitVec 4 × BitVec 4) :=
  [(0#4, 1#4), (0#4, 4#4), (1#4, 0#4), (1#4, 2#4), (2#4, 0#4), (2#4, 3#4), (3#4, 0#4), (4#4, 5#4), (4#4, 8#4), (5#4, 6#4),
    (6#4, 7#4), (7#4, 8#4), (8#4, 0#4)]

/-- A move of MAIN leads to a legal phase. -/
theorem mainMoves_legal : ∀ q ∈ mainMoves, q.2 ≤ 8#4 := by simp [mainMoves]

/-- MAIN moves, and the synchronizer holds a complete frame afterwards only in a phase that works on it. -/
structure Moved (s t : State) : Prop where
  move : (s.mphase, t.mphase) ∈ mainMoves
  handoff : t.fsState = .handoff → t.mphase = 1#4 ∨ t.mphase = 2#4 ∨ t.mphase = 3#4 ∨ s.fsState = .handoff ∧ 4#4 ≤ s.mphase

/-- MAIN stays where it is, and no frame becomes complete. -/
structure Stayed (s t : State) : Prop where
  mphase : t.mphase = s.mphase
  svcLine : t.svcLine = s.svcLine
  handoff : t.fsState = .handoff → s.fsState = .handoff

theorem Stayed.refl (s : State) : Stayed s s := ⟨rfl, rfl, id⟩

theorem Moved.between {s t : State} (v w : BitVec 4) (hs : s.mphase = v) (ht : t.mphase = w) (hm : (v, w) ∈ mainMoves)
    (hf : t.fsState = .handoff → w = 1#4 ∨ w = 2#4 ∨ w = 3#4 ∨ s.fsState = .handoff ∧ 4#4 ≤ v) : Moved s t := by
  subst hs ht
  exact ⟨hm, hf⟩

/-- A transition of the synchronizer leaves MAIN where it is, or hands a complete frame to DECODE. -/
theorem runSync_place (op : SyncOp) (s t : State) (h : runSync op s = .next t) : Stayed s t ∨ t.mphase = 1#4 := by
  cases op with
  | accDelimEnd => cases h; exact .inr rfl
  | accData b =>
    obtain ⟨u, hu, hk⟩ := andThen_eq_next _ _ _ h
    obtain ⟨_, rfl⟩ := memWrite_eq_next _ _ _ _ _ hu
    cases hk
    exact .inl ⟨rfl, rfl, id⟩
  | startDelim => cases h; exact .inl ⟨rfl, rfl, fun e => by cases e⟩
  | startData b => cases h; exact .inl ⟨rfl, rfl, fun e => by cases e⟩
  | seekEndDelim => cases h; exact .inl ⟨rfl, rfl, fun e => by cases e⟩
  | seekEndData b => cases h; exact .inl ⟨rfl, rfl, id⟩
  | accDelimEmpty => cases h; exact .inl ⟨rfl, rfl, id⟩
  | accOverflow b => cases h; exact .inl ⟨rfl, rfl, fun e => by cases e⟩

/-- A poll leaves MAIN in RX, hands a frame to DECODE, or, answered `none`, ends the drain. -/
theorem execRxPoll_place (a : Option Byte) (s t : State) (h : execRxPoll a s = .next t) : Stayed s t ∨ Moved s t := by
  rcases inPhase_eq_next _ _ _ _ h with ⟨hp, h⟩ | ⟨_, rfl⟩
  · split at h
    · cases h; exact .inl (.refl _)
    · cases h
      rename_i hn
      exact .inr (.between 0#4 4#4 hp rfl (by decide) (fun e => absurd e hn))
    · split at h
      · rcases runSync_place _ _ _ h with ⟨h1, h2, h3⟩ | h1
        · exact .inl ⟨h1, h2, h3⟩
        · exact .inr (.between 0#4 1#4 hp h1 (by decide) (fun _ => .inl rfl))
      · cases h
      · cases h; exact .inl (.refl _)
  · exact .inl (.refl _)

/-- The answer `none` ends the drain. -/
theorem execRxPoll_none (s : State) (hp : s.mphase = 0#4) (hf : s.fsState ≠ .handoff) :
    execRxPoll none s = .next (goto .arb (record (.rxAnswer none) s)) := by
  refine (inPhase_enabled .rx _ _ hp).trans ?_
  split
  · rename_i h; exact absurd h hf
  · rfl
  · rename_i h _; cases h

/-- DECODE drops the frame or goes on to DISPATCH. -/
theorem execDecode_place (s t : State) (h : execDecode s = .next t) (hp : s.mphase = 1#4) : Moved s t := by
  rw [execDecode, inPhase_enabled .decode _ _ hp] at h
  split at h
  · cases h
  · split at h
    split at h
    · obtain ⟨u, hu, hk⟩ := andThen_eq_next _ _ _ h
      cases hk
      exact .between 1#4 2#4 hp rfl (by decide) (fun _ => .inr (.inl rfl))
    · cases h
      exact .between 1#4 0#4 hp rfl (by decide) (fun e => by cases e)

/-- DISPATCH ends the frame attempt or goes to CAL_WAIT. -/
theorem execDispatch_place (s t : State) (h : execDispatch s = .next t) (hp : s.mphase = 2#4) : Moved s t := by
  rw [execDispatch, inPhase_enabled .dispatch _ _ hp] at h
  split at h
  · cases h
  · rename_i m _
    generalize decodeMessage m = msg at h
    cases msg with
    | calibrateImu => cases h; exact .between 2#4 3#4 hp rfl (by decide) (fun _ => .inr (.inr (.inl rfl)))
    | setServoAngles rf rb lf lb => cases h; exact .between 2#4 0#4 hp rfl (by decide) (fun e => by cases e)
    | requestState => cases h; exact .between 2#4 0#4 hp rfl (by decide) (fun e => by cases e)
    | emitBufferedErrorLog => cases h; exact .between 2#4 0#4 hp rfl (by decide) (fun e => by cases e)
    | resetDeadReckoning => cases h; exact .between 2#4 0#4 hp rfl (by decide) (fun e => by cases e)
    | setProgramOptions level interval perf => cases h; exact .between 2#4 0#4 hp rfl (by decide) (fun e => by cases e)
    | unknownOpcode op plen => cases h; exact .between 2#4 0#4 hp rfl (by decide) (fun e => by cases e)
    | badLength op plen => cases h; exact .between 2#4 0#4 hp rfl (by decide) (fun e => by cases e)
    | emptyMessage => cases h; exact .between 2#4 0#4 hp rfl (by decide) (fun e => by cases e)

/-- ARB starts a service or goes to END. -/
theorem execArb_place (s t : State) (h : execArb s = .next t) (hp : s.mphase = 4#4) : Moved s t := by
  rw [execArb, inPhase_enabled .arb _ _ hp] at h
  split at h <;> cases h
  · exact .between 4#4 5#4 hp rfl (by decide) (fun e => .inr (.inr (.inr ⟨e, by decide⟩)))
  · exact .between 4#4 5#4 hp rfl (by decide) (fun e => .inr (.inr (.inr ⟨e, by decide⟩)))
  · exact .between 4#4 8#4 hp rfl (by decide) (fun e => .inr (.inr (.inr ⟨e, by decide⟩)))
  · exact .between 4#4 8#4 hp rfl (by decide) (fun e => .inr (.inr (.inr ⟨e, by decide⟩)))

/-- END goes back to RX. -/
theorem execEndIter_place (s t : State) (h : execEndIter s = .next t) (hp : s.mphase = 8#4) : Moved s t := by
  rw [execEndIter, inPhase_enabled .endIter _ _ hp] at h
  have key : t.mphase = 0#4 ∧ t.fsState = s.fsState := by
    split at h
    · split at h <;> cases h <;> exact ⟨rfl, rfl⟩
    · cases h; exact ⟨rfl, rfl⟩
  exact .between 8#4 0#4 hp key.1 (by decide) (fun e => .inr (.inr (.inr ⟨key.2 ▸ e, by decide⟩)))

/-- The port-free operation of a phase, where it has one, moves MAIN. -/
theorem decodePhase_place (s t : State) (i : Instr) (hi : decodePhase s.mphase = .ok i) (h : exec i s = .next t) : Moved s t := by
  unfold decodePhase at hi
  split at hi <;> cases hi
  all_goals
    rename_i hb
    have hp := Phase.bits_of_ofBits _ _ hb
  · exact execDecode_place s t h hp
  · exact execDispatch_place s t h hp
  · exact execArb_place s t h hp
  · have h : execRearm1 s = .next t := h
    rw [execRearm1, inPhase_enabled .rearm1 _ _ hp] at h
    cases h
    exact .between 6#4 7#4 hp rfl (by decide) (fun e => .inr (.inr (.inr ⟨by simpa using e, by decide⟩)))
  · have h : execRearm2 s = .next t := h
    rw [execRearm2, inPhase_enabled .rearm2 _ _ hp] at h
    cases h
    exact .between 7#4 8#4 hp rfl (by decide) (fun e => .inr (.inr (.inr ⟨by simpa using e, by decide⟩)))
  · exact execEndIter_place s t h hp

/-- MAIN's own event moves MAIN where its phase has a port-free operation, and else does nothing. -/
theorem runEvent_main_place (s t : State) (h : runEvent .main s = .next t) :
    (Event.enabled s .main = true ∧ Moved s t) ∨ (Event.enabled s .main = false ∧ t = s) := by
  have hd : decode (.port (Event.trigger s .main)) = decodePhase s.mphase := rfl
  unfold runEvent at h
  rw [hd] at h
  unfold Event.enabled
  cases hi : decodePhase s.mphase with
  | ok i => rw [hi] at h; exact .inl ⟨rfl, decodePhase_place s t i hi h⟩
  | error e =>
    rw [hi] at h
    refine .inr ⟨rfl, ?_⟩
    cases e <;> cases h <;> rfl

/-- The line bits an event of another agent writes are not MAIN's place. -/
theorem execTxReq_place (m : List Byte) (s t : State) (h : execTxReq m s = .next t) : Stayed s t := by
  unfold execTxReq at h
  split at h
  · cases h; exact .refl _
  · split at h
    · cases h; exact ⟨rfl, rfl, id⟩
    · obtain ⟨u, hu, hk⟩ := andThen_eq_next _ _ _ h
      obtain ⟨rfl, _⟩ := writeFrom_eq_next _ _ _ _ _ hu
      cases hk
      exact ⟨rfl, rfl, id⟩

theorem execTxPut_place (s t : State) (h : execTxPut s = .next t) : Stayed s t := by
  unfold execTxPut at h
  split at h
  · cases h; exact .refl _
  · split at h <;> cases h
    exact ⟨rfl, rfl, id⟩

theorem execIrqFire_place (l : Line) (s t : State) (h : execIrqFire l s = .next t) : Stayed s t := by
  cases h
  split
  · exact ⟨by simp, by simp, by simp⟩
  · exact .refl _

theorem execBootArm_place (l : Line) (s t : State) (h : execBootArm l s = .next t) : Stayed s t := by
  unfold execBootArm at h
  split at h <;> cases h
  split
  · exact .refl _
  · exact ⟨by simp, by simp, by simp⟩

theorem execClockTick_place (d : BitVec 64) (s t : State) (h : execClockTick d s = .next t) : Stayed s t := by
  cases h
  split
  · exact ⟨rfl, rfl, id⟩
  · exact .refl _

/-- `svc_done` ends the wait for its line, and else does nothing. -/
theorem execSvcDone_place (l : Line) (s t : State) (h : execSvcDone l s = .next t) :
    (s.mphase = 5#4 ∧ s.svcLine = l ∧ Moved s t) ∨ (¬ (s.mphase = 5#4 ∧ s.svcLine = l) ∧ t = s) := by
  rcases inPhase_eq_next _ _ _ _ h with ⟨hp, h⟩ | ⟨hp, rfl⟩
  · cases h
    split
    · rename_i hl
      exact .inl ⟨hp, hl, .between 5#4 6#4 hp rfl (by decide) (fun e => .inr (.inr (.inr ⟨e, by decide⟩)))⟩
    · rename_i hl
      exact .inr ⟨fun e => hl e.2, rfl⟩
  · exact .inr ⟨fun e => hp e.1, rfl⟩

/-- `calib_done` ends CAL_WAIT, and else does nothing. -/
theorem execCalDone_place (s t : State) (h : execCalDone s = .next t) :
    (s.mphase = 3#4 ∧ Moved s t) ∨ (s.mphase ≠ 3#4 ∧ t = s) := by
  rcases inPhase_eq_next _ _ _ _ h with ⟨hp, h⟩ | ⟨hp, rfl⟩
  · cases h
    exact .inl ⟨hp, .between 3#4 0#4 hp rfl (by decide) (fun e => by cases e)⟩
  · exact .inr ⟨hp, rfl⟩

/-- What an event can do to MAIN's place. -/
theorem runEvent_place (e : Event) (s t : State) (h : runEvent e s = .next t) :
    Stayed s t ∨ Moved s t ∨ (e = .rst ∧ t.mphase = 0#4 ∧ t.fsState = .seekStart) := by
  cases e with
  | main =>
    rcases runEvent_main_place s t h with ⟨_, h⟩ | ⟨_, rfl⟩
    · exact .inr (.inl h)
    · exact .inl (.refl _)
  | rxPoll a => exact (execRxPoll_place a s t h).elim .inl (fun h => .inr (.inl h))
  | calibDone =>
    rcases execCalDone_place s t h with ⟨_, h⟩ | ⟨_, rfl⟩
    · exact .inr (.inl h)
    · exact .inl (.refl _)
  | svcDone l =>
    rcases execSvcDone_place l s t h with ⟨_, _, h⟩ | ⟨_, rfl⟩
    · exact .inr (.inl h)
    · exact .inl (.refl _)
  | txReq m => exact .inl (execTxReq_place m s t h)
  | txPut => exact .inl (execTxPut_place s t h)
  | irq l => exact .inl (execIrqFire_place l s t h)
  | alert l => cases h; exact .inl ⟨by simp, by simp, by simp⟩
  | arm l => exact .inl (execBootArm_place l s t h)
  | clock d => exact .inl (execClockTick_place d s t h)
  | rst => cases h; exact .inr (.inr ⟨rfl, rfl, rfl⟩)

theorem runEvent_rst_mphase (s t : State) (h : runEvent .rst s = .next t) : t.mphase = 0#4 := by
  cases h
  rfl

/-- Every event keeps MAIN's place in order. -/
theorem runEvent_orderly (e : Event) (s t : State) (hs : s.Orderly) (h : runEvent e s = .next t) : t.Orderly := by
  rcases runEvent_place e s t h with ⟨h1, _, h3⟩ | ⟨hm, hf⟩ | ⟨_, h1, h2⟩
  · exact ⟨h1 ▸ hs.legal, fun e => h1 ▸ hs.handoff (h3 e)⟩
  · refine ⟨mainMoves_legal _ hm, fun e => ?_⟩
    · rcases hf e with h | h | h | ⟨h, h4⟩
      · exact .inl h
      · exact .inr (.inl h)
      · exact .inr (.inr h)
      · rcases hs.handoff h with h | h | h <;> rw [h] at h4 <;> exact absurd h4 (by decide)
  · exact ⟨by rw [h1]; decide, fun e => by rw [h2] at e; cases e⟩

/-! ### Runs under the fairness and the duties of R9 -/

section

variable {offers : Nat → Event → Prop} {ev : Nat → Event} {st : Nat → State}

theorem run_orderly (hr : IsRun offers ev st) (h0 : (st 0).Orderly) (n : Nat) : (st n).Orderly := by
  induction n with
  | zero => exact h0
  | succ n ih => exact runEvent_orderly _ _ _ ih (hr n).2

/-- A phase that does not last for ever is left by a move of MAIN or by a reset. -/
theorem phase_left (hr : IsRun offers ev st) (n : Nat) (h : ¬ ∀ k, n ≤ k → (st k).mphase = (st n).mphase) :
    ∃ m, n < m ∧ (((st n).mphase, (st m).mphase) ∈ mainMoves ∨ (st m).mphase = 0#4) := by
  refine Classical.byContradiction fun hno => h fun k hk => ?_
  obtain ⟨j, rfl⟩ := Nat.exists_eq_add_of_le hk
  induction j with
  | zero => rfl
  | succ j ih =>
    have hj := ih (by omega)
    rcases runEvent_place _ _ _ (hr (n + j)).2 with hs | hm | ⟨_, hz, _⟩
    · exact hs.mphase.trans hj
    · exact absurd ⟨n + j + 1, by omega, .inl (hj ▸ hm.move)⟩ hno
    · exact absurd ⟨n + j + 1, by omega, .inr hz⟩ hno

theorem mainMoves_ne : ∀ q ∈ mainMoves, q.1 ≠ q.2 := by simp [mainMoves]

/-- A move of MAIN between two positions of one phase is none. -/
theorem Moved.absurd_same {s t : State} {p : Prop} (h : Moved s t) (hp : t.mphase = s.mphase) : p :=
  absurd hp.symm (mainMoves_ne _ h.move)

/-- The only step of MAIN that a phase with a port-free operation enables is that operation. -/
theorem main_step_eq_main (s : State) (e : Event) (ha : Event.agent e = .main) (he : Event.enabled s e = true)
    (hw : Event.enabled s .main = true) : e = .main := by
  cases e <;> try first | rfl | cases ha
  all_goals simp only [Event.enabled, Bool.and_eq_true, decide_eq_true_eq] at he hw
  · rw [he.1] at hw; cases hw
  · rw [he] at hw; cases hw
  · rw [he.1] at hw; cases hw

/-- A phase with a port-free operation is left, by fairness to MAIN. -/
theorem working_phase_left (hr : IsRun offers ev st) (hf : WeaklyFairTo offers ev st .main) (n : Nat)
    (hp : Event.enabled (st n) .main = true) :
    ∃ m, n < m ∧ (((st n).mphase, (st m).mphase) ∈ mainMoves ∨ (st m).mphase = 0#4) := by
  refine phase_left hr n fun same => ?_
  have on : ∀ k, n ≤ k → Event.enabled (st k) .main = true := fun k hk => by
    simpa only [Event.enabled, same k hk] using hp
  obtain ⟨m, hm, ha, he⟩ := hf n (fun m hm => ⟨.main, rfl, ⟨fun h => (nomatch h), on m hm⟩⟩)
  have h := (hr m).2
  rw [main_step_eq_main _ _ ha he (on m hm)] at h
  rcases runEvent_main_place _ _ h with ⟨_, hmv⟩ | ⟨hoff, _⟩
  · exact hmv.absurd_same ((same (m + 1) (by omega)).trans (same m hm).symm)
  · rw [on m hm] at hoff; cases hoff

/-- CAL_WAIT is left, by EST's duty. -/
theorem calibration_ends (hr : IsRun offers ev st) (hd : Duties ev st) (n : Nat) (hp : (st n).mphase = 3#4) :
    ∃ m, n < m ∧ (((st n).mphase, (st m).mphase) ∈ mainMoves ∨ (st m).mphase = 0#4) := by
  refine phase_left hr n fun same => ?_
  obtain ⟨m, hm, he⟩ := hd.calibration n hp
  have h := (hr m).2
  have h1 := (same (m + 1) (by omega)).trans (same m hm).symm
  rcases he with he | he <;> rw [he] at h
  · rcases execCalDone_place _ _ h with ⟨_, hmv⟩ | ⟨hne, _⟩
    · exact hmv.absurd_same h1
    · exact hne ((same m hm).trans hp)
  · rw [runEvent_rst_mphase _ _ h, same m hm, hp] at h1
    cases h1

/-- SVC_WAIT is left, by EST's duty. -/
theorem service_ends (hr : IsRun offers ev st) (hd : Duties ev st) (n : Nat) (hp : (st n).mphase = 5#4) :
    ∃ m, n < m ∧ (((st n).mphase, (st m).mphase) ∈ mainMoves ∨ (st m).mphase = 0#4) := by
  refine phase_left hr n fun same => ?_
  have line : ∀ j, (st (n + j)).svcLine = (st n).svcLine := fun j => by
    induction j with
    | zero => rfl
    | succ j ih =>
      have h1 := (same (n + j + 1) (by omega)).trans (same (n + j) (by omega)).symm
      rcases runEvent_place _ _ _ (hr (n + j)).2 with hs | hm | ⟨_, hz, _⟩
      · exact hs.svcLine.trans ih
      · exact hm.absurd_same h1
      · rw [hz, same (n + j) (by omega), hp] at h1
        cases h1
  obtain ⟨m, hm, he⟩ := hd.service n hp
  have h := (hr m).2
  have h1 := (same (m + 1) (by omega)).trans (same m hm).symm
  rcases he with he | he <;> rw [he] at h
  · rcases execSvcDone_place _ _ _ h with ⟨_, _, hmv⟩ | ⟨hne, _⟩
    · exact hmv.absurd_same h1
    · obtain ⟨j, rfl⟩ := Nat.exists_eq_add_of_le hm
      exact hne ⟨(same _ hm).trans hp, line j⟩
  · rw [runEvent_rst_mphase _ _ h, same m hm, hp] at h1
    cases h1

/-- From every phase but RX MAIN moves on. -/
theorem phase_ends (hr : IsRun offers ev st) (hf : WeaklyFairTo offers ev st .main) (hd : Duties ev st) (n : Nat)
    (hl : (st n).mphase ≤ 8#4) (h0 : (st n).mphase ≠ 0#4) :
    ∃ m, n < m ∧ (((st n).mphase, (st m).mphase) ∈ mainMoves ∨ (st m).mphase = 0#4) := by
  by_cases h3 : (st n).mphase = 3#4
  · exact calibration_ends hr hd n h3
  by_cases h5 : (st n).mphase = 5#4
  · exact service_ends hr hd n h5
  refine working_phase_left hr hf n ?_
  have all : ∀ v : BitVec 4, v ≤ 8#4 → v ≠ 0#4 → v ≠ 3#4 → v ≠ 5#4 → (decodePhase v).isOk = true := by decide
  have h := all _ hl h0 h3 h5
  unfold Event.enabled
  cases hi : decodePhase (st n).mphase with
  | ok i => rfl
  | error e => rw [hi] at h; cases h

/-- From every phase MAIN gets back to RX: each iteration ends. -/
theorem returns_to_rx (hr : IsRun offers ev st) (hf : WeaklyFairTo offers ev st .main) (hd : Duties ev st)
    (h0 : (st 0).Orderly) (n : Nat) : ∃ m, n ≤ m ∧ (st m).mphase = 0#4 := by
  have go : ∀ (v : BitVec 4) (w : List (BitVec 4)), v ≤ 8#4 → v ≠ 0#4 → (∀ u, (v, u) ∈ mainMoves → u = 0#4 ∨ u ∈ w) →
      (∀ u ∈ w, ∀ n, (st n).mphase = u → ∃ m, n ≤ m ∧ (st m).mphase = 0#4) →
      ∀ n, (st n).mphase = v → ∃ m, n ≤ m ∧ (st m).mphase = 0#4 := by
    intro v w hl hv hw ih n hn
    obtain ⟨m, hm, h⟩ := phase_ends hr hf hd n (hn ▸ hl) (hn ▸ hv)
    rw [hn] at h
    have hz : (st m).mphase = 0#4 ∨ (st m).mphase ∈ w := h.elim (hw _) .inl
    rcases hz with hz | hz
    · exact ⟨m, by omega, hz⟩
    · obtain ⟨k, hk, h⟩ := ih _ hz m rfl
      exact ⟨k, by omega, h⟩
  have p8 := go 8#4 [] (by decide) (by decide) (by decide) (by simp)
  have p7 := go 7#4 [8#4] (by decide) (by decide) (by decide) (by simpa using p8)
  have p6 := go 6#4 [7#4] (by decide) (by decide) (by decide) (by simpa using p7)
  have p5 := go 5#4 [6#4] (by decide) (by decide) (by decide) (by simpa using p6)
  have p4 := go 4#4 [5#4, 8#4] (by decide) (by decide) (by decide) (by simpa using ⟨p5, p8⟩)
  have p3 := go 3#4 [] (by decide) (by decide) (by decide) (by simp)
  have p2 := go 2#4 [3#4] (by decide) (by decide) (by decide) (by simpa using p3)
  have p1 := go 1#4 [2#4] (by decide) (by decide) (by decide) (by simpa using p2)
  have all : ∀ v : BitVec 4, v ≤ 8#4 → v = 0#4 ∨ v = 1#4 ∨ v = 2#4 ∨ v = 3#4 ∨ v = 4#4 ∨ v = 5#4 ∨ v = 6#4 ∨ v = 7#4 ∨ v = 8#4 := by
    decide
  rcases all _ (run_orderly hr h0 n).legal with h | h | h | h | h | h | h | h | h
  · exact ⟨n, by omega, h⟩
  · exact p1 n h
  · exact p2 n h
  · exact p3 n h
  · exact p4 n h
  · exact p5 n h
  · exact p6 n h
  · exact p7 n h
  · exact p8 n h

/-- In RX an event that is no poll leaves MAIN in RX. -/
theorem rx_until_poll (e : Event) (s t : State) (hs : s.Orderly) (hp : s.mphase = 0#4) (hn : ∀ a, e ≠ .rxPoll a)
    (h : runEvent e s = .next t) : t.mphase = 0#4 := by
  cases e with
  | rxPoll a => exact absurd rfl (hn a)
  | main =>
    rcases runEvent_main_place s t h with ⟨he, _⟩ | ⟨_, rfl⟩
    · rw [Event.enabled, hp] at he; cases he
    · exact hp
  | calibDone =>
    rcases execCalDone_place s t h with ⟨h3, _⟩ | ⟨_, rfl⟩
    · rw [hp] at h3; cases h3
    · exact hp
  | svcDone l =>
    rcases execSvcDone_place l s t h with ⟨h5, _⟩ | ⟨_, rfl⟩
    · rw [hp] at h5; cases h5
    · exact hp
  | txReq m => exact (execTxReq_place m s t h).mphase.trans hp
  | txPut => exact (execTxPut_place s t h).mphase.trans hp
  | irq l => exact (execIrqFire_place l s t h).mphase.trans hp
  | alert l => cases h; simpa using hp
  | arm l => exact (execBootArm_place l s t h).mphase.trans hp
  | clock d => exact (execClockTick_place d s t h).mphase.trans hp
  | rst => exact runEvent_rst_mphase s t h

/-- In RX MAIN eventually polls, by fairness. -/
theorem polls_in_rx (hr : IsRun offers ev st) (hf : WeaklyFairTo offers ev st .main) (h0 : (st 0).Orderly) (n : Nat)
    (hp : (st n).mphase = 0#4) : ∃ m, n ≤ m ∧ PollsAt ev st m := by
  refine Classical.byContradiction fun hno => ?_
  have on : ∀ (k : Nat) (a : Option Byte), (st k).mphase = 0#4 → Event.enabled (st k) (.rxPoll a) = true := fun k a hk => by
    have := (run_orderly hr h0 k).handoff
    rw [hk] at this
    simp only [Event.enabled, hk, Phase.bits, Bool.and_eq_true, decide_eq_true_eq, true_and]
    exact fun e => absurd (this e) (by decide)
  have same : ∀ j, (st (n + j)).mphase = 0#4 := fun j => by
    induction j with
    | zero => exact hp
    | succ j ih =>
      refine rx_until_poll _ _ _ (run_orderly hr h0 _) ih (fun a ha => hno ⟨n + j, by omega, ⟨a, ha⟩, ?_⟩) (hr (n + j)).2
      rw [ha]
      exact on _ a ih
  have same' : ∀ k, n ≤ k → (st k).mphase = 0#4 := fun k hk => by
    obtain ⟨j, rfl⟩ := Nat.exists_eq_add_of_le hk
    exact same j
  obtain ⟨m, hm, ha, he⟩ := hf n (fun m hm => ⟨.rxPoll none, rfl, ⟨fun h => (nomatch h), on m none (same' m hm)⟩⟩)
  refine hno ⟨m, hm, ?_, he⟩
  have hz := same' m hm
  cases hev : ev m <;> rw [hev] at ha he <;> try cases ha
  all_goals simp only [Event.enabled, hz] at he
  · cases he
  · exact ⟨_, rfl⟩
  · cases he
  · cases he

/-- Bounded iteration (R248): under the fairness and the duties of R9, whatever frames HOST sends, MAIN arbitrates again and again,
so every drain, every service wait and every calibration ends. -/
theorem main_arbitrates_again (hr : IsRun offers ev st) (hf : WeaklyFairTo offers ev st .main) (hd : Duties ev st)
    (h0 : (st 0).Orderly) (n : Nat) : ∃ m, n ≤ m ∧ (st m).mphase = 4#4 := by
  obtain ⟨m, hm, ⟨_, he⟩, hnone⟩ := hd.host n (fun k hk => by
    obtain ⟨m, hm, hp⟩ := returns_to_rx hr hf hd h0 k
    obtain ⟨m', hm', hpoll⟩ := polls_in_rx hr hf h0 m hp
    exact ⟨m', by omega, hpoll⟩)
  refine ⟨m + 1, by omega, ?_⟩
  have h := (hr m).2
  rw [hnone] at h he
  simp only [Event.enabled, Bool.and_eq_true, decide_eq_true_eq] at he
  have h : execRxPoll none (st m) = .next (st (m + 1)) := h
  rw [execRxPoll_none _ he.1 he.2] at h
  exact congrArg State.mphase (Host.Outcome.next.inj h).symm

end

/-! ### A run that meets the fairness and the duties -/

/-- What MAIN and its collaborators do next when HOST has nothing to send. -/
def quietMain (s : State) : Event :=
  if s.mphase = 0#4 then .rxPoll none else if s.mphase = 5#4 then .svcDone s.svcLine else .main

/-- BOOT arms both lines, and then every agent has its turn in rounds of six. -/
def quietEvent (n : Nat) (s : State) : Event :=
  if n = 0 then .arm .imu
  else if n = 1 then .arm .cs
  else if n % 6 = 0 then .alert .imu
  else if n % 6 = 1 then .alert .cs
  else if n % 6 = 2 then .irq .imu
  else if n % 6 = 3 then .irq .cs
  else if n % 6 = 4 then .clock 1#64
  else quietMain s

/-- The states of that run, from reset. -/
def quietState : Nat → State
  | 0 => State.resetWith Params.default 0#64
  | n + 1 =>
    match runEvent (quietEvent n (quietState n)) (quietState n) with
    | .next t => t
    | .fault _ => quietState n
    | .refused _ => quietState n

/-- MAIN works on no frame, and TX sends nothing. -/
structure Quiet (s : State) : Prop where
  phase : s.mphase = 0#4 ∨ s.mphase = 4#4 ∨ s.mphase = 5#4 ∨ s.mphase = 6#4 ∨ s.mphase = 7#4 ∨ s.mphase = 8#4
  fsState : s.fsState = .seekStart
  txPhase : s.txPhase = .idle

theorem quietMain_next (s : State) (h : Quiet s) : ∃ t, runEvent (quietMain s) s = .next t ∧ Quiet t := by
  obtain ⟨hp, hf, ht⟩ := h
  have main : ∀ (p : Phase) (i : Instr), s.mphase = p.bits → decodePhase p.bits = .ok i → runEvent .main s = exec i s := by
    intro p i hp hi
    have : decode (.port (Event.trigger s .main)) = .ok i := (congrArg decodePhase hp).trans hi
    rw [runEvent, this]
  unfold quietMain
  rcases hp with hp | hp | hp | hp | hp | hp <;> rw [hp]
  · exact ⟨_, execRxPoll_none s hp (by rw [hf]; decide), .inr (.inl rfl), hf, ht⟩
  · refine (main .arb .arb hp rfl).symm ▸ ?_
    show ∃ t, execArb s = .next t ∧ Quiet t
    rw [execArb, inPhase_enabled .arb _ _ hp]
    split
    · exact ⟨_, rfl, .inr (.inr (.inl rfl)), hf, ht⟩
    · exact ⟨_, rfl, .inr (.inr (.inl rfl)), hf, ht⟩
    · exact ⟨_, rfl, .inr (.inr (.inr (.inr (.inr rfl)))), hf, ht⟩
    · exact ⟨_, rfl, .inr (.inr (.inr (.inr (.inr rfl)))), hf, ht⟩
  · refine ⟨goto .rearm1 (record (.svcDone s.svcLine) s), ?_, .inr (.inr (.inr (.inl rfl))), hf, ht⟩
    show execSvcDone s.svcLine s = _
    rw [execSvcDone, inPhase_enabled .svcWait _ _ hp, if_pos rfl]
  · refine ⟨_, (main .rearm1 .rearm1 hp rfl).trans (inPhase_enabled .rearm1 _ _ hp), .inr (.inr (.inr (.inr (.inl rfl)))), ?_, ?_⟩
    · simpa using hf
    · simpa using ht
  · refine ⟨_, (main .rearm2 .rearm2 hp rfl).trans (inPhase_enabled .rearm2 _ _ hp), .inr (.inr (.inr (.inr (.inr rfl)))), ?_, ?_⟩
    · simpa using hf
    · simpa using ht
  · refine (main .endIter .endIter hp rfl).symm ▸ ?_
    show ∃ t, execEndIter s = .next t ∧ Quiet t
    rw [execEndIter, inPhase_enabled .endIter _ _ hp]
    split
    · split
      · exact ⟨_, rfl, .inl rfl, hf, ht⟩
      · exact ⟨_, rfl, .inl rfl, hf, ht⟩
    · exact ⟨_, rfl, .inl rfl, hf, ht⟩

/-- An alert, an interrupt, a clock advance or an arming leaves MAIN's place and TX alone. -/
theorem quietAside_next (e : Event) (s : State) (h : Quiet s)
    (he : (∃ l, e = .alert l) ∨ (∃ l, e = .irq l) ∨ (∃ d, e = .clock d) ∨ ∃ l, e = .arm l) :
    ∃ t, runEvent e s = .next t ∧ Quiet t ∧ t.mphase = s.mphase ∧ t.svcLine = s.svcLine := by
  obtain ⟨hp, hf, ht⟩ := h
  have keep : ∀ t : State, t.mphase = s.mphase → t.svcLine = s.svcLine → t.fsState = s.fsState → t.txPhase = s.txPhase →
      Quiet t ∧ t.mphase = s.mphase ∧ t.svcLine = s.svcLine := fun t h1 h2 h3 h4 =>
    ⟨⟨by rw [h1]; exact hp, h3.trans hf, h4.trans ht⟩, h1, h2⟩
  rcases he with ⟨l, rfl⟩ | ⟨l, rfl⟩ | ⟨d, rfl⟩ | ⟨l, rfl⟩
  · exact ⟨_, rfl, keep _ (by simp) (by simp) (by simp) (by simp)⟩
  · refine ⟨_, rfl, keep _ ?_ ?_ ?_ ?_⟩ <;> split <;> simp
  · refine ⟨_, rfl, keep _ ?_ ?_ ?_ ?_⟩ <;> split <;> rfl
  · have : runEvent (.arm l) s = execBootArm l s := rfl
    rw [this, execBootArm]
    split
    · rename_i hn
      rw [Phase.ofBits_none_iff] at hn
      rcases hp with h | h | h | h | h | h <;> rw [h] at hn <;> exact absurd hn (by decide)
    · refine ⟨_, rfl, keep _ ?_ ?_ ?_ ?_⟩ <;> split <;> simp

theorem quietEvent_aside (n : Nat) (s : State) (h : n % 6 ≠ 5) :
    (∃ l, quietEvent n s = .alert l) ∨ (∃ l, quietEvent n s = .irq l) ∨ (∃ d, quietEvent n s = .clock d) ∨
      ∃ l, quietEvent n s = .arm l := by
  unfold quietEvent
  repeat' split
  all_goals first | (exfalso; omega) | simp

theorem quietEvent_main (n : Nat) (s : State) (h5 : n % 6 = 5) : quietEvent n s = quietMain s := by
  unfold quietEvent
  repeat' split
  all_goals first | rfl | omega

theorem quietState_quiet (n : Nat) :
    Quiet (quietState n) ∧ runEvent (quietEvent n (quietState n)) (quietState n) = .next (quietState (n + 1)) := by
  have next : ∀ n, Quiet (quietState n) →
      runEvent (quietEvent n (quietState n)) (quietState n) = .next (quietState (n + 1)) ∧ Quiet (quietState (n + 1)) := by
    intro n h
    have hk : ∃ t, runEvent (quietEvent n (quietState n)) (quietState n) = .next t ∧ Quiet t := by
      by_cases h5 : n % 6 = 5
      · rw [quietEvent_main n _ h5]
        exact quietMain_next _ h
      · obtain ⟨t, h1, h2, _⟩ := quietAside_next _ _ h (quietEvent_aside n _ h5)
        exact ⟨t, h1, h2⟩
    obtain ⟨t, h1, h2⟩ := hk
    have : quietState (n + 1) = t := by
      rw [quietState, h1]
    rw [this]
    exact ⟨h1, h2⟩
  have all : Quiet (quietState n) := by
    induction n with
    | zero => exact ⟨.inl rfl, rfl, rfl⟩
    | succ n ih => exact (next n ih).2
  exact ⟨all, (next n all).1⟩

/-- The event of a turn, outside the two armings. -/
theorem quietEvent_turn (n : Nat) (s : State) (h : 2 ≤ n) :
    (n % 6 = 0 → quietEvent n s = .alert .imu) ∧ (n % 6 = 1 → quietEvent n s = .alert .cs) ∧
    (n % 6 = 2 → quietEvent n s = .irq .imu) ∧ (n % 6 = 3 → quietEvent n s = .irq .cs) ∧
    (n % 6 = 4 → quietEvent n s = .clock 1#64) := by
  unfold quietEvent
  refine ⟨fun h => ?_, fun h => ?_, fun h => ?_, fun h => ?_, fun h => ?_⟩ <;> repeat' split
  all_goals first | rfl | omega

/-- The run holds no event that starts with a byte, a request to TX, a byte to the sink, a calibration's end or a reset. -/
theorem quietEvent_absent (n : Nat) (s : State) :
    (∀ b, quietEvent n s ≠ .rxPoll (some b)) ∧ Event.agent (quietEvent n s) ≠ .tx ∧ quietEvent n s ≠ .rst ∧
    Event.agent (quietEvent n s) ≠ .platform ∧ (∀ l, quietEvent n s = .arm l → (n = 0 ∧ l = .imu) ∨ (n = 1 ∧ l = .cs)) := by
  unfold quietEvent quietMain
  refine ⟨?_, ?_, ?_, ?_, ?_⟩
  all_goals repeat' split
  all_goals simp [Event.agent, *]

/-- Between its turns MAIN's place does not change. -/
theorem quietState_waits (n j : Nat) (h : n % 6 + j ≤ 5) :
    (quietState (n + j)).mphase = (quietState n).mphase ∧ (quietState (n + j)).svcLine = (quietState n).svcLine := by
  induction j with
  | zero => exact ⟨rfl, rfl⟩
  | succ j ih =>
    obtain ⟨h1, h2⟩ := ih (by omega)
    obtain ⟨hq, hn⟩ := quietState_quiet (n + j)
    obtain ⟨t, ht, _, h3, h4⟩ := quietAside_next _ _ hq (quietEvent_aside (n + j) _ (by omega))
    rw [hn] at ht
    cases ht
    exact ⟨h3.trans h1, h4.trans h2⟩

/-- What the environment offers in that run: the event that comes. -/
def quietOffers (n : Nat) (e : Event) : Prop := e = quietEvent n (quietState n)

/-- The events of that run. -/
def quietRun (n : Nat) : Event := quietEvent n (quietState n)

/-- In that run an agent without an offer before position `n + 2` is not enabled there. -/
theorem quiet_no_offer (n : Nat) (a : Agent) (ha : a = .tx ∨ a = .boot ∨ a = .platform) :
    ¬ CanStep quietOffers quietState a (n + 2) := by
  rintro ⟨e, he, ho, _⟩
  obtain ⟨_, h1, _, h2, h3⟩ := quietEvent_absent (n + 2) (quietState (n + 2))
  have same : Event.needsOffer e = true → Event.agent (quietEvent (n + 2) (quietState (n + 2))) = a := fun h =>
    (congrArg Event.agent (ho h)).symm.trans he
  rcases ha with rfl | rfl | rfl <;> cases e <;> try cases he
  · exact h1 (same rfl)
  · exact h1 (same rfl)
  · rcases h3 _ (ho rfl).symm with ⟨h, _⟩ | ⟨h, _⟩ <;> omega
  · exact h2 (same rfl)

theorem quiet_fair : WeaklyFair quietOffers quietRun quietState := by
  intro a n h
  have turn : ∀ (m : Nat) (e : Event), n ≤ m → quietEvent m (quietState m) = e → Event.agent e = a →
      Event.enabled (quietState m) e = true → ∃ m, n ≤ m ∧ Steps quietRun quietState a m := fun m e hm he ha hen =>
    ⟨m, hm, (congrArg Event.agent he).trans ha, (congrArg (Event.enabled (quietState m)) he).trans hen⟩
  have none_of : a = .tx ∨ a = .boot ∨ a = .platform → ∃ m, n ≤ m ∧ Steps quietRun quietState a m := fun ha =>
    absurd (h (n + 2) (by omega)) (quiet_no_offer n a ha)
  cases a with
  | main =>
    have hq := (quietState_quiet (6 * (n + 1) + 5)).1
    refine turn (6 * (n + 1) + 5) _ (by omega) (quietEvent_main _ _ (by omega)) ?_ ?_ <;>
      generalize quietState (6 * (n + 1) + 5) = s at hq <;> obtain ⟨hp, hf, _⟩ := hq <;> unfold quietMain <;>
      rcases hp with hp | hp | hp | hp | hp | hp <;> rw [hp] <;> first | rfl | (simp [Event.enabled, hp, hf]; rfl)
  | irq =>
    have hi := (quietEvent_turn (6 * (n + 1) + 2) (quietState (6 * (n + 1) + 2)) (by omega)).2.2.1 (by omega)
    have hc := (quietEvent_turn (6 * (n + 1) + 3) (quietState (6 * (n + 1) + 3)) (by omega)).2.2.2.1 (by omega)
    by_cases h2 : Event.enabled (quietState (6 * (n + 1) + 2)) (.irq .imu) = true
    · exact turn _ _ (by omega) hi rfl h2
    · refine turn _ _ (by omega) hc rfl ?_
      have hs := (quietState_quiet (6 * (n + 1) + 2)).2
      rw [hi] at hs
      have still : runEvent (.irq .imu) (quietState (6 * (n + 1) + 2)) = .next (quietState (6 * (n + 1) + 2)) :=
        congrArg Host.Outcome.next (if_neg h2)
      rw [← Host.Outcome.next.inj (still.symm.trans hs)]
      obtain ⟨e, ha, _, he⟩ := h (6 * (n + 1) + 2) (by omega)
      cases e with
      | irq l =>
        cases l with
        | imu => exact absurd he h2
        | cs => exact he
      | _ => cases ha
  | alert l =>
    cases l with
    | imu => exact turn (6 * (n + 1)) _ (by omega) ((quietEvent_turn _ _ (by omega)).1 (by omega)) rfl rfl
    | cs => exact turn (6 * (n + 1) + 1) _ (by omega) ((quietEvent_turn _ _ (by omega)).2.1 (by omega)) rfl rfl
  | clock =>
    refine turn (6 * (n + 1) + 4) _ (by omega) ((quietEvent_turn _ _ (by omega)).2.2.2.2 (by omega)) rfl ?_
    obtain ⟨e, ha, _, he⟩ := h (6 * (n + 1) + 4) (by omega)
    cases e with
    | clock d =>
      simp only [Event.enabled, Bool.and_eq_true, decide_eq_true_eq] at he ⊢
      have h1 : (1#64 : BitVec 64).toNat = 1 := rfl
      have hd : d.toNat ≠ 0 := fun h => he.1 (BitVec.eq_of_toNat_eq h)
      exact ⟨by decide, by omega⟩
    | _ => cases ha
  | tx => exact none_of (.inl rfl)
  | boot => exact none_of (.inr (.inl rfl))
  | platform => exact none_of (.inr (.inr rfl))

theorem quiet_duties : Duties quietRun quietState where
  host n h := by
    obtain ⟨m, hm, ⟨⟨a, ha⟩, he⟩⟩ := h n (Nat.le_refl n)
    cases a with
    | none => exact ⟨m, hm, ⟨⟨_, ha⟩, he⟩, ha⟩
    | some b => exact absurd ha ((quietEvent_absent m _).1 b)
  service n hp := by
    refine ⟨n + (5 - n % 6), by omega, .inl ?_⟩
    obtain ⟨h1, h2⟩ := quietState_waits n (5 - n % 6) (by omega)
    rw [quietRun, quietEvent_main _ _ (by omega), quietMain, h1, h2, hp]
    rfl
  calibration n hp := by
    rcases (quietState_quiet n).1.phase with h | h | h | h | h | h <;> rw [hp] at h <;> cases h
  sink n hp := by
    have h := (quietState_quiet n).1.txPhase
    rw [hp] at h
    cases h
  boot n l h := by
    rcases h with ⟨rfl, _⟩ | ⟨k, _, hk⟩
    · cases l with
      | imu => exact ⟨0, by omega, .inl rfl⟩
      | cs => exact ⟨1, by omega, .inl rfl⟩
    · exact absurd hk (quietEvent_absent k _).2.2.1
  bootOnce n m l hnm hn hm := by
    rcases (quietEvent_absent n _).2.2.2.2 l hn with ⟨_, rfl⟩ | ⟨_, rfl⟩ <;>
      rcases (quietEvent_absent m _).2.2.2.2 _ hm with ⟨_, h⟩ | ⟨_, h⟩ <;> first | omega | cases h

/-- The fairness and the duties of R9 can be met together, by a run from reset in which HOST is quiet and every line alerts again and
again. -/
theorem fair_run_exists : ∃ (offers : Nat → Event → Prop) (ev : Nat → Event) (st : Nat → State),
    st 0 = State.resetWith Params.default 0#64 ∧ (st 0).Orderly ∧ IsRun offers ev st ∧ WeaklyFair offers ev st ∧ Duties ev st :=
  ⟨quietOffers, quietRun, quietState, rfl, ⟨by decide, fun h => (nomatch h)⟩,
    fun n => ⟨fun _ => rfl, (quietState_quiet n).2⟩, quiet_fair, quiet_duties⟩

end Sys2Proof.Machine
end

