-- ==== Sys2Proof/Tests/Slice0.lean ====
section
/-! SUPPORT. Tests: the ill-formed terms the checks refuse, words written out from the encoding tables, one step of each operation
(expected results from 95_test_vectors.md and from the rules' own examples), and a state and operands that meet the hypotheses of each
statement. -/

namespace Sys2Proof.Tests

open Sys2Proof Sys2Proof.Machine

/-! ### Helpers -/

/-- Just after reset, default parameters, clock 1000. -/
def base : State := State.resetWith Params.default 1000#64

/-- MAIN in DISPATCH with `m` in MB. -/
def atMsg (m : List Byte) : State :=
  { base with
    mphase := 2#4, fsState := .handoff, fb := listed [0x01#8], flen := 1#16
    mb := listed m, mlen := BitVec.ofNat 16 m.length }

/-- MAIN in DECODE with `body` in FB. -/
def atBody (body : List Byte) : State :=
  { base with mphase := 1#4, fsState := .handoff, fb := listed body, flen := BitVec.ofNat 16 body.length }

/-- MAIN in RX, ACCUMULATING, with `n` bytes 0x41 in FB. -/
def accum (n : Nat) : State :=
  { base with fsState := .accumulating, fb := listed (List.replicate n 0x41#8), flen := BitVec.ofNat 16 n }

/-- MAIN in phase `v`. -/
def inState (v : BitVec 4) : State := { base with mphase := v }

/-- TX sending the frame `00 01 00`. -/
def sending : State := { base with txPhase := .send, tb := listed [0x00#8, 0x01#8, 0x00#8], txLen := 3#16 }

/-- DEC in the middle of a decode. -/
def withDec (rest dst : List Byte) (cap : Nat) : State := { base with dec := ⟨rest, dst, 0#4, cap, false⟩ }

/-- The IMU line pending, the CS line enabled and latched. -/
def busy : State := { base with flag := ⟨true, false⟩, ien := ⟨false, true⟩, latch := ⟨false, true⟩ }

/-- The outcome is a next state with property `p`. -/
def after (o : Out) (p : State → Bool) : Bool :=
  match o with
  | .next s => p s
  | .fault _ => false
  | .refused _ => false

/-- The outcome is this fault. -/
def faults (o : Out) (f : Fault) : Bool :=
  match o with
  | .next _ => false
  | .fault g => decide (g = f)
  | .refused _ => false

/-! ### Ill-formed operations (R84, R81, R88, R191, R192, R239) -/

theorem test_wf_unknown_opcode_below_six : (Instr.unknownOpcode 5#8 0#16).wellFormed = false := by decide
theorem test_wf_unknown_opcode_length : (Instr.unknownOpcode 6#8 0xFFFF#16).wellFormed = false := by decide
theorem test_wf_bad_length_unknown : (Instr.badLength 6#8 1#16).wellFormed = false := by decide
theorem test_wf_bad_length_right : (Instr.badLength 0#8 12#16).wellFormed = false := by decide
theorem test_wf_bad_length_long : (Instr.badLength 1#8 0xFFFF#16).wellFormed = false := by decide
theorem test_wf_code_run_zero : (Instr.codeRun 0x00#8).wellFormed = false := by decide
theorem test_wf_code_run_full : (Instr.codeRun 0xFF#8).wellFormed = false := by decide
theorem test_wf_start_data_zero : (Instr.syncStartData 0#8).wellFormed = false := by decide
theorem test_wf_seek_end_data_zero : (Instr.syncSeekEndData 0#8).wellFormed = false := by decide
theorem test_wf_acc_data_zero : (Instr.syncAccData 0#8).wellFormed = false := by decide
theorem test_wf_acc_overflow_zero : (Instr.syncAccOverflow 0#8).wellFormed = false := by decide
theorem test_wf_clock_zero : (Instr.clockTick 0#64).wellFormed = false := by decide
theorem test_wf_accepts : (Instr.badLength 0#8 11#16).wellFormed = true ∧ (Instr.unknownOpcode 6#8 0#16).wellFormed = true ∧
    (Instr.codeRun 0xFE#8).wellFormed = true ∧ (Instr.clockTick 1#64).wellFormed = true := by decide

/-! ### Words of the encoding tables -/

/-- R87, R90, R91: messages written out byte by byte (X1, X5 to X9, X15, X17, X20). -/
theorem test_decode_servo :
    decode (.message [0x00#8, 0x0A#8, 0x14#8, 0x1E#8, 0x28#8, 0x32#8, 0x3C#8, 0x46#8, 0x50#8, 0x5A#8, 0x64#8, 0x6E#8, 0x78#8])
      = .ok (.setServoAngles ⟨10#8, 20#8, 30#8⟩ ⟨40#8, 50#8, 60#8⟩ ⟨70#8, 80#8, 90#8⟩ ⟨100#8, 110#8, 120#8⟩) := by decide
theorem test_decode_requests :
    decode (.message [0x01#8]) = .ok .requestState ∧ decode (.message [0x02#8]) = .ok .calibrateImu ∧
    decode (.message [0x03#8]) = .ok .emitBufferedErrorLog ∧ decode (.message [0x04#8]) = .ok .resetDeadReckoning := by decide
theorem test_decode_options :
    decode (.message [0x05#8, 0x02#8, 0x01#8, 0xF4#8, 0x01#8]) = .ok (.setProgramOptions 2#8 500#16 1#8) := by decide
theorem test_decode_rejected :
    decode (.message [0x09#8, 0x01#8, 0x02#8]) = .ok (.unknownOpcode 0x09#8 2#16) ∧
    decode (.message [0x01#8, 0x00#8]) = .ok (.badLength 0x01#8 1#16) ∧ decode (.message []) = .ok .emptyMessage := by decide
/-- R84. -/
theorem test_decode_code_bytes :
    decode (.code 0b00000000#8) = .ok .codeZero ∧ decode (.code 0b11111111#8) = .ok .codeFull ∧
    decode (.code 0b00000001#8) = .ok (.codeRun 1#8) ∧ decode (.code 0b11111110#8) = .ok (.codeRun 254#8) := by decide
/-- R81, R170. -/
theorem test_decode_wire_bytes :
    decode (.wire .seekStart 0#16 100 0b00000000#8) = .ok .syncStartDelim ∧
    decode (.wire .seekStart 0#16 100 0b01000001#8) = .ok (.syncStartData 0x41#8) ∧
    decode (.wire .seekEnd 0#16 100 0b00000000#8) = .ok .syncSeekEndDelim ∧
    decode (.wire .seekEnd 0#16 100 0b01000001#8) = .ok (.syncSeekEndData 0x41#8) ∧
    decode (.wire .accumulating 0#16 100 0b00000000#8) = .ok .syncAccDelimEmpty ∧
    decode (.wire .accumulating 1#16 100 0b00000000#8) = .ok .syncAccDelimEnd ∧
    decode (.wire .accumulating 99#16 100 0b01000001#8) = .ok (.syncAccData 0x41#8) ∧
    decode (.wire .accumulating 100#16 100 0b01000001#8) = .ok (.syncAccOverflow 0x41#8) ∧
    decode (.wire .handoff 1#16 100 0b01000001#8) = .error .notPolled := by decide
/-- R104. -/
theorem test_decode_grants :
    decode (.grant 0b00#2) = .ok .grantImu ∧ decode (.grant 0b01#2) = .ok .grantCs ∧
    decode (.grant 0b10#2) = .ok .grantPeriodic ∧ decode (.grant 0b11#2) = .ok .grantIdle := by decide
/-- R21: the phases that select a step of MAIN, and those that do not. -/
theorem test_decode_phases :
    decode (.port (.mphase 1#4)) = .ok .decode ∧ decode (.port (.mphase 2#4)) = .ok .dispatch ∧
    decode (.port (.mphase 4#4)) = .ok .arb ∧ decode (.port (.mphase 6#4)) = .ok .rearm1 ∧
    decode (.port (.mphase 7#4)) = .ok .rearm2 ∧ decode (.port (.mphase 8#4)) = .ok .endIter ∧
    decode (.port (.mphase 0#4)) = .error (.awaitsPort 0#4) ∧ decode (.port (.mphase 9#4)) = .error (.illegalPhase 9#4) := by decide
/-- R106: the triggers. -/
theorem test_decode_ports :
    decode (.port (.rxPoll none)) = .ok (.rxPoll none) ∧ decode (.port .calibDone) = .ok .calDone ∧
    decode (.port (.svcDone .cs)) = .ok (.svcDone .cs) ∧ decode (.port (.txReq [7#8])) = .ok (.txReq [7#8]) ∧
    decode (.port .txPut) = .ok .txPut ∧ decode (.port (.irq .imu)) = .ok (.irqFire .imu) ∧
    decode (.port (.alert .cs)) = .ok (.alert .cs) ∧ decode (.port (.arm .imu)) = .ok (.bootArm .imu) ∧
    decode (.port (.clock 5#64)) = .ok (.clockTick 5#64) ∧ decode (.port .rst) = .ok .reset := by decide
theorem test_decode_inside :
    decode (.port .insideFrameDone) = .ok .frameDone ∧ decode (.port .insidePerfFlush) = .ok .perfFlush ∧
    decode (.port (.callEncode [1#8])) = .ok (.encode [1#8]) ∧ decode (.port (.callDecode [1#8] 8)) = .ok (.decodeFn [1#8] 8) := by decide
/-- The table's words in whole bytes, and the space each is read in (log entry 6). -/
theorem test_table_words :
    decodeTableWord 8 1 = some .requestState ∧ decodeTableWord 8 0x40 = some (.unknownOpcode 0x40#8 0#16) ∧
    decodeTableWord 8 0 = some .syncStartDelim ∧ decodeTableWord 8 0xFF = some .codeFull ∧
    decodeTableWord 8 5 = some (.setProgramOptions 0#8 0#16 0#8) ∧
    decodeTableWord 16 0x3000 = some (.setServoAngles ⟨0x30#8, 0#8, 0#8⟩ ⟨0#8, 0#8, 0#8⟩ ⟨0#8, 0#8, 0#8⟩ ⟨0#8, 0#8, 0#8⟩) ∧
    decodeTableWord 0 0 = none := by decide
theorem test_fetch_word_runs :
    after (step (State.reset.withFetchWord 8 1)) (fun t => decide (t.trace = [.stateReq] ∧ t.pending = [])) = true ∧
    after (step (State.reset.withFetchWord 8 0)) (fun t => decide (t.fsState = .accumulating)) = true ∧
    after (step (State.reset.withFetchWord 8 0xFF)) (fun t => decide (t.dstat = 0b1000#4)) = true := by decide

/-! ### Commands (95_test_vectors.md, 2.5) -/

/-- X1. -/
theorem test_servo :
    after (exec .dispatch (atMsg [0x00#8, 0x0A#8, 0x14#8, 0x1E#8, 0x28#8, 0x32#8, 0x3C#8, 0x46#8, 0x50#8, 0x5A#8, 0x64#8, 0x6E#8, 0x78#8]))
      (fun t => decide (t.trace = [.servoCmd ⟨0x0A#8, 0x14#8, 0x1E#8⟩ ⟨0x28#8, 0x32#8, 0x3C#8⟩ ⟨0x46#8, 0x50#8, 0x5A#8⟩
        ⟨0x64#8, 0x6E#8, 0x78#8⟩] ∧ t.mphase = 0#4 ∧ t.mlen = 0#16)) = true := by decide
/-- X2. -/
theorem test_servo_short :
    after (exec .dispatch (atMsg (0x00#8 :: List.replicate 11 0x5A#8)))
      (fun t => decide (t.trace = [.errReport 6#4 0x00#8 11#16 0#4] ∧ t.fsState = .seekStart)) = true := by decide
/-- X5. -/
theorem test_request_state :
    after (exec .dispatch (atMsg [0x01#8])) (fun t => decide (t.trace = [.stateReq] ∧ t.mphase = 0#4)) = true := by decide
/-- X6. -/
theorem test_calibrate :
    after (exec .dispatch (atMsg [0x02#8]))
      (fun t => decide (t.trace = [.calibReq] ∧ t.mphase = 3#4 ∧ t.fsState = .handoff)) = true := by decide
/-- X7. -/
theorem test_error_log :
    after (exec .dispatch (atMsg [0x03#8])) (fun t => decide (t.trace = [.errlogReq] ∧ t.mphase = 0#4)) = true := by decide
/-- X8. -/
theorem test_reset_dead_reckoning :
    after (exec .dispatch (atMsg [0x04#8])) (fun t => decide (t.trace = [.resetDr] ∧ t.mphase = 0#4)) = true := by decide
/-- X9. -/
theorem test_options :
    after (exec .dispatch (atMsg [0x05#8, 0x02#8, 0x01#8, 0xF4#8, 0x01#8]))
      (fun t => decide (t.trace = [.poUpdate 2#8 500#16 true] ∧ t.poInterval = 500#16 ∧ t.deadline = 501000#64 ∧
        t.perfT0 = 1000#64)) = true := by decide
/-- X11. -/
theorem test_options_negative :
    after (exec (.setProgramOptions 1#8 0xFFFE#16 7#8) base)
      (fun t => decide (t.deadline = 0#64 ∧ t.poPerf = true ∧ t.perEn = false)) = true := by decide
/-- X15. -/
theorem test_unknown_opcode :
    after (exec .dispatch (atMsg [0x09#8, 0x01#8, 0x02#8])) (fun t => decide (t.trace = [.errReport 5#4 9#8 2#16 0#4])) = true := by decide
/-- X18. -/
theorem test_bad_length :
    after (exec .dispatch (atMsg [0x05#8, 0x00#8, 0x00#8]))
      (fun t => decide (t.trace = [.errReport 6#4 5#8 2#16 0#4] ∧ t.poInterval = 0xFFFF#16)) = true := by decide
/-- X20. -/
theorem test_empty_message :
    after (exec .dispatch (atMsg [])) (fun t => decide (t.trace = [.errReport 4#4 0#8 0#16 0#4] ∧ t.mphase = 0#4)) = true := by decide
/-- R199's example. -/
theorem test_calibration_done :
    after (exec .calDone { inState 3#4 with fsState := .handoff, flen := 1#16 })
      (fun t => decide (t.mphase = 0#4 ∧ t.fsState = .seekStart ∧ t.flen = 0#16)) = true := by decide

/-! ### Codec (95_test_vectors.md, 2.1 and 2.2) -/

/-- E4, E6, E9, E11. -/
theorem test_encode :
    encodeFn [0x11#8, 0x22#8, 0x00#8, 0x33#8] = [0x03#8, 0x11#8, 0x22#8, 0x02#8, 0x33#8] ∧
    encodeFn [0x11#8, 0x00#8, 0x00#8, 0x00#8] = [0x02#8, 0x11#8, 0x01#8, 0x01#8, 0x01#8] ∧
    encodeFn [0x00#8, 0x11#8] = [0x01#8, 0x02#8, 0x11#8] ∧
    encodeFn [0x11#8, 0x22#8, 0x33#8, 0x00#8] = [0x04#8, 0x11#8, 0x22#8, 0x33#8, 0x01#8] := by decide
/-- E12, E13. -/
theorem test_encode_full_block :
    encodeFn (List.replicate 254 1#8) = 0xFF#8 :: List.replicate 254 1#8 ∧
    encodeFn (List.replicate 255 1#8) = 0xFF#8 :: List.replicate 254 1#8 ++ [2#8, 1#8] := by
  set_option maxRecDepth 20000 in decide
/-- D3, D4, D5, D8. -/
theorem test_decode_fn :
    decodeFn [0x05#8, 0x11#8, 0x22#8] 8 = ([0x11#8, 0x22#8], 0b1000#4) ∧
    decodeFn [0x03#8, 0x11#8, 0x00#8] 8 = ([0x11#8, 0x00#8], 0b0100#4) ∧
    decodeFn [0x00#8] 8 = ([], 0b0100#4) ∧
    decodeFn [0x03#8, 0x11#8, 0x22#8, 0x02#8, 0x33#8] 2 = ([0x11#8, 0x22#8], 0b0010#4) := by decide
/-- The two combined vectors of 2.7. -/
theorem test_decode_fn_combined :
    decodeFn [0x04#8, 0x11#8, 0x00#8] 8 = ([0x11#8, 0x00#8], 0b1100#4) ∧
    decodeFn [0x02#8, 0x11#8, 0x03#8, 0x22#8] 1 = ([0x11#8], 0b0010#4) := by decide
/-- R124. -/
theorem test_code_zero :
    after (exec .codeZero (withDec [0x22#8] [0x11#8] 8))
      (fun t => decide (t.dec = ⟨[0x22#8], [0x11#8], 0b0100#4, 8, true⟩)) = true := by decide
/-- R125's example, its first code byte. -/
theorem test_code_run :
    after (exec (.codeRun 2#8) (withDec [0x11#8, 0x01#8] [] 4))
      (fun t => decide (t.dec = ⟨[0x01#8], [0x11#8, 0x00#8], 0#4, 4, false⟩)) = true := by decide
/-- R126: 254 bytes and no zero. -/
theorem test_code_full :
    after (exec .codeFull (withDec (List.replicate 255 7#8) [] 300))
      (fun t => decide (t.dec.rest = [7#8] ∧ t.dec.dst.length = 254 ∧ t.dec.stat = 0#4 ∧ t.dec.ended = false)) = true := by
  set_option maxRecDepth 20000 in decide

/-! ### Frame synchronizer (95_test_vectors.md, 2.4) -/

/-- S2. -/
theorem test_start_data :
    after (exec (.rxPoll (some 0x41#8)) base)
      (fun t => decide (t.fsState = .seekEnd ∧ t.trace = [.rxAnswer (some 0x41#8), .errReport 2#4 0x41#8 0#16 0#4])) = true := by decide
/-- R161's example. -/
theorem test_start_delim :
    after (exec (.rxPoll (some 0x00#8)) base) (fun t => decide (t.fsState = .accumulating ∧ t.flen = 0#16)) = true := by decide
/-- S3, S4. -/
theorem test_seek_end :
    after (exec (.rxPoll (some 0x41#8)) { base with fsState := .seekEnd })
      (fun t => decide (t.fsState = .seekEnd ∧ t.trace = [.rxAnswer (some 0x41#8)])) = true ∧
    after (exec (.rxPoll (some 0x00#8)) { base with fsState := .seekEnd }) (fun t => decide (t.fsState = .seekStart)) = true := by decide
/-- S5, S7. -/
theorem test_acc_delim :
    after (exec (.rxPoll (some 0x00#8)) (accum 0)) (fun t => decide (t.fsState = .accumulating ∧ t.mphase = 0#4)) = true ∧
    after (exec (.rxPoll (some 0x00#8)) (accum 2)) (fun t => decide (t.fsState = .handoff ∧ t.mphase = 1#4)) = true := by decide
/-- S8. -/
theorem test_acc_data_last :
    after (exec (.rxPoll (some 0x42#8)) (accum 99))
      (fun t => decide (t.fsState = .accumulating ∧ t.flen = 100#16 ∧ t.fb.read 99 = some 0x42#8)) = true := by
  set_option maxRecDepth 20000 in decide
/-- S9. -/
theorem test_acc_overflow :
    after (exec (.rxPoll (some 0x41#8)) (accum 100))
      (fun t => decide (t.fsState = .seekEnd ∧ t.flen = 0#16 ∧ t.trace.getLast? = some (.errReport 1#4 0x41#8 100#16 0#4))) = true := by
  set_option maxRecDepth 20000 in decide
/-- S14. -/
theorem test_poll_none :
    after (exec (.rxPoll none) base) (fun t => decide (t.mphase = 4#4 ∧ t.fsState = .seekStart)) = true := by decide
/-- S10. -/
theorem test_decode_fails :
    after (exec .decode (atBody [0x05#8, 0x11#8, 0x22#8]))
      (fun t => decide (t.trace = [.errReport 3#4 0#8 3#16 0b1000#4] ∧ t.mphase = 0#4 ∧ t.fsState = .seekStart ∧ t.dstat = 0b1000#4)) = true := by
  decide
theorem test_decode_succeeds :
    after (exec .decode (atBody [0x02#8, 0x01#8]))
      (fun t => decide (t.mphase = 2#4 ∧ t.mlen = 1#16 ∧ t.mb.read 0 = some 0x01#8 ∧ t.trace = [])) = true := by decide
/-- R172. -/
theorem test_frame_done :
    after (exec .frameDone (atMsg [0x01#8]))
      (fun t => decide (t.flen = 0#16 ∧ t.mlen = 0#16 ∧ t.fb.read 0 = none ∧ t.fsState = .seekStart ∧ t.mphase = 0#4)) = true := by decide
/-- R21, R14, R62. -/
theorem test_faults :
    faults (exec .arb (inState 9#4)) (.illegalPhase 9#4) = true ∧
    faults (exec .decode { inState 1#4 with flen := 1#16 }) (.noValue .fb 0) = true ∧
    faults (exec .txPut { sending with txIdx := 3#16 }) (.beyondFill .tb 3) = true := by decide

/-! ### Handoff (95_test_vectors.md, 2.6) -/

/-- H1, H2. -/
theorem test_arb_sensors :
    after (exec .arb { inState 4#4 with flag := ⟨true, true⟩ })
      (fun t => decide (t.flag = ⟨false, true⟩ ∧ t.svcLine = .imu ∧ t.mphase = 5#4 ∧ t.trace = [.svcReq .imu])) = true ∧
    after (exec .arb { inState 4#4 with flag := ⟨false, true⟩ })
      (fun t => decide (t.flag = ⟨false, false⟩ ∧ t.svcLine = .cs ∧ t.trace = [.svcReq .cs])) = true := by decide
/-- H3, H4. -/
theorem test_arb_periodic_idle :
    after (exec .arb { inState 4#4 with poInterval := 500#16, deadline := 501000#64, nowUs := 501200#64 })
      (fun t => decide (t.deadline = 1001000#64 ∧ t.mphase = 8#4 ∧ t.trace = [.telemReq])) = true ∧
    after (exec .arb { inState 4#4 with poPerf := true, idleCount := 7#16 })
      (fun t => decide (t.idleCount = 8#16 ∧ t.mphase = 8#4 ∧ t.trace = [])) = true := by decide
theorem test_grants :
    after (exec .grantImu { base with flag := ⟨true, true⟩ }) (fun t => decide (t.flag = ⟨false, true⟩ ∧ t.mphase = 5#4)) = true ∧
    after (exec .grantCs { base with flag := ⟨false, true⟩ }) (fun t => decide (t.flag = ⟨false, false⟩ ∧ t.svcLine = .cs)) = true ∧
    after (exec .grantPeriodic { base with poInterval := 2#16, deadline := 5000#64 }) (fun t => decide (t.deadline = 7000#64)) = true ∧
    after (exec .grantIdle { base with idleCount := 7#16 }) (fun t => decide (t.idleCount = 7#16 ∧ t.mphase = 8#4)) = true := by decide
/-- H9, R237's example. -/
theorem test_service_done :
    after (exec (.svcDone .cs) (inState 5#4)) (fun t => decide (t.mphase = 5#4 ∧ t.trace = [])) = true ∧
    after (exec (.svcDone .imu) (inState 5#4)) (fun t => decide (t.mphase = 6#4)) = true := by decide
/-- H7. -/
theorem test_rearm :
    after (exec .rearm1 { inState 6#4 with latch := ⟨true, false⟩, ien := ⟨false, true⟩ })
      (fun t => decide (t.latch = ⟨false, false⟩ ∧ t.ien = ⟨false, true⟩ ∧ t.mphase = 7#4)) = true ∧
    after (exec .rearm2 { inState 7#4 with ien := ⟨false, true⟩ }) (fun t => decide (t.ien = ⟨true, true⟩ ∧ t.mphase = 8#4)) = true := by
  decide
/-- H11, H12. -/
theorem test_end :
    after (exec .endIter { inState 8#4 with poPerf := true, loopCount := 41#16 })
      (fun t => decide (t.loopCount = 42#16 ∧ t.mphase = 0#4)) = true ∧
    after (exec .endIter { inState 8#4 with loopCount := 5#16 }) (fun t => decide (t.loopCount = 5#16 ∧ t.mphase = 0#4)) = true := by decide
/-- H10. -/
theorem test_perf_flush :
    after (exec .endIter { inState 8#4 with
        poPerf := true, loopCount := 9999#16, idleCount := 9000#16, perfT0 := 1000#64, nowUs := 251000#64 })
      (fun t => decide (t.trace = [.perfReq 9000#16 250000#32] ∧ t.loopCount = 0#16 ∧ t.idleCount = 0#16 ∧ t.perfT0 = 251000#64)) = true := by
  decide
/-- H5. -/
theorem test_irq_fire :
    after (exec (.irqFire .imu) { base with ien := ⟨true, true⟩, latch := ⟨true, false⟩ })
      (fun t => decide (t.ien = ⟨false, true⟩ ∧ t.latch = ⟨false, false⟩ ∧ t.flag = ⟨true, false⟩ ∧ t.trace = [])) = true := by decide
/-- H6. -/
theorem test_alert_disabled :
    after (exec (.alert .imu) { base with ien := ⟨false, true⟩ })
      (fun t => decide (t.latch = ⟨true, false⟩ ∧ t.flag = ⟨false, false⟩)) = true := by decide
/-- H14, H15. -/
theorem test_boot_arm :
    after (exec (.bootArm .imu) { base with latch := ⟨true, false⟩ })
      (fun t => decide (t.latch = ⟨false, false⟩ ∧ t.ien = ⟨true, false⟩)) = true ∧
    after (exec (.bootArm .imu) { base with ien := ⟨true, false⟩ })
      (fun t => decide (t.ien = ⟨true, false⟩ ∧ t.trace = [])) = true := by decide
/-- R239. -/
theorem test_clock :
    after (exec (.clockTick 499000#64) base) (fun t => decide (t.nowUs = 500000#64)) = true := by decide

/-! ### Transmit framer (R130's example; P5) and reset (Z1) -/

theorem test_tx_req :
    after (exec (.txReq [0x07#8, 0x00#8, 0x05#8, 0x00#8, 0x00#8, 0x01#8, 0x2C#8]) base)
      (fun t => decide (t.txLen = 10#16 ∧ t.txPhase = .send ∧
        t.tb = listed [0x00#8, 0x02#8, 0x07#8, 0x02#8, 0x05#8, 0x01#8, 0x03#8, 0x01#8, 0x2C#8, 0x00#8])) = true := by decide
theorem test_tx_req_overflow :
    after (exec (.txReq (List.replicate 129 0x06#8)) base)
      (fun t => decide (t.txPhase = .idle ∧ t.tb = [] ∧ t.trace.getLast? = some (.errReport 7#4 0x06#8 129#16 0#4))) = true := by
  set_option maxRecDepth 20000 in decide
theorem test_tx_put :
    after (exec .txPut sending) (fun t => decide (t.trace = [.txPut 0x00#8] ∧ t.txIdx = 1#16 ∧ t.txPhase = .send)) = true ∧
    after (exec .txPut { sending with txIdx := 2#16 }) (fun t => decide (t.txIdx = 3#16 ∧ t.txPhase = .idle)) = true := by decide
theorem test_reset :
    after (exec .reset { sending with mphase := 5#4, flag := ⟨false, true⟩, poInterval := 500#16 })
      (fun t => decide (t = base)) = true := by decide

/-! ### The hypotheses of the statements can be met -/

theorem witness_servo_command :
    (atMsg [0x00#8, 1#8, 2#8, 3#8, 4#8, 5#8, 6#8, 7#8, 8#8, 9#8, 10#8, 11#8, 12#8]).atMessage
      [0x00#8, 1#8, 2#8, 3#8, 4#8, 5#8, 6#8, 7#8, 8#8, 9#8, 10#8, 11#8, 12#8] ∧
    (atMsg (0x00#8 :: List.replicate 13 0x5A#8)).atMessage (0x00#8 :: List.replicate 13 0x5A#8) ∧
    (List.replicate 13 0x5A#8 : List Byte).length ≠ 12 := by decide
theorem witness_plain_requests :
    (atMsg [0x01#8]).atMessage [0x01#8] ∧ (atMsg [0x03#8]).atMessage [0x03#8] ∧ (atMsg [0x04#8]).atMessage [0x04#8] ∧
    (atMsg [0x01#8, 0#8]).atMessage [0x01#8, 0#8] := by decide
theorem witness_calibrate :
    (atMsg [0x02#8]).atMessage [0x02#8] ∧ (atMsg [0x02#8, 9#8]).atMessage [0x02#8, 9#8] ∧
    ({ busy with mphase := 3#4 }.mphase = 3#4 ∧ busy.ien.get .cs = true ∧ busy.latch.get .cs = true) ∧
    ((inState 8#4).mphase ≤ 8#4 ∧ (inState 8#4).mphase ≠ 3#4) := by decide
theorem witness_options :
    (atMsg [0x05#8, 2#8, 0x80#8, 0x00#8, 1#8]).atMessage [0x05#8, 2#8, 0x80#8, 0x00#8, 1#8] ∧
    (atMsg [0x05#8, 2#8, 1#8]).atMessage [0x05#8, 2#8, 1#8] ∧
    after (exec (.setProgramOptions 3#8 (0x00#8 ++ 0x00#8) 0#8) base) (fun t => t.perEn && t.deadlineReached) = true ∧
    after (exec (.setProgramOptions 3#8 (0x01#8 ++ 0xF4#8) 1#8) base) (fun t => decide (t.poPorts = (3#8, 500#16, true))) = true := by decide
theorem witness_protocol_errors :
    (5#8 < 6#8 ∧ (atMsg [0x06#8]).atMessage [0x06#8]) ∧ (5#8 < 0xFF#8 ∧ (atMsg [0xFF#8, 1#8]).atMessage [0xFF#8, 1#8]) ∧
    (atMsg [0x00#8]).atMessage [0x00#8] ∧ (atMsg [0x04#8, 1#8]).atMessage [0x04#8, 1#8] ∧ (atMsg [0x05#8]).atMessage [0x05#8] ∧
    (atMsg []).atMessage [] := by decide
theorem witness_dispatch_runs :
    (atMsg [0x01#8]).atMessage [0x01#8] ∧ decode (.message [0x01#8]) = .ok .requestState ∧
    exec .requestState (atMsg [0x01#8]) = .next { atMsg [0x01#8] with trace := [.stateReq] } := ⟨by decide, by decide, rfl⟩
theorem witness_dispatch_never_blocks :
    (atMsg [0x02#8]).atMessage [0x02#8] ∧ (atMsg [0x01#8]).atMessage [0x01#8] ∧
    (inState 3#4).mphase = 3#4 ∧ runEvent .main (inState 3#4) = .next (inState 3#4) := ⟨by decide, by decide, by decide, rfl⟩
theorem witness_code_zero : (withDec [] [] 0).dec.ended = false := by decide
/-- One decode for each clause, at `c` = 2 and 3 and capacity 2. -/
theorem witness_code_run :
    ((2#8 : Byte).toNat - 1 = [7#8].length ∧ [5#8].length + 1 ≤ 2) ∧ (1 < [7#8, 1#8].length ∧ ([] : List Byte).length + 1 < 2) ∧
    (1 < [7#8, 1#8].length ∧ [5#8].length + 1 = 2) ∧ ([7#8].length < (3#8 : Byte).toNat - 1 ∧ [5#8].length + [7#8].length ≤ 2) ∧
    (1 ≤ [7#8].length ∧ 2 < [5#8, 5#8].length + 1) ∧ ([7#8].length < (3#8 : Byte).toNat - 1 ∧ 2 < [5#8, 5#8].length + [7#8].length) ∧
    (withDec [7#8] [5#8, 5#8] 2).dec = ⟨[7#8], [5#8, 5#8], 0#4, 2, false⟩ ∧ (0#4 : BitVec 4).getLsbD 1 = false := by decide
theorem witness_code_run_ends : 1#8 ≤ 1#8 ∧ (1#8 : Byte) ≤ 0xFE#8 ∧ 1#8 ≤ 0xFE#8 ∧ (0xFE#8 : Byte) ≤ 0xFE#8 := by decide
theorem witness_code_full :
    ((List.replicate 254 7#8 : List Byte).length = 254 ∧ [5#8].length + 254 ≤ 255) ∧
    (254 < (List.replicate 255 7#8 : List Byte).length ∧ ([] : List Byte).length + 254 ≤ 254) ∧
    ((List.replicate 253 7#8 : List Byte).length < 254 ∧ ([] : List Byte).length + 253 ≤ 253) ∧
    (254 ≤ (List.replicate 254 7#8 : List Byte).length ∧ 253 < ([] : List Byte).length + 254) ∧
    ((List.replicate 253 7#8 : List Byte).length < 254 ∧ 252 < ([] : List Byte).length + 253) ∧
    (withDec [7#8] [5#8] 255).dec = ⟨[7#8], [5#8], 0#4, 255, false⟩ := by
  set_option maxRecDepth 20000 in decide
theorem witness_decoder_passes :
    (withDec [7#8] [5#8] 1).dec.dst.length ≤ 1 ∧ (withDec [7#8] [5#8] 1).dec.ended = false ∧
    base.dec.dst.length ≤ base.dec.cap ∧ base.dec.ended = true := by decide
theorem witness_decode_inverts : [0x00#8, 7#8].length ≤ 2 ∧ decodeFn (encodeFn [0x00#8, 7#8]) 2 = ([0x00#8, 7#8], 0#4) := by decide
theorem witness_encoded_length : (0x00#8 : Byte) ∉ [7#8, 8#8] ∧ (encodeFn [7#8, 8#8]).length = 3 := by decide
theorem witness_frame_body : (0x00#8 : Byte) ∉ [0x05#8, 0x11#8] ∧ [0x05#8, 0x11#8].length ≤ 1 + 1 ∧
    (decodeFn [0x05#8, 0x11#8] 1).2 = 0b1000#4 := by decide
theorem witness_seek :
    base.mphase = 0#4 ∧ base.fsState = .seekStart ∧ { base with fsState := .seekEnd }.fsState = .seekEnd ∧ (0xFF#8 : Byte) ≠ 0x00#8 := by
  decide
theorem witness_frame_delimiter :
    ((accum 0).mphase = 0#4 ∧ (accum 0).fsState = .accumulating ∧ (accum 0).flen = 0#16) ∧
    (1#16 ≤ (accum 1).flen ∧ (accum 1).mphase = 0#4 ∧ (accum 1).fsState = .accumulating) := by decide
theorem witness_frame_data :
    ((accum 99).flen.toNat < (accum 99).params.frameCap ∧ (accum 99).mphase = 0#4) ∧
    (accum 100).params.frameCap ≤ (accum 100).flen.toNat ∧ faults (exec (.syncAccData 1#8) (accum 100)) (.beyondCapacity .fb 100) = true := by
  decide
theorem witness_frame_overflow :
    (accum 100).mphase = 0#4 ∧ (accum 100).fsState = .accumulating ∧ (accum 100).flen.toNat = (accum 100).params.frameCap := by decide
theorem witness_poll :
    (base.mphase = 0#4 ∧ base.fsState ≠ .handoff) ∧
    decode (.wire base.fsState base.flen base.params.frameCap 0x41#8) = .ok (.syncStartData 0x41#8) ∧
    ((inState 8#4).mphase ≤ 8#4 ∧ (inState 8#4).mphase ≠ 0#4) ∧
    ({ base with fsState := .handoff }.mphase = 0#4 ∧ { base with fsState := .handoff }.fsState = .handoff) := by decide
theorem witness_decode_step :
    (atBody [0x05#8, 0x11#8, 0x22#8]).atFrame [0x05#8, 0x11#8, 0x22#8] ∧
    decodeFn [0x05#8, 0x11#8, 0x22#8] 100 = ([0x11#8, 0x22#8], 0b1000#4) ∧
    (atBody [0x02#8, 0x01#8]).atFrame [0x02#8, 0x01#8] ∧ decodeFn [0x02#8, 0x01#8] 100 = ([0x01#8], 0b0000#4) := by decide
theorem witness_host_frame :
    base.params.Valid ∧ base.mphase = 0#4 ∧ base.fsState = .seekStart ∧ [0x02#8, 0x01#8] ≠ [] ∧ (0x00#8 : Byte) ∉ [0x02#8, 0x01#8] ∧
    [0x02#8, 0x01#8].length ≤ base.params.frameCap := by decide
theorem witness_host_message : (encodeFn [0x01#8, 0x00#8]).length ≤ base.params.frameCap := by decide
theorem witness_overlong :
    (accum 0).params.Valid ∧ (accum 0).mphase = 0#4 ∧ (accum 0).fsState = .accumulating ∧ (accum 0).flen = 0#16 ∧
    (0x00#8 : Byte) ∉ List.replicate 101 0x41#8 ∧ (accum 0).params.frameCap < (List.replicate 101 0x41#8 : List Byte).length := by
  set_option maxRecDepth 20000 in decide
theorem witness_garbage : base.mphase = 0#4 ∧ base.fsState = .seekStart ∧ (0x00#8 : Byte) ∉ [0x41#8, 0x42#8] := by decide
theorem witness_grants : { base with poPerf := true }.poPerf = true ∧ base.poPerf = false := by decide
theorem witness_arbitration :
    ((inState 4#4).mphase = 4#4 ∧ { inState 4#4 with flag := ⟨true, true⟩ }.flag.imu = true) ∧
    ({ inState 4#4 with flag := ⟨false, true⟩ }.flag.imu = false ∧ { inState 4#4 with flag := ⟨false, true⟩ }.flag.cs = true) ∧
    (0 ≤ (0#16 : BitVec 16).toInt ∧ { inState 4#4 with deadline := 1000#64 }.deadline ≤ base.nowUs) ∧
    ((0x8000#16 : BitVec 16).toInt < 0) ∧ base.nowUs < (1001#64 : BitVec 64) := by decide
theorem witness_service_end :
    ((inState 5#4).mphase ≤ 8#4 ∧ (inState 5#4).svcLine = .imu) ∧ (inState 5#4).svcLine ≠ .cs ∧ (inState 8#4).mphase ≠ 5#4 ∧
    (inState 6#4).svcLine = .imu ∧ { inState 7#4 with svcLine := .cs }.svcLine = .cs := by decide
theorem witness_end :
    ((inState 8#4).mphase = 8#4 ∧ (inState 8#4).poPerf = false) ∧ (9998#16 : BitVec 16).toNat + 1 ≠ 10000 ∧
    (9999#16 : BitVec 16).toNat + 1 = 10000 ∧ { inState 8#4 with poPerf := true }.poPerf = true := by decide
theorem witness_irq :
    (busy.ien.cs = true ∧ busy.latch.cs = true) ∧ (busy.ien.get .imu = false) ∧
    { base with ien := ⟨true, true⟩, latch := ⟨true, false⟩ }.ien.imu = true := by decide
theorem witness_clock :
    ((1#64 : BitVec 64) ≠ 0#64 ∧ base.nowUs.toNat + (1#64 : BitVec 64).toNat < 2 ^ 64) ∧
    2 ^ 64 ≤ base.nowUs.toNat + (0xFFFFFFFFFFFFFC18#64 : BitVec 64).toNat := by decide
theorem witness_boot_arm :
    base.mphase ≤ 8#4 ∧ base.ien.cs = false ∧ base.flag.cs = false ∧
    ¬ ((base.mphase = 5#4 ∨ base.mphase = 6#4 ∨ base.mphase = 7#4) ∧ base.svcLine = .cs) ∧ base.svcLine = .imu ∧
    ((inState 7#4).mphase = 7#4 ∧ (inState 7#4).svcLine = .imu) := by decide
theorem witness_rearm_window : (inState 6#4).mphase = 6#4 ∧ (inState 6#4).svcLine = .imu := by decide

/-- A state with the invariant in which one line is pending and the other is about to fire. -/
theorem witness_busy_inv : busy.Inv where
  params_valid := by decide
  phase_legal := by decide
  pending_disabled l := by cases l <;> decide
  serviced_disabled l := by cases l <;> decide
  handoff_phase := by decide
  seek_empty := by decide
  handoff_nonempty := by decide
  flen_bound := by decide
  mlen_bound := by decide
  message_phase := by decide
  loop_bound := by decide
  idle_bound := by decide
  tx_idle := by decide
  tx_send := by decide
  tx_bound := by decide
  dstat_null := by decide
  fb_nonzero := by decide
  fb_filled := by decide
  mb_filled := by decide
  tb_filled := by decide
  fb_within := by decide
  mb_within := by decide
  tb_within := by decide
  fb_wf := by decide
  mb_wf := by decide
  tb_wf := by decide
  dec_bound := by decide
  dec_running := by decide
theorem witness_firings :
    Event.rst ∉ [Event.irq .cs, .rxPoll none, .main] ∧
    after (runEvents [.irq .cs, .rxPoll none, .main] busy) (fun t => decide (t.flag = ⟨false, true⟩)) = true ∧
    firings .cs [.irq .cs, .rxPoll none, .main] busy = 1 := by decide
theorem witness_iteration :
    busy.mphase = 0#4 ∧ busy.flag.imu = true ∧
    after (runEvents [.rxPoll none, .main, .svcDone .imu, .main, .main, .main] busy)
      (fun t => decide (t.mphase = 0#4 ∧ t.ien = ⟨true, true⟩ ∧ t.trace = [.rxAnswer none, .svcReq .imu, .svcDone .imu])) = true ∧
    { busy with flag := ⟨false, true⟩ }.flag.cs = true ∧ base.flag.cs = false ∧ base.flag.imu = false := by decide
theorem witness_step_from_inv :
    after (step { busy with pending := [.irq .cs] }) (fun t => decide (t.flag = ⟨true, true⟩)) = true := by decide
theorem witness_periodic :
    Instr.reset ∉ [Instr.dispatch, .rxPoll none, .arb, .endIter] ∧
    after (runInstrs [.dispatch, .rxPoll none, .arb, .endIter] { atMsg [0x01#8] with poInterval := 2#16, deadline := 500#64 })
      (fun t => decide (t.trace = [.stateReq, .rxAnswer none, .telemReq] ∧ t.deadline = 2500#64 ∧ telemReqs t.trace = 1)) = true := by
  decide
theorem witness_tx_req :
    (base.txPhase = .idle ∧ [7#8].length ≤ base.params.txMsgCap ∧ (encodeFn [7#8]).length ≤ base.params.txEncCap) ∧
    base.params.txMsgCap < (List.replicate 129 0x06#8 : List Byte).length ∧
    { base.params with txEncCap := 1 }.txEncCap < (encodeFn [7#8]).length ∧ sending.txPhase = .send := by
  set_option maxRecDepth 20000 in decide
theorem witness_tx_put :
    (sending.txPhase = .send ∧ sending.txIdx.toNat < sending.txLen.toNat ∧ sending.tb.read sending.txIdx.toNat = some 0x00#8) ∧
    { sending with txIdx := 2#16 }.txIdx.toNat < sending.txLen.toNat ∧ sending.txLen.toNat ≤ { sending with txIdx := 3#16 }.txIdx.toNat ∧
    base.txPhase = .idle := by decide
theorem witness_transmit :
    base.params.Valid ∧ base.txPhase = .idle ∧ [0x07#8, 0x00#8].length ≤ base.params.txMsgCap ∧
    (encodeFn [0x07#8, 0x00#8]).length ≤ base.params.txEncCap := by decide
theorem witness_encoder_capacity : Params.default.txEncCap = maxEnc Params.default.txMsgCap ∧ [7#8].length ≤ 128 := by decide
theorem witness_decode_encode :
    (Instr.badLength 0#8 11#16).wellFormed = true ∧ decode (encode (.badLength 0#8 11#16)) = .ok (.badLength 0#8 11#16) := by decide
theorem witness_decoded_well_formed :
    [0x09#8, 1#8].length ≤ 65535 ∧ Encoded.message [0x09#8, 1#8] ≠ .port (.clock 0#64) ∧
    decode (.message [0x09#8, 1#8]) = .ok (.unknownOpcode 0x09#8 1#16) := by decide
theorem witness_step_runs :
    { base with pending := [.clock 5#64] }.pending = [.clock 5#64] ∧ base.pending = [] ∧
    decode (.port (Event.trigger (inState 4#4) .main)) = .ok .arb ∧ (inState 3#4).mphase = 3#4 ∧ 8#4 < (inState 9#4).mphase := by decide
theorem witness_events_wait :
    base.mphase ≤ 8#4 ∧ Event.enabled base .main = false ∧ Event.enabled base (.irq .imu) = false ∧
    Event.enabled base (.svcDone .imu) = false ∧ Event.enabled busy (.arm .imu) = false ∧ Event.enabled base .txPut = false ∧
    Event.enabled base (.clock 0#64) = false ∧ Event.enabled sending (.txReq []) = false := by decide
theorem witness_main_waits :
    (Instr.arb, 4#4) ∈ [(Instr.rxPoll none, 0#4), (.decode, 1#4), (.arb, 4#4)] ∧ base.mphase ≤ 8#4 ∧ base.mphase ≠ 4#4 ∧
    8#4 < (inState 15#4).mphase := by decide
theorem witness_reset_values : State.resetWith Params.default 7#64 = State.resetWith Params.default 7#64 ∧ Params.default.Valid := by decide
theorem witness_buffers :
    base.fb.wf ∧ base.mb.wf ∧ base.tb.wf ∧ after (exec (.syncAccData 7#8) base) (fun t => decide (t.fb = [(0, 7#8)])) = true := by decide
theorem witness_shared_bits :
    after (exec (.irqFire .cs) busy) (fun t => !busy.flag.get .cs && t.flag.get .cs && busy.ien.get .cs && !t.ien.get .cs) = true ∧
    after (exec .grantImu busy) (fun t => busy.flag.get .imu && !t.flag.get .imu) = true ∧
    after (exec .arb { busy with mphase := 4#4, flag := ⟨true, true⟩ }) (fun t => !t.flag.get .imu && t.flag.get .cs) = true ∧
    after (exec .arb { busy with mphase := 4#4, flag := ⟨false, true⟩ }) (fun t => !t.flag.get .cs) = true ∧
    after (exec .reset busy) (fun t => !t.flag.get .imu && !t.ien.get .cs && !t.latch.get .cs) = true ∧
    after (exec (.bootArm .imu) base) (fun t => !base.ien.get .imu && t.ien.get .imu) = true ∧
    after (exec (.alert .imu) base) (fun t => !base.latch.get .imu && t.latch.get .imu) = true := by decide
theorem witness_options_change :
    after (exec (.setProgramOptions 2#8 500#16 1#8) base)
      (fun t => decide (t.poPorts ≠ base.poPorts ∧ t.trace = [.poUpdate 2#8 500#16 true])) = true := by decide
theorem witness_clock_moves : after (exec (.clockTick 1#64) base) (fun t => decide (t.nowUs ≠ base.nowUs)) = true := by decide
theorem witness_reports : after (exec .emptyMessage base) (fun t => t.trace.any Transaction.isReport) = true := by decide

end Sys2Proof.Tests
end

section
/-! The reset state (R47, R321). -/

namespace Sys2Proof.Machine

/-- R24, R26, R42: reset leaves no byte of FB, MB or TB with a value. -/
@[simp] theorem resetWith_buffer_read (p : Params) (now : BitVec 64) (sp : Space) (a : Nat) :
    ((State.resetWith p now).buffer sp).read a = none := by
  cases sp
  case fb => exact Memory.read_nil a
  case mb => exact Memory.read_nil a
  case tb => exact Memory.read_nil a

/-- Settles O50: the registers have their values by the definition of the reset state, the buffers by `resetWith_buffer_read`, and
the clock of `State.reset` is the one the configuration draws. -/
theorem resetValues : Obligations.ResetValues := by
  refine ⟨?_, Config.clockAtReset, rfl⟩
  rintro p now s rfl
  have buffers (a : Nat) :
      (State.resetWith p now).fb.read a = none ∧ (State.resetWith p now).mb.read a = none ∧
        (State.resetWith p now).tb.read a = none :=
    ⟨resetWith_buffer_read p now .fb a, resetWith_buffer_read p now .mb a, resetWith_buffer_read p now .tb a⟩
  exact ⟨rfl, rfl, rfl, buffers, rfl, rfl, rfl, rfl, rfl, rfl, rfl, rfl, rfl, rfl, rfl, rfl, rfl, rfl, rfl, rfl, rfl⟩

end Sys2Proof.Machine
end

section
/-! Which operation a message decodes to (30_encoding.md, R87 to R95). -/

namespace Sys2Proof.Machine

/-- The table of R87, a row for each command, and the two rejections of R190: which operation a message of this opcode and payload
selects. -/
inductive Selects : Byte → List Byte → Instr → Prop
  | setServoAngles (rf rb lf lb : Leg) :
      Selects 0#8 (rf.bytes ++ rb.bytes ++ lf.bytes ++ lb.bytes) (.setServoAngles rf rb lf lb)
  | requestState : Selects 1#8 [] .requestState
  | calibrateImu : Selects 2#8 [] .calibrateImu
  | emitBufferedErrorLog : Selects 3#8 [] .emitBufferedErrorLog
  | resetDeadReckoning : Selects 4#8 [] .resetDeadReckoning
  | setProgramOptions (level hi lo perf : Byte) :
      Selects 5#8 [level, hi, lo, perf] (.setProgramOptions level (be16 hi lo) perf)
  | unknownOpcode {op : Byte} (p : List Byte) (h : 5#8 < op) : Selects op p (.unknownOpcode op (BitVec.ofNat 16 p.length))
  | badLength {op : Byte} (p : List Byte) (h : op ≤ 5#8) (hp : expectedPlen op ≠ some p.length) :
      Selects op p (.badLength op (BitVec.ofNat 16 p.length))

/-- Any 12 bytes are the angles of four legs (R90). -/
theorem exists_legs_of_length (p : List Byte) (h : p.length = 12) :
    ∃ rf rb lf lb : Leg, p = rf.bytes ++ rb.bytes ++ lf.bytes ++ lb.bytes :=
  match p, h with
  | [a0, a1, a2, a3, a4, a5, a6, a7, a8, a9, a10, a11], _ => ⟨⟨a0, a1, a2⟩, ⟨a3, a4, a5⟩, ⟨a6, a7, a8⟩, ⟨a9, a10, a11⟩, rfl⟩

theorem exists_options_of_length (p : List Byte) (h : p.length = 4) :
    ∃ level hi lo perf : Byte, p = [level, hi, lo, perf] :=
  match p, h with
  | [level, hi, lo, perf], _ => ⟨level, hi, lo, perf, rfl⟩

/-- Every message of at least one byte selects an operation: an opcode above 5, a wrong length, or one row for each opcode. -/
theorem exists_selects (op : Byte) (p : List Byte) : ∃ i, Selects op p i := by
  by_cases hop : 5#8 < op
  · exact ⟨_, .unknownOpcode p hop⟩
  have hle : op ≤ 5#8 := by bv_omega
  by_cases hp : expectedPlen op = some p.length
  · have hop : op = 0#8 ∨ op = 1#8 ∨ op = 2#8 ∨ op = 3#8 ∨ op = 4#8 ∨ op = 5#8 := by bv_omega
    have eq_nil (h0 : some 0 = some p.length) : p = [] := List.eq_nil_of_length_eq_zero (Option.some.inj h0).symm
    obtain rfl | rfl | rfl | rfl | rfl | rfl := hop
    · obtain ⟨rf, rb, lf, lb, rfl⟩ := exists_legs_of_length p (Option.some.inj hp).symm
      exact ⟨_, .setServoAngles rf rb lf lb⟩
    · exact ⟨.requestState, eq_nil hp ▸ .requestState⟩
    · exact ⟨.calibrateImu, eq_nil hp ▸ .calibrateImu⟩
    · exact ⟨.emitBufferedErrorLog, eq_nil hp ▸ .emitBufferedErrorLog⟩
    · exact ⟨.resetDeadReckoning, eq_nil hp ▸ .resetDeadReckoning⟩
    · obtain ⟨level, hi, lo, perf, rfl⟩ := exists_options_of_length p (Option.some.inj hp).symm
      exact ⟨_, .setProgramOptions level hi lo perf⟩
  · exact ⟨_, .badLength p hle hp⟩

/-- The decoder answers what the table selects. -/
theorem Selects.decode_eq {op : Byte} {p : List Byte} {i : Instr} (h : Selects op p i) :
    decode (.message (op :: p)) = .ok i := by
  cases h with
  | setServoAngles rf rb lf lb => rfl
  | requestState => rfl
  | calibrateImu => rfl
  | emitBufferedErrorLog => rfl
  | resetDeadReckoning => rfl
  | setProgramOptions level hi lo perf => rfl
  | unknownOpcode p h => simp [decode, decodeMessage, h, Message.toInstr]
  | badLength p h hp =>
    have : ¬ 5#8 < op := by bv_omega
    simp [decode, decodeMessage, this, hp, Message.toInstr]

/-- R87, R190: decoding a message of at least one byte is looking it up in the table. -/
theorem decode_message_iff_selects {op : Byte} {p : List Byte} {i : Instr} :
    decode (.message (op :: p)) = .ok i ↔ Selects op p i := by
  refine ⟨fun h => ?_, Selects.decode_eq⟩
  obtain ⟨j, hj⟩ := exists_selects op p
  obtain rfl : i = j := Except.ok.inj (h.symm.trans hj.decode_eq)
  exact hj

/-- Settles O6: each clause reads off the row of the table that has the clause's operation. -/
theorem opcodeAndLengthSelectCommand : Obligations.OpcodeAndLengthSelectCommand := by
  intro op p
  simp only [decode_message_iff_selects]
  refine ⟨⟨?_, ?_⟩, ?_, ?_, ?_, ?_, ⟨?_, ?_⟩, ⟨?_, ?_⟩⟩
  · rintro ⟨rf, rb, lf, lb, ⟨⟩⟩
    exact ⟨rfl, rfl⟩
  · rintro ⟨rfl, hp⟩
    obtain ⟨rf, rb, lf, lb, rfl⟩ := exists_legs_of_length p hp
    exact ⟨rf, rb, lf, lb, .setServoAngles rf rb lf lb⟩
  · exact ⟨fun | .requestState => ⟨rfl, rfl⟩, by rintro ⟨rfl, rfl⟩; exact .requestState⟩
  · exact ⟨fun | .calibrateImu => ⟨rfl, rfl⟩, by rintro ⟨rfl, rfl⟩; exact .calibrateImu⟩
  · exact ⟨fun | .emitBufferedErrorLog => ⟨rfl, rfl⟩, by rintro ⟨rfl, rfl⟩; exact .emitBufferedErrorLog⟩
  · exact ⟨fun | .resetDeadReckoning => ⟨rfl, rfl⟩, by rintro ⟨rfl, rfl⟩; exact .resetDeadReckoning⟩
  · rintro ⟨level, iv, perf, ⟨⟩⟩
    exact ⟨rfl, rfl⟩
  · rintro ⟨rfl, hp⟩
    obtain ⟨level, hi, lo, perf, rfl⟩ := exists_options_of_length p hp
    exact ⟨level, be16 hi lo, perf, .setProgramOptions level hi lo perf⟩
  · rintro ⟨n, h⟩
    cases h with
    | unknownOpcode p hop => exact hop
  · exact fun h => ⟨_, .unknownOpcode p h⟩

end Sys2Proof.Machine
end

section
/-! The runs of an encoded message (R83, R85). -/

namespace Sys2Proof.Machine

/-- A block of an encoded body: the code byte and the run (R83). -/
def block (run : List Byte) : List Byte := BitVec.ofNat 8 (run.length + 1) :: run

/-- The runs whose blocks `encodeFrom run src` gives (`encodeFrom_eq_blocks`): the open run goes on to the next zero, to 254 bytes or
to the end. -/
def runsFrom (run : List Byte) : List Byte → List (List Byte)
  | [] => [run]
  | b :: bs =>
      if b = 0#8 then run :: runsFrom [] bs
      else if run.length + 1 = 254 ∧ bs ≠ [] then (run ++ [b]) :: runsFrom [] bs
      else runsFrom (run ++ [b]) bs

theorem encodeFrom_eq_blocks (run src : List Byte) : encodeFrom run src = (runsFrom run src).flatMap block := by
  fun_induction runsFrom run src with
  | case1 run => simp [encodeFrom, block]
  | case2 run bs ih => simp [encodeFrom, block, ih]
  | case3 run b bs hb hfull ih => simp [encodeFrom, block, hb, hfull, ih]
  | case4 run b bs hb hgo ih => rw [encodeFrom, if_neg hb, if_neg hgo, ih]

theorem runsFrom_ne_nil (run src : List Byte) : runsFrom run src ≠ [] := by
  fun_induction runsFrom run src with
  | case1 => exact List.cons_ne_nil _ _
  | case2 => exact List.cons_ne_nil _ _
  | case3 => exact List.cons_ne_nil _ _
  | case4 run b bs hb hgo ih => exact ih

/-- What the encoder keeps of its open run: no zero, and 254 bytes only when no byte is left. -/
structure OpenRun (run src : List Byte) : Prop where
  nonzero : 0x00#8 ∉ run
  bound : run.length < 254 ∨ (run.length = 254 ∧ src = [])

theorem OpenRun.start (src : List Byte) : OpenRun [] src := ⟨List.not_mem_nil, .inl (by simp)⟩

theorem OpenRun.length_le {run src : List Byte} (h : OpenRun run src) : run.length ≤ 254 := by
  obtain hlt | ⟨heq, -⟩ := h.bound <;> omega

/-- While a byte is left, the open run has room for it. -/
theorem OpenRun.length_lt {run bs : List Byte} {b : Byte} (h : OpenRun run (b :: bs)) : run.length < 254 :=
  h.bound.resolve_right (fun e => List.cons_ne_nil _ _ e.2)

theorem OpenRun.not_mem_snoc {run bs : List Byte} {b : Byte} (h : OpenRun run (b :: bs)) (hb : b ≠ 0#8) :
    0x00#8 ∉ run ++ [b] := by
  simp [h.nonzero, hb.symm]

/-- A run that is not closed at its 254th byte stays open. -/
theorem OpenRun.snoc {run bs : List Byte} {b : Byte} (h : OpenRun run (b :: bs)) (hb : b ≠ 0#8)
    (hgo : ¬ (run.length + 1 = 254 ∧ bs ≠ [])) : OpenRun (run ++ [b]) bs := by
  refine ⟨h.not_mem_snoc hb, ?_⟩
  have hlt := h.length_lt
  rw [List.length_append, List.length_singleton]
  by_cases hfull : run.length + 1 = 254
  · exact .inr ⟨hfull, by simpa [hfull] using hgo⟩
  · exact .inl (by omega)

/-- R83: a run has at most 254 bytes and no zero among them. -/
theorem runsFrom_bound (run src : List Byte) (h : OpenRun run src) :
    ∀ r ∈ runsFrom run src, r.length ≤ 254 ∧ 0x00#8 ∉ r := by
  fun_induction runsFrom run src with
  | case1 run => exact List.forall_mem_singleton.2 ⟨h.length_le, h.nonzero⟩
  | case2 run bs ih => exact List.forall_mem_cons.2 ⟨⟨h.length_le, h.nonzero⟩, ih (.start bs)⟩
  | case3 run b bs hb hfull ih =>
    have hlen : (run ++ [b]).length ≤ 254 := by rw [List.length_append, List.length_singleton, hfull.1]
    exact List.forall_mem_cons.2 ⟨⟨hlen, h.not_mem_snoc hb⟩, ih (.start bs)⟩
  | case4 run b bs hb hgo ih => exact ih (h.snoc hb hgo)

/-- Before another run, a run of 254 bytes stands for itself and a shorter one also for the zero after it (R85). -/
theorem unblock_cons_of_ne_nil (r : List Byte) {rs : List (List Byte)} (h : rs ≠ []) :
    unblock (r :: rs) = if r.length = 254 then r ++ unblock rs else r ++ 0x00#8 :: unblock rs := by
  rw [unblock, if_neg h]

/-- R85: the runs, with the original zeros, are the open run and the bytes still to come. -/
theorem unblock_runsFrom (run src : List Byte) (h : OpenRun run src) : unblock (runsFrom run src) = run ++ src := by
  fun_induction runsFrom run src with
  | case1 run => simp [unblock]
  | case2 run bs ih =>
    rw [unblock_cons_of_ne_nil _ (runsFrom_ne_nil [] bs), if_neg h.length_lt.ne, ih (.start bs), List.nil_append]
  | case3 run b bs hb hfull ih =>
    have hlen : (run ++ [b]).length = 254 := by rw [List.length_append, List.length_singleton, hfull.1]
    rw [unblock_cons_of_ne_nil _ (runsFrom_ne_nil [] bs), if_pos hlen, ih (.start bs)]
    simp
  | case4 run b bs hb hgo ih => simpa using ih (h.snoc hb hgo)

/-- R85: the last run is empty only when nothing came at all or a zero came last; no empty run follows a last piece of 254 bytes. -/
theorem runsFrom_getLast?_nil (run src : List Byte) (h : (runsFrom run src).getLast? = some []) :
    (run = [] ∧ src = []) ∨ src.getLast? = some 0x00#8 := by
  have last_of_rest {b : Byte} {bs : List Byte} (hl : bs.getLast? = some 0x00#8) : (b :: bs).getLast? = some 0x00#8 := by
    rw [List.getLast?_cons, hl, Option.getD_some]
  fun_induction runsFrom run src with
  | case1 run => exact .inl ⟨by simpa using h, rfl⟩
  | case2 run bs ih =>
    rw [List.getLast?_cons_of_ne_nil (runsFrom_ne_nil [] bs)] at h
    obtain ⟨-, rfl⟩ | hl := ih h
    · exact .inr List.getLast?_singleton
    · exact .inr (last_of_rest hl)
  | case3 run b bs hb hfull ih =>
    rw [List.getLast?_cons_of_ne_nil (runsFrom_ne_nil [] bs)] at h
    obtain ⟨-, hnil⟩ | hl := ih h
    · exact absurd hnil hfull.2
    · exact .inr (last_of_rest hl)
  | case4 run b bs hb hgo ih =>
    obtain ⟨hnil, -⟩ | hl := ih h
    · simp at hnil
    · exact .inr (last_of_rest hl)

/-- Settles O15: the runs are `runsFrom [] x`, and each clause is the law of `runsFrom` for an empty open run. -/
theorem encoderFollowsRunRule : Obligations.EncoderFollowsRunRule := by
  intro x
  refine ⟨runsFrom [] x, ?_, runsFrom_bound [] x (.start x), runsFrom_ne_nil [] x, unblock_runsFrom [] x (.start x), ?_⟩
  · exact (encodeFn_eq_blocks x).trans (encodeFrom_eq_blocks [] x)
  · rintro r hr rfl
    exact (runsFrom_getLast?_nil [] x hr).imp_left And.right

end Sys2Proof.Machine
end

section
/-! One pass of the decoder (40_codec.md, R123 to R126). -/

namespace Sys2Proof.Machine

/-! ### The status bits -/

theorem hasOverflow_eq_getLsbD : ∀ stat : BitVec 4, hasOverflow stat = stat.getLsbD 1 := by decide

@[simp] theorem hasOverflow_or (a b : BitVec 4) : hasOverflow (a ||| b) = (hasOverflow a || hasOverflow b) := by
  simp only [hasOverflow_eq_getLsbD, BitVec.getLsbD_or]

/-- ZeroByteInInput is another bit than BufferOverflow (R100). -/
@[simp] theorem hasOverflow_zeroBit (data : List Byte) : hasOverflow (zeroBit data) = false := by
  unfold zeroBit
  split <;> decide

theorem zeroBit_of_not_mem {data : List Byte} (h : 0x00#8 ∉ data) : zeroBit data = 0#4 := if_neg h

theorem statSet_contains_zero (data : List Byte) (stat : BitVec 4) :
    statSet (data.contains 0#8) statZeroByte stat = stat ||| zeroBit data := by
  by_cases h : 0x00#8 ∈ data <;> simp [statSet, statZeroByte, zeroBit, h]

/-! ### Copying, in the four cases of what remains of the input and of the capacity -/

section
variable {n k cap : Nat} {rest dst : List Byte} {stat : BitVec 4} {e z : Bool}

/-- R123, the copy of DEC, when `k` bytes are left after both cuts. -/
theorem decCopy_eq (hk : min (min n rest.length) (cap - dst.length) = k) :
    decCopy n ⟨rest, dst, stat, cap, e⟩ = ⟨rest.drop k, dst ++ rest.take k,
      statSet (decide (cap - dst.length < min n rest.length)) statOverflow
        (statSet (decide (rest.length < n)) statTooShort stat) ||| zeroBit (rest.take k), cap, e⟩ := by
  subst hk
  simp only [decCopy, statSet_contains_zero]

theorem decCopy_of_fits (hn : n ≤ rest.length) (hc : dst.length + n ≤ cap) :
    decCopy n ⟨rest, dst, stat, cap, e⟩
      = ⟨rest.drop n, dst ++ rest.take n, stat ||| zeroBit (rest.take n), cap, e⟩ := by
  have no_short : ¬ rest.length < n := by omega
  have no_overflow : ¬ cap - dst.length < min n rest.length := by omega
  rw [decCopy_eq (k := n) (by omega)]
  simp [statSet, no_short, no_overflow]

theorem decCopy_of_short (hn : rest.length < n) (hc : dst.length + rest.length ≤ cap) :
    decCopy n ⟨rest, dst, stat, cap, e⟩ = ⟨[], dst ++ rest, stat ||| 0b1000#4 ||| zeroBit rest, cap, e⟩ := by
  have no_overflow : ¬ cap - dst.length < min n rest.length := by omega
  rw [decCopy_eq (k := rest.length) (by omega)]
  simp [statSet, statTooShort, hn, no_overflow]

theorem decCopy_of_overflow (hk : k = cap - dst.length) (hn : n ≤ rest.length) (hc : cap < dst.length + n)
    (hd : dst.length ≤ cap) :
    decCopy n ⟨rest, dst, stat, cap, e⟩
      = ⟨rest.drop k, dst ++ rest.take k, stat ||| 0b0010#4 ||| zeroBit (rest.take k), cap, e⟩ := by
  have no_short : ¬ rest.length < n := by omega
  have overflow : cap - dst.length < min n rest.length := by omega
  rw [decCopy_eq (k := k) (by omega)]
  simp [statSet, statOverflow, no_short, overflow]

theorem decCopy_of_short_of_overflow (hk : k = cap - dst.length) (hn : rest.length < n)
    (hc : cap < dst.length + rest.length) (hd : dst.length ≤ cap) :
    decCopy n ⟨rest, dst, stat, cap, e⟩
      = ⟨rest.drop k, dst ++ rest.take k, stat ||| 0b1010#4 ||| zeroBit (rest.take k), cap, e⟩ := by
  have overflow : cap - dst.length < min n rest.length := by omega
  rw [decCopy_eq (k := k) (by omega)]
  simp [statSet, statTooShort, statOverflow, hn, overflow, BitVec.or_assoc]

/-! ### After the copy -/

theorem decAfter_of_input_empty : decAfter z ⟨[], dst, stat, cap, e⟩ = ⟨[], dst, stat, cap, true⟩ := rfl

theorem decAfter_of_overflow (h : hasOverflow stat = true) :
    decAfter z ⟨rest, dst, stat, cap, e⟩ = ⟨rest, dst, stat, cap, true⟩ := by
  simp [decAfter, h]

/-- R126: no zero after a full block. -/
theorem decAfter_false (hr : rest ≠ []) (h : hasOverflow stat = false) :
    decAfter false ⟨rest, dst, stat, cap, e⟩ = ⟨rest, dst, stat, cap, e⟩ := by
  simp [decAfter, hr, h]

/-- R125: the original zero, when it fits. -/
theorem decAfter_true_of_lt (hr : rest ≠ []) (h : hasOverflow stat = false) (hc : dst.length < cap) :
    decAfter true ⟨rest, dst, stat, cap, e⟩ = ⟨rest, dst ++ [0x00#8], stat, cap, e⟩ := by
  simp [decAfter, hr, h, hc.ne]

/-- R125: the original zero does not fit. -/
theorem decAfter_true_of_eq (hr : rest ≠ []) (h : hasOverflow stat = false) (hc : dst.length = cap) :
    decAfter true ⟨rest, dst, stat, cap, e⟩ = ⟨rest, dst, stat ||| 0b0010#4, cap, true⟩ := by
  simp [decAfter, hr, h, hc, statOverflow]

/-! ### The copies that end the decode, whether or not the class has a zero -/

theorem decAfter_decCopy_of_exact (hn : rest.length = n) (hc : dst.length + n ≤ cap) :
    decAfter z (decCopy n ⟨rest, dst, stat, cap, e⟩) = ⟨[], dst ++ rest, stat ||| zeroBit rest, cap, true⟩ := by
  rw [decCopy_of_fits hn.ge hc, ← hn, List.drop_length, List.take_length, decAfter_of_input_empty]

theorem decAfter_decCopy_of_short (hn : rest.length < n) (hc : dst.length + rest.length ≤ cap) :
    decAfter z (decCopy n ⟨rest, dst, stat, cap, e⟩)
      = ⟨[], dst ++ rest, stat ||| 0b1000#4 ||| zeroBit rest, cap, true⟩ := by
  rw [decCopy_of_short hn hc, decAfter_of_input_empty]

theorem decAfter_decCopy_of_overflow (hk : k = cap - dst.length) (hn : n ≤ rest.length) (hc : cap < dst.length + n)
    (hd : dst.length ≤ cap) :
    decAfter z (decCopy n ⟨rest, dst, stat, cap, e⟩)
      = ⟨rest.drop k, dst ++ rest.take k, stat ||| 0b0010#4 ||| zeroBit (rest.take k), cap, true⟩ := by
  rw [decCopy_of_overflow hk hn hc hd, decAfter_of_overflow (by simp [hasOverflow_eq_getLsbD])]

theorem decAfter_decCopy_of_short_of_overflow (hk : k = cap - dst.length) (hn : rest.length < n)
    (hc : cap < dst.length + rest.length) (hd : dst.length ≤ cap) :
    decAfter z (decCopy n ⟨rest, dst, stat, cap, e⟩)
      = ⟨rest.drop k, dst ++ rest.take k, stat ||| 0b1010#4 ||| zeroBit (rest.take k), cap, true⟩ := by
  rw [decCopy_of_short_of_overflow hk hn hc hd, decAfter_of_overflow (by simp [hasOverflow_eq_getLsbD])]

end

/-! ### The operations of the three classes -/

/-- While a decode goes on, an operation of DEC acts on its variables and on nothing else. -/
theorem onDec_of_running {f : DecWork → DecWork} {s : State} {w : DecWork} (hw : s.dec = w) (he : w.ended = false) :
    onDec f s = .next { s with dec := f w } := by
  subst hw
  simp [onDec, he]

theorem decLoop_of_ended (fuel : Nat) {w : DecWork} (h : w.ended = true) : decLoop fuel w = w := by
  cases fuel with
  | zero => rfl
  | succ fuel => simp [decLoop, h]

/-- A pass takes the code byte from the input (R123). -/
theorem decLoop_cons (fuel : Nat) (c : Byte) (rest dst : List Byte) (stat : BitVec 4) (cap : Nat) :
    decLoop (fuel + 1) ⟨c :: rest, dst, stat, cap, false⟩ = decLoop fuel (decPass c ⟨rest, dst, stat, cap, false⟩) := rfl

/-- Settles O9: the operation is `decZero` on a decode that goes on, and `Decode` ends in the pass that takes the 00. -/
theorem codeZeroResult : Obligations.CodeZeroResult := by
  refine fun s => ⟨fun he => onDec_of_running (f := decZero) rfl he, fun src cap => ?_⟩
  have end_of_first_pass : decRunAll (0x00#8 :: src) cap = decZero ⟨src, [], 0#4, cap, false⟩ :=
    (decLoop_cons _ _ _ _ _ _).trans (decLoop_of_ended _ rfl)
  simp [decodeFn, end_of_first_pass, decZero, statZeroByte]

/-- Settles O10: two cases copy the whole run with input left after it, and the zero fits or not; the other four end the decode. -/
theorem codeRunResult : Obligations.CodeRunResult := by
  intro s c n k rest dst stat cap hw hd hs _ _ hn hk
  have run : exec (.codeRun c) s = .next { s with dec := decAfter true (decCopy n ⟨rest, dst, stat, cap, false⟩) } := by
    rw [hn]
    exact onDec_of_running hw rfl
  have more (h : n < rest.length) : rest.drop n ≠ [] := by simpa using h
  rw [← hasOverflow_eq_getLsbD] at hs
  have no_overflow (data : List Byte) : hasOverflow (stat ||| zeroBit data) = false := by simp [hs]
  have out_length (h : n < rest.length) : (dst ++ rest.take n).length = dst.length + n := by simp; omega
  rw [run]
  refine ⟨fun hr hc => ?_, fun hr hc => ?_, fun hr hc => ?_, fun hr hc => ?_, fun hr hc => ?_, fun hr hc => ?_⟩
  · rw [decAfter_decCopy_of_exact hr hc]
  · rw [decCopy_of_fits hr.le hc.le, decAfter_true_of_lt (more hr) (no_overflow _) (by rwa [out_length hr])]
  · rw [decCopy_of_fits hr.le hc.le, decAfter_true_of_eq (more hr) (no_overflow _) (by rwa [out_length hr])]
  · rw [decAfter_decCopy_of_short hr hc]
  · rw [decAfter_decCopy_of_overflow hk hr hc hd]
  · rw [decAfter_decCopy_of_short_of_overflow hk hr hc hd]

/-- Settles O11: the decode goes on, without a zero, when input is left after 254 bytes that fit; the other four cases end it. -/
theorem codeFullResult : Obligations.CodeFullResult := by
  intro s k rest dst stat cap hw hd hs hk
  have full : exec .codeFull s = .next { s with dec := decAfter false (decCopy 254 ⟨rest, dst, stat, cap, false⟩) } :=
    onDec_of_running hw rfl
  rw [← hasOverflow_eq_getLsbD] at hs
  rw [full]
  refine ⟨fun hr hc => ?_, fun hr hc => ?_, fun hr hc => ?_, fun hr hc => ?_, fun hr hc => ?_⟩
  · rw [decAfter_decCopy_of_exact hr hc]
  · rw [decCopy_of_fits hr.le hc, decAfter_false (by simpa using hr) (by simp [hs])]
  · rw [decAfter_decCopy_of_short hr hc]
  · rw [decAfter_decCopy_of_overflow hk hr hc hd]
  · rw [decAfter_decCopy_of_short_of_overflow hk hr hc hd]

end Sys2Proof.Machine
end

section
/-! What the encoder's output holds and how long it is (R121, R122). -/

namespace Sys2Proof.Machine

/-- R83: the output is the blocks of the runs. -/
theorem encodeFn_eq_flatMap_block (x : List Byte) : encodeFn x = (runsFrom [] x).flatMap block :=
  (encodeFn_eq_blocks x).trans (encodeFrom_eq_blocks [] x)

theorem zero_not_mem_block {r : List Byte} (hlen : r.length ≤ 254) (hz : 0x00#8 ∉ r) : 0x00#8 ∉ block r := by
  have code_ne : BitVec.ofNat 8 (r.length + 1) ≠ 0x00#8 := by bv_omega
  simp [block, code_ne.symm, hz]

/-- R121: no code byte is a zero, and no run holds one. -/
theorem zero_not_mem_encodeFn (x : List Byte) : 0x00#8 ∉ encodeFn x := by
  rw [encodeFn_eq_flatMap_block, List.mem_flatMap]
  rintro ⟨r, hr, hmem⟩
  obtain ⟨hlen, hz⟩ := runsFrom_bound [] x (.start x) r hr
  exact zero_not_mem_block hlen hz hmem

theorem length_le_length_flatMap_block (runs : List (List Byte)) : runs.length ≤ (runs.flatMap block).length := by
  induction runs with
  | nil => exact Nat.zero_le _
  | cons r rs ih => simp only [List.flatMap_cons, block, List.length_append, List.length_cons]; omega

theorem flatMap_block_ne_nil {runs : List (List Byte)} (h : runs ≠ []) : runs.flatMap block ≠ [] :=
  List.length_pos_iff.1 ((List.length_pos_iff.2 h).trans_le (length_le_length_flatMap_block runs))

theorem one_le_length_encodeFn (x : List Byte) : 1 ≤ (encodeFn x).length := by
  rw [encodeFn_eq_flatMap_block]
  exact List.length_pos_iff.2 (flatMap_block_ne_nil (runsFrom_ne_nil [] x))

/-- Settles O13: the output is `encodeFn x`, in which the state has no part; its bytes are those of the blocks. -/
theorem encodedHasNoDelimiter : Obligations.EncodedHasNoDelimiter :=
  fun x _ _ => ⟨encodeFn x, rfl, rfl, rfl, zero_not_mem_encodeFn x, one_le_length_encodeFn x⟩

/-! ### `MaxEnc` -/

/-- What fits in one block costs one code byte. -/
theorem maxEnc_of_le {n : Nat} (h : n ≤ 254) : maxEnc n = n + 1 := by
  unfold maxEnc
  split <;> omega

/-- A full block, with more to come, costs one code byte. -/
theorem maxEnc_add_full {n : Nat} (h : 0 < n) : maxEnc (254 + n) = 255 + maxEnc n := by
  unfold maxEnc
  rw [if_neg (by omega), if_neg (by omega)]
  omega

theorem add_maxEnc_le (k n : Nat) : k + maxEnc n ≤ maxEnc (k + n) := by
  unfold maxEnc
  split <;> split <;> omega

theorem maxEnc_le (n : Nat) : maxEnc n ≤ n + (n + 253) / 254 + 1 := by
  unfold maxEnc
  split <;> omega

/-- R122, for the open run and the bytes still to come: the bound, and that only a zero among those bytes makes the output shorter. -/
theorem length_encodeFrom (run src : List Byte) (h : OpenRun run src) :
    (encodeFrom run src).length ≤ maxEnc (run.length + src.length) ∧
      (0x00#8 ∉ src → (encodeFrom run src).length = maxEnc (run.length + src.length)) := by
  fun_induction encodeFrom run src with
  | case1 run =>
    have one_block := maxEnc_of_le h.length_le
    exact ⟨one_block.ge, fun _ => one_block.symm⟩
  | case2 run bs ih =>
    obtain ⟨hle, -⟩ := ih (.start bs)
    rw [List.length_nil, Nat.zero_add] at hle
    refine ⟨?_, fun hz => absurd List.mem_cons_self hz⟩
    calc _ = run.length + 1 + (encodeFrom [] bs).length := by simp; omega
      _ ≤ run.length + 1 + maxEnc bs.length := by omega
      _ ≤ maxEnc (run.length + 1 + bs.length) := add_maxEnc_le _ _
      _ = maxEnc (run.length + (bs.length + 1)) := by rw [Nat.add_assoc, Nat.add_comm 1]
  | case3 run b bs hb hfull ih =>
    obtain ⟨hle, heq⟩ := ih (.start bs)
    rw [List.length_nil, Nat.zero_add] at hle heq
    have total : run.length + (b :: bs).length = 254 + bs.length := by rw [List.length_cons]; omega
    have block_and_rest : (0xFF#8 :: (run ++ [b]) ++ encodeFrom [] bs).length = 255 + (encodeFrom [] bs).length := by
      simp; omega
    rw [total, maxEnc_add_full (List.length_pos_iff.2 hfull.2), block_and_rest]
    exact ⟨Nat.add_le_add_left hle 255, fun hz => by rw [heq (fun hm => hz (List.mem_cons_of_mem b hm))]⟩
  | case4 run b bs hb hgo ih =>
    obtain ⟨hle, heq⟩ := ih (h.snoc hb hgo)
    have total : (run ++ [b]).length + bs.length = run.length + (b :: bs).length := by simp; omega
    rw [total] at hle heq
    exact ⟨hle, fun hz => heq (fun hm => hz (List.mem_cons_of_mem b hm))⟩

/-- Settles O14: `length_encodeFrom` for an empty open run; the bounds of the statement are `maxEnc` written out. -/
theorem encodedLengthBound : Obligations.EncodedLengthBound := by
  refine ⟨fun x => ?_, rfl, rfl, fun _ => rfl⟩
  obtain ⟨hle, heq⟩ := length_encodeFrom [] x (.start x)
  rw [← encodeFn_eq_blocks, List.length_nil, Nat.zero_add] at hle heq
  exact ⟨hle, heq, hle.trans (maxEnc_le x.length)⟩

end Sys2Proof.Machine
end

section
/-! Decoding an encoded message (R128). -/

namespace Sys2Proof.Machine

/-- A block's code byte is a run's code, or the full one for 254 data bytes (R84). -/
theorem decPass_code {n : Nat} (h : n ≤ 254) (w : DecWork) :
    decPass (BitVec.ofNat 8 (n + 1)) w = decAfter (decide (n ≠ 254)) (decCopy n w) := by
  have not_zero : BitVec.ofNat 8 (n + 1) ≠ 0#8 := by bv_omega
  by_cases hfull : n = 254
  · subst hfull
    rfl
  · have not_full : BitVec.ofNat 8 (n + 1) ≠ 0xFF#8 := by bv_omega
    have code : (BitVec.ofNat 8 (n + 1)).toNat - 1 = n := by simp; omega
    have run_class : decodeCode (BitVec.ofNat 8 (n + 1)) = .run (BitVec.ofNat 8 (n + 1)) := by
      rw [decodeCode, if_neg not_zero, if_neg not_full]
    simp only [decPass, run_class, decRun, code, decide_eq_true hfull]

section
variable {r dst : List Byte} {cap : Nat}

/-- A block that fits is copied whole, and the status stays 0. -/
theorem decPass_block (src : List Byte) (hlen : r.length ≤ 254) (hz : 0x00#8 ∉ r) (hc : dst.length + r.length ≤ cap) :
    decPass (BitVec.ofNat 8 (r.length + 1)) ⟨r ++ src, dst, 0#4, cap, false⟩
      = decAfter (decide (r.length ≠ 254)) ⟨src, dst ++ r, 0#4, cap, false⟩ := by
  rw [decPass_code hlen, decCopy_of_fits (by simp) hc, List.drop_left, List.take_left, zeroBit_of_not_mem hz, BitVec.or_zero]

/-- The last block ends the decode. -/
theorem decPass_last_block (hlen : r.length ≤ 254) (hz : 0x00#8 ∉ r) (hc : dst.length + r.length ≤ cap) :
    decPass (BitVec.ofNat 8 (r.length + 1)) ⟨r, dst, 0#4, cap, false⟩ = ⟨[], dst ++ r, 0#4, cap, true⟩ := by
  simpa only [List.append_nil, decAfter_of_input_empty] using decPass_block [] hlen hz hc

/-- A full block before another one gives its 254 bytes. -/
theorem decPass_full_block {src : List Byte} (hsrc : src ≠ []) (hlen : r.length = 254) (hz : 0x00#8 ∉ r)
    (hc : dst.length + r.length ≤ cap) :
    decPass (BitVec.ofNat 8 (r.length + 1)) ⟨r ++ src, dst, 0#4, cap, false⟩ = ⟨src, dst ++ r, 0#4, cap, false⟩ := by
  rw [decPass_block src hlen.le hz hc, decide_eq_false (not_not.2 hlen), decAfter_false hsrc rfl]

/-- A shorter block before another one gives its bytes and the zero that ended the run. -/
theorem decPass_run_block {src : List Byte} (hsrc : src ≠ []) (hlen : r.length < 254) (hz : 0x00#8 ∉ r)
    (hc : dst.length + r.length < cap) :
    decPass (BitVec.ofNat 8 (r.length + 1)) ⟨r ++ src, dst, 0#4, cap, false⟩
      = ⟨src, dst ++ r ++ [0x00#8], 0#4, cap, false⟩ := by
  rw [decPass_block src hlen.le hz hc.le, decide_eq_true hlen.ne, decAfter_true_of_lt hsrc rfl (by simpa using hc)]

end

/-- The decoder takes one pass for each block and gives the bytes the runs stand for. -/
theorem decLoop_flatMap_block (runs : List (List Byte)) (dst : List Byte) (cap fuel : Nat) (hne : runs ≠ [])
    (hruns : ∀ r ∈ runs, r.length ≤ 254 ∧ 0x00#8 ∉ r) (hfuel : runs.length ≤ fuel)
    (hcap : dst.length + (unblock runs).length ≤ cap) :
    decLoop fuel ⟨runs.flatMap block, dst, 0#4, cap, false⟩ = ⟨[], dst ++ unblock runs, 0#4, cap, true⟩ := by
  induction runs generalizing dst fuel with
  | nil => exact absurd rfl hne
  | cons r rs ih =>
    obtain ⟨⟨hlen, hz⟩, hrs⟩ := List.forall_mem_cons.1 hruns
    obtain ⟨fuel, rfl⟩ : ∃ m, fuel = m + 1 := Nat.exists_eq_add_one.2 (by simp at hfuel; omega)
    have hfuel' : rs.length ≤ fuel := by simpa using hfuel
    rw [List.flatMap_cons, block, List.cons_append, decLoop_cons]
    by_cases hlast : rs = []
    · subst hlast
      simp only [unblock, if_true] at hcap ⊢
      rw [List.flatMap_nil, List.append_nil, decPass_last_block hlen hz hcap, decLoop_of_ended _ rfl]
    · have more := flatMap_block_ne_nil hlast
      rw [unblock_cons_of_ne_nil r hlast] at hcap ⊢
      by_cases hfull : r.length = 254
      · rw [if_pos hfull] at hcap ⊢
        rw [List.length_append] at hcap
        rw [decPass_full_block more hfull hz (by omega), ih _ _ hlast hrs hfuel' (by simp; omega), List.append_assoc]
      · rw [if_neg hfull] at hcap ⊢
        rw [List.length_append, List.length_cons] at hcap
        rw [decPass_run_block more (by omega) hz (by omega), ih _ _ hlast hrs hfuel' (by simp; omega)]
        simp

/-- R128: DEC's variables at the end of the decode of an encoded message. -/
theorem decRunAll_encodeFn (x : List Byte) (cap : Nat) (h : x.length ≤ cap) :
    decRunAll (encodeFn x) cap = ⟨[], x, 0#4, cap, true⟩ := by
  have message : unblock (runsFrom [] x) = x := unblock_runsFrom [] x (.start x)
  have passes := length_le_length_flatMap_block (runsFrom [] x)
  rw [decRunAll, decStart, encodeFn_eq_flatMap_block, decLoop_flatMap_block _ _ _ _ (runsFrom_ne_nil [] x)
    (runsFrom_bound [] x (.start x)) (by omega) (by simpa [message] using h), message, List.nil_append]

/-- Settles O16: both clauses read off DEC's variables at the end (`decRunAll_encodeFn`). -/
theorem decodeInvertsEncode : Obligations.DecodeInvertsEncode := by
  intro x cap h
  have decoded := decRunAll_encodeFn x cap h
  refine ⟨by rw [decodeFn, decoded], fun s => ?_⟩
  rw [← decoded]
  rfl

end Sys2Proof.Machine
end

section
/-! A polled byte, and the delimiters inside a frame (41_frame_sync.md, R160, R165, R167). -/

namespace Sys2Proof.Machine

/-- The transition of a wire byte is the operation that the byte decodes to. -/
theorem runSync_eq_exec (op : SyncOp) (s : State) : runSync op s = exec op.toInstr s := by
  cases op <;> rfl

/-- R160: in RX, a byte that selects a transition is recorded, and the transition runs in the same step. -/
theorem exec_rxPoll_of_decodeWire {s : State} {b : Byte} {op : SyncOp} (hp : s.mphase = 0#4)
    (hop : decodeWire s.fsState s.flen s.params.frameCap b = .ok op) :
    exec (.rxPoll (some b)) s = exec op.toInstr (record (.rxAnswer (some b)) s) := by
  rw [← runSync_eq_exec]
  refine (inPhase_enabled .rx s _ hp).trans ?_
  cases hfs : s.fsState with
  | handoff =>
    rw [hfs] at hop
    cases hop
  | seekStart => simp only [← hfs, hop]
  | accumulating => simp only [← hfs, hop]
  | seekEnd => simp only [← hfs, hop]

/-- Settles O20: each polled clause is the operation clause after the record of the byte, by the row of R170 that `flen` selects. -/
theorem frameDelimiterResults : Obligations.FrameDelimiterResults := by
  refine fun s => ⟨rfl, rfl, fun hp hfs => ⟨fun hempty => ?_, fun hsome => ?_⟩⟩
  · have absorbed : decodeWire s.fsState s.flen s.params.frameCap 0x00#8 = .ok .accDelimEmpty := by
      simp [decodeWire, hfs, hempty]
    exact exec_rxPoll_of_decodeWire hp absorbed
  · have hne : s.flen ≠ 0#16 := by bv_omega
    have completes : decodeWire s.fsState s.flen s.params.frameCap 0x00#8 = .ok .accDelimEnd := by
      simp [decodeWire, hfs, hne]
    exact exec_rxPoll_of_decodeWire hp completes

end Sys2Proof.Machine
end

section
/-! The end of a frame attempt: DECODE and FRAME_DONE (41_frame_sync.md, R171, R172). -/

namespace Sys2Proof.Machine

/-- Settles O24: the registers have their values by the definition of `frameDone`, and a cleared buffer reads as no value. -/
theorem frameDoneResult : Obligations.FrameDoneResult :=
  fun s => ⟨frameDone s, rfl, rfl, fun a => ⟨Memory.read_nil a, Memory.read_nil a⟩⟩

/-- R171: on a complete frame, the status of the decode alone decides how the step ends. -/
theorem exec_decode_of_atFrame {s : State} {body m : List Byte} {stat : BitVec 4} (h : s.atFrame body)
    (hm : decodeFn body s.params.msgCap = (m, stat)) :
    exec .decode s = if stat = 0#4 then decodeSucceeded m s else .next (decodeFailed stat s) := by
  obtain ⟨hphase, hlen, hbody⟩ := h
  refine (inPhase_enabled .decode s _ hphase).trans ?_
  rw [readAll_ok .fb s body hlen hbody]
  simp only [hm]

/-- A message that fits MB is written whole, and MAIN goes to DISPATCH. -/
theorem decodeSucceeded_of_fits {m : List Byte} {s : State} (h : m.length ≤ s.params.msgCap) :
    decodeSucceeded m s = .next { s with
      dstat := 0#4, mb := writeBytes s.mb 0 m, mlen := BitVec.ofNat 16 m.length, mphase := 2#4 } := by
  have fits : 0 + m.length ≤ State.size { s with dstat := 0#4 } .mb := by simpa [State.size] using h
  rw [decodeSucceeded, writeFrom_next .mb m 0 _ fits, andThen_next]
  rfl

/-- Bytes that are written leave the buffer above them as it was. -/
theorem read_writeBytes_of_le (m : Memory) {i a : Nat} {bs : List Byte} (h : i + bs.length ≤ a) :
    (writeBytes m i bs).read a = m.read a := by
  rw [read_writeBytes, if_neg (by omega)]

/-- Settles O25: a status that is not 0 ends in `decodeFailed`; status 0 in `decodeSucceeded`, where the message fits since `Decode`
was given the size of MB as its capacity. -/
theorem decodeStepResult : Obligations.DecodeStepResult := by
  intro s body m stat hframe hm
  rw [exec_decode_of_atFrame hframe hm]
  refine ⟨fun hfail => if_neg hfail, fun hok => ⟨writeBytes s.mb 0 m, ?_, holds_writeBytes m s.mb, fun a ha => ?_⟩⟩
  · have fits : m.length ≤ s.params.msgCap := by simpa only [hm] using decodeFn_length_le body s.params.msgCap
    rw [if_pos hok, decodeSucceeded_of_fits fits]
  · exact read_writeBytes_of_le s.mb (by omega)

end Sys2Proof.Machine
end

section
/-! DISPATCH: what follows from the operation the message decodes to (42_dispatcher.md, R190). -/

namespace Sys2Proof.Machine

/-- FRAME_DONE is the end of a frame attempt that emits nothing (R172). -/
theorem frameDone_eq_doneWith (s : State) : frameDone s = s.doneWith [] := by
  simp [frameDone, State.doneWith, Memory.cleared, Phase.bits]

theorem record_doneWith (x : Transaction) (s : State) : (record x s).doneWith [] = s.doneWith [x] := by
  simp [record, State.doneWith]

/-- R190: FRAME_DONE follows every message but CALIBRATE_IMU. -/
theorem runMessage_eq_andThen {msg : Message} (h : msg ≠ .calibrateImu) (s : State) :
    runMessage msg s = andThen (exec msg.toInstr s) execFrameDone := by
  cases msg with
  | calibrateImu => exact absurd rfl h
  | _ => rfl

theorem toInstr_eq_calibrateImu {msg : Message} : msg.toInstr = .calibrateImu ↔ msg = .calibrateImu := by
  cases msg <;> simp [Message.toInstr]

/-- No message's operation stops the machine. -/
theorem exists_exec_toInstr (msg : Message) (s : State) : ∃ t, exec msg.toInstr s = .next t := by
  cases msg <;> exact ⟨_, rfl⟩

/-- R190: in DISPATCH the message that MB holds is decoded and run. -/
theorem exec_dispatch_of_atMessage {s : State} {m : List Byte} (h : s.atMessage m) :
    exec .dispatch s = runMessage (decodeMessage m) s := by
  obtain ⟨hphase, hlen, hbytes⟩ := h
  refine (inPhase_enabled .dispatch s _ hphase).trans ?_
  rw [readAll_ok .mb s m hlen hbytes]

section
variable {s t : State} {m : List Byte} {i : Instr}

/-- R196: CALIBRATE_IMU is the whole of its DISPATCH. -/
theorem exec_dispatch_of_calibrateImu (h : s.atMessage m) (hm : decode (.message m) = .ok .calibrateImu) :
    exec .dispatch s = exec .calibrateImu s := by
  rw [exec_dispatch_of_atMessage h, toInstr_eq_calibrateImu.1 (Except.ok.inj hm)]
  rfl

/-- R190: any other operation is run, and then the frame attempt ends. -/
theorem exec_dispatch_of_exec (h : s.atMessage m) (hm : decode (.message m) = .ok i) (hi : i ≠ .calibrateImu)
    (he : exec i s = .next t) : exec .dispatch s = .next (t.doneWith []) := by
  obtain rfl : (decodeMessage m).toInstr = i := Except.ok.inj hm
  rw [exec_dispatch_of_atMessage h, runMessage_eq_andThen (mt toInstr_eq_calibrateImu.2 hi), he, andThen_next,
    execFrameDone, frameDone_eq_doneWith]

/-- An operation that only emits `x` makes a DISPATCH that emits `x` and ends the frame attempt. -/
theorem exec_dispatch_of_record {x : Transaction} (h : s.atMessage m) (hm : decode (.message m) = .ok i)
    (hi : i ≠ .calibrateImu) (he : exec i s = .next (record x s)) : exec .dispatch s = .next (s.doneWith [x]) := by
  rw [exec_dispatch_of_exec h hm hi he, record_doneWith]

end

/-! ### The rejections (R191, R192) -/

/-- Only the opcodes up to 5 have a payload length (R88). -/
theorem le_of_expectedPlen_eq_some {op : Byte} {n : Nat} (h : expectedPlen op = some n) : op ≤ 5#8 := by
  by_contra hop
  have hzero : op ≠ 0#8 := by bv_omega
  have hfour : ¬ op ≤ 4#8 := by bv_omega
  have hfive : op ≠ 5#8 := by bv_omega
  simp [expectedPlen, hzero, hfour, hfive] at h

/-- R88: the requests, opcodes 1 to 4, have no payload. -/
theorem expectedPlen_of_request {op : Byte} (h1 : 1#8 ≤ op) (h4 : op ≤ 4#8) : expectedPlen op = some 0 := by
  have hzero : op ≠ 0#8 := by bv_omega
  simp [expectedPlen, hzero, h4]

section
variable {s : State} {op : Byte} {p : List Byte}

/-- R192: a payload of another length than the opcode's is one BAD_LENGTH report. -/
theorem exec_dispatch_of_length_ne {n : Nat} (hop : expectedPlen op = some n) (hp : p.length ≠ n)
    (h : s.atMessage (op :: p)) :
    exec .dispatch s = .next (s.doneWith [.errReport 6#4 op (BitVec.ofNat 16 p.length) 0#4]) := by
  have hne : expectedPlen op ≠ some p.length := by simpa [hop] using hp.symm
  have rejected : Selects op p _ := .badLength p (le_of_expectedPlen_eq_some hop) hne
  exact exec_dispatch_of_record h rejected.decode_eq nofun rfl

/-- R191: an opcode above 5 is one UNKNOWN_OPCODE report. -/
theorem exec_dispatch_of_unknown (hop : 5#8 < op) (h : s.atMessage (op :: p)) :
    exec .dispatch s = .next (s.doneWith [.errReport 5#4 op (BitVec.ofNat 16 p.length) 0#4]) :=
  have rejected : Selects op p _ := .unknownOpcode p hop
  exec_dispatch_of_record h rejected.decode_eq nofun rfl

end

end Sys2Proof.Machine
end

section
/-! The results of each message (42_dispatcher.md, R191 to R202). -/

namespace Sys2Proof.Machine

/-- Settles O1: the message is the row of SET_SERVO_ANGLES in the table of R87, and the operation is one record. -/
theorem servoCommandResult : Obligations.ServoCommandResult := by
  intro rf rb lf lb s
  have row : Selects 0x00#8 _ _ := .setServoAngles rf rb lf lb
  exact ⟨rfl, fun h => exec_dispatch_of_record h row.decode_eq nofun rfl,
    fun payload hlen h => exec_dispatch_of_length_ne rfl hlen h⟩

/-- Settles O2: each operation is one record, and opcodes 1, 3 and 4 have no payload. -/
theorem plainRequestResults : Obligations.PlainRequestResults := by
  intro s
  refine ⟨rfl, rfl, rfl, fun h => ?_, fun h => ?_, fun h => ?_, fun op payload hop hne h => ?_⟩
  · exact exec_dispatch_of_record h Selects.requestState.decode_eq nofun rfl
  · exact exec_dispatch_of_record h Selects.emitBufferedErrorLog.decode_eq nofun rfl
  · exact exec_dispatch_of_record h Selects.resetDeadReckoning.decode_eq nofun rfl
  · have no_payload : expectedPlen op = some 0 := by
      obtain rfl | rfl | rfl := hop <;> rfl
    exact exec_dispatch_of_length_ne no_payload (mt List.eq_nil_of_length_eq_zero hne) h

/-! ### SET_PROGRAM_OPTIONS (R198) -/

/-- R32: periodic telemetry is enabled by an interval that is not negative. -/
theorem perEn_iff (s : State) : s.perEn = true ↔ 0 ≤ s.poInterval.toInt := decide_eq_true_iff

theorem anchorDeadline_eq (s : State) :
    anchorDeadline s =
      { s with deadline := if 0 ≤ s.poInterval.toInt then s.nowUs + intervalUs s.poInterval else s.deadline } := by
  simp only [anchorDeadline, perEn_iff]
  split <;> rfl

/-- The state that SET_PROGRAM_OPTIONS leads to. -/
theorem exec_setProgramOptions (level : Byte) (interval : BitVec 16) (perf : Byte) (s : State) :
    exec (.setProgramOptions level interval perf) s = .next { s with
      poLevel := level
      poInterval := interval
      poPerf := decide (perf ≠ 0x00#8)
      deadline := if 0 ≤ interval.toInt then s.nowUs + interval.setWidth 64 * 1000#64 else s.deadline
      loopCount := 0#16
      idleCount := 0#16
      perfT0 := s.nowUs
      trace := s.trace ++ [.poUpdate level interval (decide (perf ≠ 0x00#8))] } := by
  change execSetProgramOptions level interval perf s = _
  rw [execSetProgramOptions, anchorDeadline_eq]
  rfl

/-- Settles O4: DISPATCH ends the frame attempt after `exec_setProgramOptions`, and the last clause reads that state: a deadline
0 microseconds from now is reached. -/
theorem setProgramOptionsResult : Obligations.SetProgramOptionsResult := by
  intro level hi lo perf s
  have result := exec_setProgramOptions level (hi ++ lo) perf s
  have row := Selects.setProgramOptions level hi lo perf
  refine ⟨result, fun h => ?_, fun payload hlen h => exec_dispatch_of_length_ne rfl hlen h, fun t ht => ?_⟩
  · rw [exec_dispatch_of_exec h row.decode_eq nofun result]
    simp [State.doneWith]
  · rw [result] at ht
    cases ht
    refine ⟨perEn_iff _, fun hzero => ?_, rfl⟩
    simp [State.deadlineReached, hzero]

/-! ### Protocol errors and blocking (R201, R202) -/

/-- Settles O5: each rejection is one record; the body [01] is the encoding of the empty message. -/
theorem protocolErrorResults : Obligations.ProtocolErrorResults := by
  intro op s
  refine ⟨fun _ => rfl, fun payload hop h => exec_dispatch_of_unknown hop h, fun _ => rfl, fun payload hlen h => ?_, rfl,
    fun h => exec_dispatch_of_record h rfl nofun rfl, fun cap => (decodeInvertsEncode [] cap (Nat.zero_le cap)).1⟩
  obtain ⟨rfl, hlen⟩ | ⟨h1, h4, hlen⟩ | ⟨rfl, hlen⟩ := hlen
  · exact exec_dispatch_of_length_ne rfl hlen h
  · exact exec_dispatch_of_length_ne (expectedPlen_of_request h1 h4) hlen h
  · exact exec_dispatch_of_length_ne rfl hlen h

/-- Only the message [02] is the calibration command (R87). -/
theorem decode_message_eq_calibrateImu {m : List Byte} : decode (.message m) = .ok .calibrateImu ↔ m = [0x02#8] := by
  cases m with
  | nil => exact ⟨nofun, nofun⟩
  | cons op p =>
    obtain ⟨-, -, calibrate, -⟩ := opcodeAndLengthSelectCommand op p
    rw [calibrate, List.cons.injEq]

/-- R196, R199: no event but `calib_done` and `rst` moves MAIN out of CAL_WAIT: its phase has no port-free operation, a poll and
`svc_done` are not enabled there, and the other agents leave MAIN where it is. -/
theorem runEvent_calWait {s t : State} {e : Event} (hs : s.mphase = 3#4) (h : runEvent e s = .next t) :
    Stayed s t ∨ e = .calibDone ∨ e = .rst := by
  have waits {p : Phase} {k : Out} (hp : Phase.calWait ≠ p) (h : inPhase p s k = .next t) : Stayed s t := by
    rw [inPhase_waits p .calWait s k hs hp] at h
    cases h
    exact .refl s
  cases e with
  | main =>
    obtain ⟨working, -⟩ | ⟨-, rfl⟩ := runEvent_main_place s t h
    · rw [Event.enabled, hs] at working
      cases working
    · exact .inl (.refl _)
  | rxPoll a => exact .inl (waits (p := .rx) nofun h)
  | svcDone l => exact .inl (waits (p := .svcWait) nofun h)
  | txReq m => exact .inl (execTxReq_place m s t h)
  | txPut => exact .inl (execTxPut_place s t h)
  | irq l => exact .inl (execIrqFire_place l s t h)
  | alert l =>
    cases h
    exact .inl ⟨rfl, rfl, id⟩
  | arm l => exact .inl (execBootArm_place l s t h)
  | clock d => exact .inl (execClockTick_place d s t h)
  | calibDone => exact .inr (.inl rfl)
  | rst => exact .inr (.inr rfl)

/-- Settles O8: the decoded operation answers a next state (`exists_exec_toInstr`), which FRAME_DONE ends unless it is the calibration
command; CAL_WAIT is `runEvent_calWait`. -/
theorem dispatchNeverBlocks : Obligations.DispatchNeverBlocks := by
  refine ⟨fun s m h => ?_, fun s t e hs h => ?_⟩
  · by_cases hm : m = [0x02#8]
    · have waiting := exec_dispatch_of_calibrateImu h (decode_message_eq_calibrateImu.2 hm)
      exact ⟨goto .calWait (record .calibReq s), waiting, fun _ => rfl, fun hne => absurd hm hne⟩
    · obtain ⟨t, ht⟩ := exists_exec_toInstr (decodeMessage m) s
      have hi : (decodeMessage m).toInstr ≠ .calibrateImu := fun he =>
        hm (decode_message_eq_calibrateImu.1 (congrArg Except.ok he))
      exact ⟨t.doneWith [], exec_dispatch_of_exec h rfl hi ht, fun he => absurd he hm, fun _ => ⟨rfl, rfl, rfl, rfl⟩⟩
  · exact (runEvent_calWait hs h).imp_left fun stayed => stayed.mphase.trans hs

end Sys2Proof.Machine
end

section
/-! The arbiter and its four grants (43_handoff.md, R231 to R235). -/

namespace Sys2Proof.Machine

/-! ### The priority of R231, one equation for each grant -/

section
variable {s : State}

theorem arbGrant_of_imu (himu : s.flag.imu = true) : arbGrant s = .imu := if_pos himu

/-- Below the IMU flag, the CS flag decides. -/
theorem arbGrant_of_imu_clear (himu : s.flag.imu = false) :
    arbGrant s = if s.flag.cs = true then .cs else if s.perEn && s.deadlineReached then .periodic else .idle :=
  if_neg (Bool.eq_false_iff.1 himu)

theorem arbGrant_of_cs (himu : s.flag.imu = false) (hcs : s.flag.cs = true) : arbGrant s = .cs := by
  rw [arbGrant_of_imu_clear himu, if_pos hcs]

/-- R32, R231: with both flags clear, the periodic grant asks for an interval that is not negative and a deadline reached. -/
theorem arbGrant_of_flags_clear (himu : s.flag.imu = false) (hcs : s.flag.cs = false) :
    arbGrant s = if 0 ≤ s.poInterval.toInt ∧ s.deadline ≤ s.nowUs then .periodic else .idle := by
  have due : (s.perEn && s.deadlineReached) = true ↔ 0 ≤ s.poInterval.toInt ∧ s.deadline ≤ s.nowUs := by
    rw [Bool.and_eq_true, perEn_iff, State.deadlineReached, decide_eq_true_iff]
  rw [arbGrant_of_imu_clear himu, if_neg (Bool.eq_false_iff.1 hcs)]
  exact if_congr due rfl rfl

/-- R231: ARB is the operation of the grant it chooses, in the same step. -/
theorem exec_arb_eq_exec_grant (hp : s.mphase = 4#4) : exec .arb s = exec (arbGrant s).toInstr s := by
  refine (inPhase_enabled .arb s _ hp).trans ?_
  cases arbGrant s <;> rfl

end

/-! ### The grants -/

/-- R235: the idle grant, with PO_PERF either way. -/
theorem exec_grantIdle (s : State) :
    exec .grantIdle s = .next { s with
      idleCount := if s.poPerf = true then s.idleCount + 1#16 else s.idleCount, mphase := 8#4 } := rfl

/-- Settles O30: the first three grants write what their definitions say, and PO_PERF selects what the idle grant counts. -/
theorem grantResults : Obligations.GrantResults := by
  refine fun s => ⟨rfl, rfl, rfl, fun counting => ?_, fun off => ?_⟩
  · rw [exec_grantIdle, if_pos counting]
  · rw [exec_grantIdle, if_neg (Bool.eq_false_iff.1 off)]

/-- Settles O31: ARB runs the grant that `arbGrant` chooses, and each clause is the case of one grant, whose effect O30 gives. -/
theorem arbGrantsByPriority : Obligations.ArbGrantsByPriority := by
  intro s hp
  obtain ⟨grantImu, grantCs, grantPeriodic, -⟩ := grantResults s
  rw [exec_arb_eq_exec_grant hp]
  refine ⟨fun himu => ?_, fun himu hcs => ?_, fun himu hcs hen hdue => ?_, fun himu hcs hnot => ?_⟩
  · rw [arbGrant_of_imu himu]
    exact grantImu
  · rw [arbGrant_of_cs himu hcs]
    exact grantCs
  · rw [arbGrant_of_flags_clear himu hcs, if_pos ⟨hen, hdue⟩]
    exact grantPeriodic
  · have notDue : ¬ (0 ≤ s.poInterval.toInt ∧ s.deadline ≤ s.nowUs) := by
      rintro ⟨hen, hdue⟩
      obtain hneg | hahead := hnot
      · exact absurd hen (not_le.2 hneg)
      · exact absurd hdue (BitVec.not_le.2 hahead)
    rw [arbGrant_of_flags_clear himu hcs, if_neg notDue]
    exact exec_grantIdle s

end Sys2Proof.Machine
end

section
/-! The end of an iteration and the performance window (43_handoff.md, R236, R238). -/

namespace Sys2Proof.Machine

/-- R238: the counters are reported and the window starts again, in any phase. -/
theorem exec_perfFlush (s : State) :
    exec .perfFlush s = .next { s with
      loopCount := 0#16, idleCount := 0#16, perfT0 := s.nowUs
      trace := s.trace ++ [.perfReq s.idleCount ((s.nowUs - s.perfT0).setWidth 32)] } := rfl

section
variable {s : State}

/-- R236: END counts or flushes while PO_PERF is 1, and goes to RX after that. -/
theorem exec_endIter_of_phase (hp : s.mphase = 8#4) :
    exec .endIter s = andThen
      (if s.poPerf = true then
        if s.loopCount.toNat + 1 = 10000 then exec .perfFlush s else .next { s with loopCount := s.loopCount + 1#16 }
      else .next s)
      (fun t => .next { t with mphase := 0#4 }) :=
  inPhase_enabled .endIter s _ hp

theorem exec_endIter_of_perf_off (hp : s.mphase = 8#4) (off : s.poPerf = false) :
    exec .endIter s = .next { s with mphase := 0#4 } := by
  rw [exec_endIter_of_phase hp, if_neg (Bool.eq_false_iff.1 off), andThen_next]

theorem exec_endIter_of_counting (hp : s.mphase = 8#4) (on : s.poPerf = true) (hcount : s.loopCount.toNat + 1 ≠ 10000) :
    exec .endIter s = .next { s with loopCount := s.loopCount + 1#16, mphase := 0#4 } := by
  rw [exec_endIter_of_phase hp, if_pos on, if_neg hcount, andThen_next]

theorem exec_endIter_of_flushing (hp : s.mphase = 8#4) (on : s.poPerf = true) (hcount : s.loopCount.toNat + 1 = 10000) :
    exec .endIter s = andThen (exec .perfFlush s) (fun t => .next { t with mphase := 0#4 }) := by
  rw [exec_endIter_of_phase hp, if_pos on, if_pos hcount]

end

/-- Settles O33: END's three cases, the last one through PERF_FLUSH. -/
theorem endAndFlushResults : Obligations.EndAndFlushResults := by
  refine fun s => ⟨exec_perfFlush s, fun hp => ⟨exec_endIter_of_perf_off hp, exec_endIter_of_counting hp, fun on hcount => ?_⟩⟩
  rw [exec_endIter_of_flushing hp on hcount, exec_perfFlush, andThen_next]

end Sys2Proof.Machine
end

section
/-! Alerts and the clock (43_handoff.md, R239, R240). -/

namespace Sys2Proof.Machine

/-- R240: ALERT reads no enable. -/
theorem exec_alert (l : Line) (s : State) :
    exec (.alert l) s = .next { s with latch := s.latch.put l true, trace := s.trace ++ [.alert l] } := rfl

/-- R239: an advance of at least 1 that does not wrap is accepted. -/
theorem exec_clockTick_of_accepted {s : State} {d : BitVec 64} (hd : d ≠ 0#64) (hwrap : s.nowUs.toNat + d.toNat < 2 ^ 64) :
    exec (.clockTick d) s = .next { s with nowUs := s.nowUs + d } :=
  congrArg Host.Outcome.next (if_pos ⟨hd, hwrap⟩)

/-- Settles O35: both lines by `exec_alert`; an accepted advance adds exactly `d`, since the sum does not wrap. -/
theorem alertAndClockResults : Obligations.AlertAndClockResults :=
  fun s _ => ⟨exec_alert .imu s, exec_alert .cs s, fun hd hwrap =>
    ⟨exec_clockTick_of_accepted hd hwrap, BitVec.toNat_add_of_lt hwrap⟩⟩

end Sys2Proof.Machine
end

section
/-! Wire bytes and polls, one at a time (41_frame_sync.md, R160 to R170). -/

namespace Sys2Proof.Machine

/-! ### The rows of R170 for a data byte -/

section
variable {b : Byte} {flen : BitVec 16} {cap : Nat}

theorem decodeWire_seekStart_of_data (hb : b ≠ 0x00#8) : decodeWire .seekStart flen cap b = .ok (.startData b) :=
  if_neg hb

theorem decodeWire_seekEnd_of_data (hb : b ≠ 0x00#8) : decodeWire .seekEnd flen cap b = .ok (.seekEndData b) :=
  if_neg hb

theorem decodeWire_accumulating_of_lt (hb : b ≠ 0x00#8) (hlt : flen.toNat < cap) :
    decodeWire .accumulating flen cap b = .ok (.accData b) :=
  (if_neg hb).trans (if_pos hlt)

theorem decodeWire_accumulating_of_eq (hb : b ≠ 0x00#8) (heq : flen.toNat = cap) :
    decodeWire .accumulating flen cap b = .ok (.accOverflow b) :=
  (if_neg hb).trans ((if_neg heq.not_lt).trans (if_pos heq))

end

/-- A wire byte decodes to the operation of the transition that R170 selects. -/
theorem decode_wire_eq_ok {fs : FsState} {flen : BitVec 16} {cap : Nat} {b : Byte} {i : Instr}
    (h : decode (.wire fs flen cap b) = .ok i) : ∃ op, decodeWire fs flen cap b = .ok op ∧ i = op.toInstr := by
  simp only [decode] at h
  split at h
  · rename_i op hop
    exact ⟨op, hop, (Except.ok.inj h).symm⟩
  · cases h

/-! ### The transitions that write more than a register -/

/-- R162: the report stands in the trace after all that was there. -/
theorem exec_syncStartData (b : Byte) (s : State) :
    exec (.syncStartData b) s =
      .next { s with fsState := .seekEnd, trace := s.trace ++ [.errReport 2#4 b 0#16 0#4] } := rfl

/-- R166: a data byte that fits is written at `flen`. -/
theorem exec_syncAccData_of_lt {s : State} (b : Byte) (hlt : s.flen.toNat < s.params.frameCap) :
    exec (.syncAccData b) s =
      .next { s with fb := s.fb.write s.flen.toNat b, flen := s.flen + 1#16 } := by
  change execSyncAccData b s = _
  rw [execSyncAccData, memWrite_next .fb s.flen.toNat b s hlt, andThen_next]
  rfl

/-- R61: a data byte that does not fit is not written. -/
theorem exec_syncAccData_of_le {s : State} (b : Byte) (hle : s.params.frameCap ≤ s.flen.toNat) :
    exec (.syncAccData b) s = .fault (.beyondCapacity .fb s.flen.toNat) := by
  have full : ¬ s.flen.toNat < s.size .fb := hle.not_gt
  change execSyncAccData b s = _
  rw [execSyncAccData, memWrite, if_neg full, andThen_fault]

theorem exec_syncAccOverflow (b : Byte) (s : State) :
    exec (.syncAccOverflow b) s = .next { s with
      flen := 0#16, fb := [], fsState := .seekEnd
      trace := s.trace ++ [.errReport 1#4 b (BitVec.ofNat 16 s.params.frameCap) 0#4] } := rfl

/-! ### Polled bytes -/

/-- MAIN polls in the synchronizer's state `fs`. -/
structure PollsIn (fs : FsState) (s : State) : Prop where
  phase : s.mphase = 0#4
  sync : s.fsState = fs

section
variable {s : State} {b : Byte}

/-- R160: in RX a byte runs the transition that the synchronizer's state selects. -/
theorem PollsIn.exec_rxPoll {fs : FsState} {op : SyncOp} (h : PollsIn fs s)
    (hop : decodeWire fs s.flen s.params.frameCap b = .ok op) :
    exec (.rxPoll (some b)) s = exec op.toInstr (record (.rxAnswer (some b)) s) :=
  exec_rxPoll_of_decodeWire h.phase (h.sync ▸ hop)

theorem exec_rxPoll_startDelim (h : PollsIn .seekStart s) :
    exec (.rxPoll (some 0x00#8)) s =
      .next { s with fsState := .accumulating, flen := 0#16, trace := s.trace ++ [.rxAnswer (some 0x00#8)] } :=
  h.exec_rxPoll (op := .startDelim) rfl

theorem exec_rxPoll_startData (h : PollsIn .seekStart s) (hb : b ≠ 0x00#8) :
    exec (.rxPoll (some b)) s = .next { s with
      fsState := .seekEnd, trace := s.trace ++ [.rxAnswer (some b), .errReport 2#4 b 0#16 0#4] } := by
  rw [h.exec_rxPoll (decodeWire_seekStart_of_data hb), SyncOp.toInstr, exec_syncStartData]
  simp [record]

theorem exec_rxPoll_seekEndDelim (h : PollsIn .seekEnd s) :
    exec (.rxPoll (some 0x00#8)) s =
      .next { s with fsState := .seekStart, trace := s.trace ++ [.rxAnswer (some 0x00#8)] } :=
  h.exec_rxPoll (op := .seekEndDelim) rfl

theorem exec_rxPoll_seekEndData (h : PollsIn .seekEnd s) (hb : b ≠ 0x00#8) :
    exec (.rxPoll (some b)) s = .next { s with trace := s.trace ++ [.rxAnswer (some b)] } :=
  h.exec_rxPoll (decodeWire_seekEnd_of_data hb)

theorem exec_rxPoll_accData (h : PollsIn .accumulating s) (hb : b ≠ 0x00#8) (hlt : s.flen.toNat < s.params.frameCap) :
    exec (.rxPoll (some b)) s = .next { s with
      fb := s.fb.write s.flen.toNat b, flen := s.flen + 1#16, trace := s.trace ++ [.rxAnswer (some b)] } :=
  (h.exec_rxPoll (decodeWire_accumulating_of_lt hb hlt)).trans (exec_syncAccData_of_lt b hlt)

theorem exec_rxPoll_accOverflow (h : PollsIn .accumulating s) (hb : b ≠ 0x00#8)
    (heq : s.flen.toNat = s.params.frameCap) :
    exec (.rxPoll (some b)) s = .next { s with
      flen := 0#16, fb := [], fsState := .seekEnd
      trace := s.trace ++ [.rxAnswer (some b), .errReport 1#4 b (BitVec.ofNat 16 s.params.frameCap) 0#4] } := by
  rw [h.exec_rxPoll (decodeWire_accumulating_of_eq hb heq), SyncOp.toInstr, exec_syncAccOverflow]
  simp [record]

end

/-- Settles O19: the operations write what their definitions say, and each polled clause is its row of R170. -/
theorem seekResults : Obligations.SeekResults := by
  refine fun s b => ⟨rfl, rfl, rfl, rfl, fun hp hfs => ?_, fun hp hfs => ?_⟩
  · have polls : PollsIn .seekStart s := ⟨hp, hfs⟩
    exact ⟨exec_rxPoll_startDelim polls, exec_rxPoll_startData polls⟩
  · have polls : PollsIn .seekEnd s := ⟨hp, hfs⟩
    exact ⟨exec_rxPoll_seekEndDelim polls, exec_rxPoll_seekEndData polls⟩

/-- Settles O21: the new buffer is one write at `flen`; below FRAME_CAP it is made, at or beyond it faults. -/
theorem frameDataResult : Obligations.FrameDataResult := by
  refine fun s b => ⟨fun hlt => ⟨s.fb.write s.flen.toNat b, ?_, fun a ha => ?_, ?_, fun hp hfs hb => ?_⟩, exec_syncAccData_of_le b⟩
  · exact Memory.read_write_same s.fb s.flen.toNat b
  · exact Memory.read_write_other s.fb s.flen.toNat a b ha
  · exact exec_syncAccData_of_lt b hlt
  · exact exec_rxPoll_accData ⟨hp, hfs⟩ hb hlt

/-- Settles O22: the polled clause is the row of R170 for a full frame. -/
theorem frameOverflowResult : Obligations.FrameOverflowResult :=
  fun s b => ⟨exec_syncAccOverflow b s, fun hp hfs heq hb => exec_rxPoll_accOverflow ⟨hp, hfs⟩ hb heq⟩

/-! ### Operations of another phase -/

/-- A MAIN operation waits in every other legal phase. -/
theorem inPhase_of_ne {p : Phase} {s : State} (k : Out) (hlegal : s.mphase ≤ 8#4) (hne : s.mphase ≠ p.bits) :
    inPhase p s k = .next s := by
  cases hq : Phase.ofBits s.mphase with
  | none => exact absurd ((Phase.ofBits_none_iff s.mphase).1 hq) (BitVec.not_lt.2 hlegal)
  | some q =>
    have hbits := Phase.bits_of_ofBits _ _ hq
    exact inPhase_waits p q s k hbits (fun he => hne (he ▸ hbits))

/-- R169: HANDOFF takes no poll. -/
theorem exec_rxPoll_handoff {s : State} (h : PollsIn .handoff s) (a : Option Byte) : exec (.rxPoll a) s = .next s := by
  refine (inPhase_enabled .rx s _ h.phase).trans ?_
  rw [h.sync]

/-- Settles O23: in RX a poll is answered by `execRxPoll_none` or runs the decoded transition; elsewhere it waits. -/
theorem rxPollResult : Obligations.RxPollResult := by
  refine fun s => ⟨execRxPoll_none s, fun b i hp hi => ?_, fun a hlegal hne => ?_, fun a hp hfs => ?_⟩
  · obtain ⟨op, hop, rfl⟩ := decode_wire_eq_ok hi
    exact exec_rxPoll_of_decodeWire hp hop
  · exact inPhase_of_ne (p := .rx) _ hlegal hne
  · exact exec_rxPoll_handoff ⟨hp, hfs⟩ a

end Sys2Proof.Machine
end

section
/-! Runs of polled bytes: whole frames, overlong frames and garbage (41_frame_sync.md, R174). -/

namespace Sys2Proof.Machine

theorem rxBytes_append (xs ys : List Byte) (s : State) : rxBytes (xs ++ ys) s = andThen (rxBytes xs s) (rxBytes ys) := by
  induction xs generalizing s with
  | nil => rfl
  | cons b xs ih =>
    simp only [List.cons_append, rxBytes]
    cases exec (.rxPoll (some b)) s with
    | next t => exact ih t
    | fault r => rfl
    | refused r => rfl

/-- What HOST's answers to the polls of `bs` leave in the trace (R45). -/
def answers (bs : List Byte) : List Transaction := bs.map (fun b => .rxAnswer (some b))

theorem answers_cons (b : Byte) (bs : List Byte) : answers (b :: bs) = .rxAnswer (some b) :: answers bs := rfl

/-- No answer is a report. -/
theorem filter_isReport_answers (bs : List Byte) : (answers bs).filter Transaction.isReport = [] := by
  simp [answers, Transaction.isReport]

/-- R164: data bytes in SEEK_END are discarded. -/
theorem rxBytes_seekEnd {bs : List Byte} {s : State} (h : PollsIn .seekEnd s) (hz : 0x00#8 ∉ bs) :
    rxBytes bs s = .next { s with trace := s.trace ++ answers bs } := by
  induction bs generalizing s with
  | nil => simp [rxBytes, answers]
  | cons b bs ih =>
    obtain ⟨hb, hbs⟩ := not_or.1 (mt List.mem_cons.2 hz)
    rw [rxBytes, exec_rxPoll_seekEndData h (Ne.symm hb), andThen_next,
      ih (by exact ⟨h.phase, h.sync⟩) hbs]
    simp [answers_cons]

/-- R163, R164: SEEK_END discards through the next delimiter. -/
theorem rxBytes_seekEnd_delim {bs : List Byte} {s : State} (h : PollsIn .seekEnd s) (hz : 0x00#8 ∉ bs) :
    rxBytes (bs ++ [0x00#8]) s = .next { s with fsState := .seekStart, trace := s.trace ++ answers (bs ++ [0x00#8]) } := by
  rw [rxBytes_append, rxBytes_seekEnd h hz, andThen_next, rxBytes]
  rw [exec_rxPoll_seekEndDelim (by exact ⟨h.phase, h.sync⟩)]
  simp [rxBytes, answers]

/-- R166: data bytes that fit are appended to FB. -/
theorem rxBytes_accumulating {bs : List Byte} {s : State} (hcap : s.params.frameCap ≤ 65535) (h : PollsIn .accumulating s)
    (hz : 0x00#8 ∉ bs) (hfit : s.flen.toNat + bs.length ≤ s.params.frameCap) :
    rxBytes bs s = .next { s with
      fb := writeBytes s.fb s.flen.toNat bs
      flen := BitVec.ofNat 16 (s.flen.toNat + bs.length)
      trace := s.trace ++ answers bs } := by
  induction bs generalizing s with
  | nil => simp [rxBytes, answers, writeBytes]
  | cons b bs ih =>
    obtain ⟨hb, hbs⟩ := not_or.1 (mt List.mem_cons.2 hz)
    rw [List.length_cons] at hfit ⊢
    have counted : (s.flen + 1#16).toNat = s.flen.toNat + 1 := BitVec.toNat_add_of_lt (y := 1#16) (by simp; omega)
    rw [rxBytes, exec_rxPoll_accData h (Ne.symm hb) (by omega), andThen_next,
      ih (by exact hcap) (by exact ⟨h.phase, h.sync⟩) hbs (by simp only [counted]; omega)]
    simp [counted, answers_cons, writeBytes, Nat.add_assoc, Nat.add_comm 1]

/-- R167: the delimiter after at least one byte completes the frame. -/
theorem exec_rxPoll_accDelimEnd {s : State} (h : PollsIn .accumulating s) (hlen : 1#16 ≤ s.flen) :
    exec (.rxPoll (some 0x00#8)) s = .next { s with
      fsState := .handoff, mphase := 1#4, trace := s.trace ++ [.rxAnswer (some 0x00#8)] } := by
  obtain ⟨-, -, polled⟩ := frameDelimiterResults s
  exact (polled h.phase h.sync).2 hlen

/-- R80, R161, R166, R167: the state after a whole frame that fits. -/
theorem rxBytes_frame {body : List Byte} {s : State} (hcap : s.params.frameCap ≤ 65535) (h : PollsIn .seekStart s)
    (hne : body ≠ []) (hz : 0x00#8 ∉ body) (hfit : body.length ≤ s.params.frameCap) :
    rxBytes (0x00#8 :: (body ++ [0x00#8])) s = .next { s with
      fb := writeBytes s.fb 0 body
      flen := BitVec.ofNat 16 body.length
      fsState := .handoff
      mphase := 1#4
      trace := s.trace ++ answers (0x00#8 :: (body ++ [0x00#8])) } := by
  have some_bytes : 1#16 ≤ BitVec.ofNat 16 body.length := by
    have := List.length_pos_iff.2 hne
    bv_omega
  rw [rxBytes, exec_rxPoll_startDelim h, andThen_next, rxBytes_append,
    rxBytes_accumulating (by exact hcap) (by exact ⟨h.phase, rfl⟩) hz (by simpa using hfit), andThen_next, rxBytes,
    exec_rxPoll_accDelimEnd (by exact ⟨h.phase, rfl⟩) (by simpa using some_bytes)]
  simp [rxBytes, answers]

/-- Settles O26: `rxBytes_frame` gives the whole state; FB holds the bytes written into it. -/
theorem hostFrameIsDelivered : Obligations.HostFrameIsDelivered := by
  intro s body ⟨_, hcap, _⟩ hp hfs hne hz hfit
  have hlen : (BitVec.ofNat 16 body.length).toNat = body.length := by simp; omega
  exact ⟨_, rxBytes_frame hcap ⟨hp, hfs⟩ hne hz hfit, ⟨rfl, hlen, holds_writeBytes body s.fb⟩, rfl, rfl⟩

/-- R83: every block has a code byte, so an encoding is longer than its message. -/
theorem lt_length_encodeFrom (run src : List Byte) : run.length + src.length < (encodeFrom run src).length := by
  fun_induction encodeFrom run src with
  | case1 run => simp
  | case2 run bs ih => simp at ih ⊢; omega
  | case3 run b bs hb hfull ih => simp at ih ⊢; omega
  | case4 run b bs hb hgo ih => simp at ih ⊢; omega

theorem length_lt_length_encodeFn (x : List Byte) : x.length < (encodeFn x).length := by
  simpa [encodeFn_eq_blocks] using lt_length_encodeFrom [] x

/-- R128, R171: DECODE of an encoded message that fits MB puts the message there, raises nothing and goes to DISPATCH. -/
theorem exec_decode_of_encoded {s : State} {x : List Byte} (h : s.atFrame (encodeFn x)) (hx : x.length ≤ s.params.msgCap) :
    ∃ t, exec .decode s = .next t ∧ t.atMessage x ∧ t.dstat = 0#4 ∧ t.trace = s.trace := by
  obtain ⟨decoded, -⟩ := decodeInvertsEncode x s.params.msgCap hx
  obtain ⟨-, succeeds⟩ := decodeStepResult s (encodeFn x) x 0#4 h decoded
  obtain ⟨mb', next, held, -⟩ := succeeds rfl
  have counted : (BitVec.ofNat 16 x.length).toNat = x.length := by
    have := length_lt_length_encodeFn x
    have := s.flen.isLt
    obtain ⟨-, hlen, -⟩ := h
    rw [BitVec.toNat_ofNat]
    omega
  exact ⟨_, next, ⟨rfl, counted, held⟩, rfl, rfl⟩

/-- Settles O27: the frame is received whole (`rxBytes_frame`) and decoded (`exec_decode_of_encoded`); the message fits MB because its
encoding, at least one byte longer, fits FB. -/
theorem hostMessageReachesDispatcher : Obligations.HostMessageReachesDispatcher := by
  intro s x ⟨_, hcap, hmsg, _⟩ hp hfs hfit
  have shorter := length_lt_length_encodeFn x
  have not_empty : encodeFn x ≠ [] := List.length_pos_iff.1 (one_le_length_encodeFn x)
  have hlen : (BitVec.ofNat 16 (encodeFn x).length).toNat = (encodeFn x).length := by simp; omega
  have fits_mb : x.length ≤ s.params.msgCap := by omega
  rw [rxBytes_frame hcap ⟨hp, hfs⟩ not_empty (zero_not_mem_encodeFn x) hfit, andThen_next]
  exact exec_decode_of_encoded ⟨rfl, hlen, holds_writeBytes (encodeFn x) s.fb⟩ fits_mb

/-- Settles O28: the body is the bytes that fit, the one that does not, and a rest that SEEK_END discards. -/
theorem overlongFrameRecovers : Obligations.OverlongFrameRecovers := by
  intro s body ⟨_, hcap, _⟩ hp hfs hflen hz hlong
  obtain ⟨fits, b, rest, rfl, hlen⟩ : ∃ fits b rest, body = fits ++ b :: rest ∧ fits.length = s.params.frameCap :=
    ⟨body.take s.params.frameCap, body[s.params.frameCap], body.drop (s.params.frameCap + 1), by simp, by simp; omega⟩
  simp only [List.mem_append, List.mem_cons, not_or] at hz
  obtain ⟨hfits, hb, hrest⟩ := hz
  have full : (BitVec.ofNat 16 (s.flen.toNat + fits.length)).toNat = s.params.frameCap := by simp [hflen]; omega
  rw [List.append_assoc, rxBytes_append, rxBytes_accumulating hcap ⟨hp, hfs⟩ hfits (by simp [hflen, hlen]), andThen_next,
    List.cons_append, rxBytes, exec_rxPoll_accOverflow (by exact ⟨hp, hfs⟩) (Ne.symm hb) (by exact full), andThen_next,
    rxBytes_seekEnd_delim (by exact ⟨hp, rfl⟩) hrest]
  refine ⟨_, answers fits ++ ([.rxAnswer (some b), .errReport 1#4 b (BitVec.ofNat 16 s.params.frameCap) 0#4] ++
    answers (rest ++ [0x00#8])), rfl, hp, rfl, rfl, by simp, ?_⟩
  rw [List.filter_append, List.filter_append, filter_isReport_answers, filter_isReport_answers, List.append_nil, List.nil_append]
  simp [Transaction.isReport, ← hlen]

/-- Settles O29: the first byte raises SYNC_LOST, and SEEK_END discards the others through the delimiter. -/
theorem garbageIsDiscarded : Obligations.GarbageIsDiscarded := by
  intro s b data hp hfs hz
  obtain ⟨hb, hdata⟩ := not_or.1 (mt List.mem_cons.2 hz)
  rw [rxBytes, exec_rxPoll_startData ⟨hp, hfs⟩ (Ne.symm hb), andThen_next,
    rxBytes_seekEnd_delim (by exact ⟨hp, rfl⟩) hdata]
  simp [answers, ← hfs]

end Sys2Proof.Machine
end

section
/-! What every pass of the decoder keeps, and how a decode ends (40_codec.md, R123, R127; R171). -/

namespace Sys2Proof.Machine

/-! ### A pass takes input and extends the output -/

/-- DEC's variables `w` come from `v` by taking input and giving output within the capacity (R61, R123). -/
structure DecExtends (v w : DecWork) : Prop where
  cap : w.cap = v.cap
  fits : w.dst.length ≤ w.cap
  input : ∃ k, w.rest = v.rest.drop k
  output : ∃ data, w.dst = v.dst ++ data

theorem DecExtends.trans {u v w : DecWork} (h : DecExtends u v) (h' : DecExtends v w) : DecExtends u w := by
  obtain ⟨j, hj⟩ := h.input
  obtain ⟨k, hk⟩ := h'.input
  obtain ⟨xs, hxs⟩ := h.output
  obtain ⟨ys, hys⟩ := h'.output
  exact ⟨h'.cap.trans h.cap, h'.fits, ⟨j + k, by rw [hk, hj, List.drop_drop]⟩, ⟨xs ++ ys, by rw [hys, hxs, List.append_assoc]⟩⟩

/-- R127: no mask that DEC sets holds NullPointer, bit 0. -/
theorem statSet_bit0 (c : Bool) {mask : BitVec 4} (hm : mask.getLsbD 0 = false) (stat : BitVec 4) :
    (statSet c mask stat).getLsbD 0 = stat.getLsbD 0 := by
  cases c with
  | false => rfl
  | true => simp only [statSet, if_true, BitVec.getLsbD_or, hm, Bool.or_false]

theorem decCopy_bit0 (n : Nat) (w : DecWork) : (decCopy n w).stat.getLsbD 0 = w.stat.getLsbD 0 := by
  simp only [decCopy]
  rw [statSet_bit0 _ rfl, statSet_bit0 _ rfl, statSet_bit0 _ rfl]

theorem decCopy_extends (n : Nat) {w : DecWork} (h : w.dst.length ≤ w.cap) : DecExtends w (decCopy n w) :=
  ⟨rfl, decCopy_dst_le n w h, ⟨_, decCopy_rest n w⟩, ⟨_, decCopy_dst n w⟩⟩

/-- After a run the decode returns, appends the zero of the run, or does neither (R123). -/
theorem decAfter_cases (z : Bool) (w : DecWork) :
    (∃ stat, decAfter z w = { w with stat := stat, ended := true } ∧ stat.getLsbD 0 = w.stat.getLsbD 0) ∨
      (w.rest ≠ [] ∧ hasOverflow w.stat = false ∧
        (decAfter z w = w ∨ (decAfter z w = { w with dst := w.dst ++ [0x00#8] } ∧ w.dst.length ≠ w.cap))) := by
  by_cases hstop : (w.rest.isEmpty || hasOverflow w.stat) = true
  · exact .inl ⟨w.stat, if_pos hstop, rfl⟩
  have goes_on : w.rest ≠ [] ∧ hasOverflow w.stat = false := by simpa using hstop
  unfold decAfter
  rw [if_neg hstop]
  cases z with
  | false => exact .inr ⟨goes_on.1, goes_on.2, .inl rfl⟩
  | true =>
    rw [if_pos rfl]
    by_cases hfull : w.dst.length = w.cap
    · exact .inl ⟨_, if_pos hfull, by simp [statOverflow]⟩
    · exact .inr ⟨goes_on.1, goes_on.2, .inr ⟨if_neg hfull, hfull⟩⟩

theorem decAfter_extends (z : Bool) {w : DecWork} (h : w.dst.length ≤ w.cap) : DecExtends w (decAfter z w) := by
  obtain ⟨stat, heq, -⟩ | ⟨-, -, heq | ⟨heq, hfull⟩⟩ := decAfter_cases z w <;> rw [heq]
  · exact ⟨rfl, h, ⟨0, rfl⟩, ⟨[], (List.append_nil _).symm⟩⟩
  · exact ⟨rfl, h, ⟨0, rfl⟩, ⟨[], (List.append_nil _).symm⟩⟩
  · exact ⟨rfl, by simp; omega, ⟨0, rfl⟩, ⟨_, rfl⟩⟩

/-- R123: a decode goes on only without BufferOverflow and with input left. -/
theorem decAfter_running {z : Bool} {w : DecWork} (h : (decAfter z w).ended = false) :
    (decAfter z w).stat.getLsbD 1 = false ∧ (decAfter z w).rest ≠ [] := by
  obtain ⟨stat, heq, -⟩ | ⟨hrest, hstat, heq | ⟨heq, -⟩⟩ := decAfter_cases z w <;> rw [heq] at h ⊢
  · cases h
  · exact ⟨(hasOverflow_eq_getLsbD _).symm.trans hstat, hrest⟩
  · exact ⟨(hasOverflow_eq_getLsbD _).symm.trans hstat, hrest⟩

theorem decAfter_bit0 (z : Bool) (w : DecWork) : (decAfter z w).stat.getLsbD 0 = w.stat.getLsbD 0 := by
  obtain ⟨stat, heq, hstat⟩ | ⟨-, -, heq | ⟨heq, -⟩⟩ := decAfter_cases z w <;> rw [heq]
  exact hstat

/-- What one pass of DEC does, whatever its code byte. -/
structure DecPassed (v w : DecWork) : Prop where
  extends_output : DecExtends v w
  running : w.ended = false → w.stat.getLsbD 1 = false ∧ w.rest ≠ []
  bit0 : w.stat.getLsbD 0 = v.stat.getLsbD 0

theorem decAfter_decCopy_passed (z : Bool) (n : Nat) {w : DecWork} (h : w.dst.length ≤ w.cap) :
    DecPassed w (decAfter z (decCopy n w)) :=
  ⟨(decCopy_extends n h).trans (decAfter_extends z (decCopy_dst_le n w h)), decAfter_running,
    (decAfter_bit0 z _).trans (decCopy_bit0 n w)⟩

theorem decZero_passed {w : DecWork} (h : w.dst.length ≤ w.cap) : DecPassed w (decZero w) :=
  ⟨⟨rfl, h, ⟨0, rfl⟩, ⟨[], (List.append_nil _).symm⟩⟩, nofun, by simp [decZero, statZeroByte]⟩

theorem decPass_passed (c : Byte) {w : DecWork} (h : w.dst.length ≤ w.cap) : DecPassed w (decPass c w) := by
  unfold decPass
  cases decodeCode c with
  | zero => exact decZero_passed h
  | full => exact decAfter_decCopy_passed false 254 h
  | run c => exact decAfter_decCopy_passed true (c.toNat - 1) h

/-! ### The code-byte operations -/

/-- The decode has returned: no operation of DEC is left (log entry 7). -/
theorem onDec_of_ended (f : DecWork → DecWork) {s : State} (h : s.dec.ended = true) : onDec f s = .next s := by
  simp [onDec, h]

/-- The operation of a code byte's class acts on DEC's variables, and by one pass of DEC. -/
theorem exists_onDec_of_mem {i : Instr} {c : Byte} (hi : i ∈ [Instr.codeZero, .codeFull, .codeRun c]) :
    ∃ f, (∀ s, exec i s = onDec f s) ∧ ∀ w : DecWork, w.dst.length ≤ w.cap → DecPassed w (f w) := by
  simp only [List.mem_cons, List.not_mem_nil, or_false] at hi
  obtain rfl | rfl | rfl := hi
  · exact ⟨decZero, fun _ => rfl, fun _ => decZero_passed⟩
  · exact ⟨decFull, fun _ => rfl, fun _ => decAfter_decCopy_passed false 254⟩
  · exact ⟨decRun c, fun _ => rfl, fun _ => decAfter_decCopy_passed true (c.toNat - 1)⟩

/-- Settles O12: the operation makes one pass, and every pass is `DecPassed`. -/
theorem decoderPassesStayInBounds : Obligations.DecoderPassesStayInBounds := by
  intro s c i hi hfit
  obtain ⟨f, hexec, hpass⟩ := exists_onDec_of_mem hi
  obtain ⟨⟨hcap, hle, ⟨k, hk⟩, ⟨data, hdata⟩⟩, hrun, -⟩ := hpass s.dec hfit
  refine ⟨fun he => (hexec s).trans (onDec_of_ended f he), fun he => ⟨f s.dec, k, data, ?_, hcap, hle, hk, hdata, hrun⟩⟩
  exact (hexec s).trans (onDec_of_running rfl he)

/-! ### The whole decode -/

/-- R123, R127: every pass takes a byte, so with fuel for the input left the decode ends; bit 0 of the status stays. -/
theorem decLoop_ends (fuel : Nat) {w : DecWork} (hfit : w.dst.length ≤ w.cap) (hfuel : w.rest.length < fuel) :
    (decLoop fuel w).ended = true ∧ (decLoop fuel w).stat.getLsbD 0 = w.stat.getLsbD 0 := by
  induction fuel generalizing w with
  | zero => exact absurd hfuel (Nat.not_lt_zero _)
  | succ fuel ih =>
    by_cases he : w.ended = true
    · rw [decLoop_of_ended _ he]
      exact ⟨he, rfl⟩
    cases hrest : w.rest with
    | nil => simp [decLoop, he, hrest]
    | cons c r =>
      have pass := decPass_passed c (w := { w with rest := r }) hfit
      obtain ⟨k, hk⟩ := pass.extends_output.input
      have shorter : (decPass c { w with rest := r }).rest.length < fuel := by
        rw [hk, List.length_drop]
        simp only [hrest, List.length_cons] at hfuel ⊢
        omega
      have step : decLoop (fuel + 1) w = decLoop fuel (decPass c { w with rest := r }) := by simp [decLoop, he, hrest]
      obtain ⟨hend, hbit⟩ := ih pass.extends_output.fits shorter
      rw [step]
      exact ⟨hend, hbit.trans pass.bit0⟩

/-- Settles O17: the loop has fuel for one pass more than there are bytes, and starts within the capacity with status 0. -/
theorem decodeFnCompletes : Obligations.DecodeFnCompletes := by
  intro src cap s
  obtain ⟨hend, hbit⟩ := decLoop_ends (src.length + 1) (w := decStart src cap) (Nat.zero_le cap) (Nat.lt_succ_self _)
  exact ⟨decRunAll src cap, rfl, hend, rfl, decodeFn_length_le src cap, hbit.trans BitVec.getLsbD_zero⟩

/-! ### Frame bodies (R171, corner cases) -/

/-- DEC at work on a frame body: what is left holds no 0x00 and fits with the code byte still to be taken, or the decode has ended with
InputTooShort at most. -/
inductive DecodesBody (cap : Nat) : DecWork → Prop
  | running {rest dst : List Byte} (hz : 0x00#8 ∉ rest) (hfit : dst.length + rest.length ≤ cap + 1) :
      DecodesBody cap ⟨rest, dst, 0#4, cap, false⟩
  | ended {rest dst : List Byte} {stat : BitVec 4} (h : stat = 0b0000#4 ∨ stat = 0b1000#4) :
      DecodesBody cap ⟨rest, dst, stat, cap, true⟩

section
variable {rest dst : List Byte} {cap : Nat}

/-- A run that leaves input has room for its zero: the input left is one byte at least. -/
theorem decAfter_decCopy_decodesBody (z : Bool) (n : Nat) (hz : 0x00#8 ∉ rest) (hfit : dst.length + rest.length ≤ cap) :
    DecodesBody cap (decAfter z (decCopy n ⟨rest, dst, 0#4, cap, false⟩)) := by
  obtain hn | hn | hn := lt_trichotomy rest.length n
  · rw [decAfter_decCopy_of_short hn hfit, zeroBit_of_not_mem hz]
    exact .ended (.inr rfl)
  · rw [decAfter_decCopy_of_exact hn (hn ▸ hfit), zeroBit_of_not_mem hz]
    exact .ended (.inl rfl)
  · have more : rest.drop n ≠ [] := by simpa using hn
    have hdrop : 0x00#8 ∉ rest.drop n := fun hm => hz (List.mem_of_mem_drop hm)
    have out_length : (dst ++ rest.take n).length = dst.length + n := by simp; omega
    rw [decCopy_of_fits hn.le (by omega), zeroBit_of_not_mem (fun hm => hz (List.mem_of_mem_take hm)), BitVec.or_zero]
    cases z with
    | false =>
      rw [decAfter_false more rfl]
      exact .running hdrop (by rw [out_length, List.length_drop]; omega)
    | true =>
      rw [decAfter_true_of_lt more rfl (by omega)]
      exact .running hdrop (by rw [List.length_append, out_length, List.length_drop, List.length_singleton]; omega)

theorem decPass_decodesBody {c : Byte} (hc : c ≠ 0x00#8) (hz : 0x00#8 ∉ rest) (hfit : dst.length + rest.length ≤ cap) :
    DecodesBody cap (decPass c ⟨rest, dst, 0#4, cap, false⟩) := by
  unfold decPass decodeCode
  rw [if_neg hc]
  split_ifs
  · exact decAfter_decCopy_decodesBody false 254 hz hfit
  · exact decAfter_decCopy_decodesBody true (c.toNat - 1) hz hfit

end

theorem decLoop_decodesBody (fuel : Nat) {cap : Nat} {w : DecWork} (h : DecodesBody cap w) :
    DecodesBody cap (decLoop fuel w) := by
  induction fuel generalizing w with
  | zero => exact h
  | succ fuel ih =>
    cases h with
    | ended hs =>
      rw [decLoop_of_ended _ rfl]
      exact .ended hs
    | @running rest dst hz hfit =>
      cases rest with
      | nil => exact .ended (.inl rfl)
      | cons c rest =>
        obtain ⟨hc, hrest⟩ := not_or.1 (mt List.mem_cons.2 hz)
        rw [decLoop_cons]
        exact ih (decPass_decodesBody (Ne.symm hc) hrest (by simp only [List.length_cons] at hfit; omega))

/-- Settles O18: DEC is at work on the frame body from its start to its end, where only InputTooShort can be set. -/
theorem frameBodyFailsOnlyShort : Obligations.FrameBodyFailsOnlyShort := by
  intro body cap hz hlen
  have start : DecodesBody cap (decStart body cap) := .running hz (by simpa using hlen)
  obtain ⟨hend, -⟩ := decLoop_ends (body.length + 1) (w := decStart body cap) (Nat.zero_le cap) (Nat.lt_succ_self _)
  have done := decLoop_decodesBody (body.length + 1) start
  rw [decodeFn, decRunAll]
  generalize decLoop (body.length + 1) (decStart body cap) = w at hend done ⊢
  cases done with
  | running => cases hend
  | ended h => exact h

/-! ### The encoder's capacity (R133) -/

theorem maxEnc_mono {m n : Nat} (h : m ≤ n) : maxEnc m ≤ maxEnc n := by
  unfold maxEnc
  split <;> split <;> omega

/-- R122: the length bound of an encoding, by `MaxEnc`. -/
theorem length_encodeFn_le (x : List Byte) : (encodeFn x).length ≤ maxEnc x.length := by
  obtain ⟨bound, -⟩ := encodedLengthBound
  exact (bound x).1

/-- Settles O44: `MaxEnc` bounds the encoding and is monotone. -/
theorem defaultEncoderCapacitySuffices : Obligations.DefaultEncoderCapacitySuffices := by
  refine ⟨rfl, fun p m hcap hm => ?_⟩
  rw [hcap]
  exact (length_encodeFn_le m).trans (maxEnc_mono hm)

end Sys2Proof.Machine
end

section
/-! The encoder and the decoder of the operations (30_encoding.md). -/

namespace Sys2Proof.Machine

/-! ### Decoding an encoding -/

theorem be16_be16Hi_be16Lo (v : BitVec 16) : be16 (be16Hi v) (be16Lo v) = v := by
  rw [be16, be16Hi, be16Lo, BitVec.extractLsb'_append_extractLsb'_eq_extractLsb' (by omega)]
  exact BitVec.extractLsb'_eq_self

/-- R191: a rejected opcode with a payload of zeros is read back with the payload's length. -/
theorem decode_encode_unknownOpcode {op : Byte} (plen : BitVec 16) (hop : 5#8 < op) :
    decode (encode (.unknownOpcode op plen)) = .ok (.unknownOpcode op plen) := by
  have row := Selects.unknownOpcode (List.replicate plen.toNat 0#8) hop
  simpa [encode] using row.decode_eq

/-- R192: a rejected length is read back, since the payload of zeros has it. -/
theorem decode_encode_badLength {op : Byte} {plen : BitVec 16} (hop : op ≤ 5#8) (hlen : expectedPlen op ≠ some plen.toNat) :
    decode (encode (.badLength op plen)) = .ok (.badLength op plen) := by
  have row := Selects.badLength (List.replicate plen.toNat 0#8) hop (by simpa using hlen)
  simpa [encode] using row.decode_eq

theorem decodeCode_run {c : Byte} (h0 : c ≠ 0x00#8) (hfull : c ≠ 0xFF#8) : decodeCode c = .run c :=
  (if_neg h0).trans (if_neg hfull)

/-- Settles O45: the operations with a condition on an operand are read back by that condition, the others as they stand. -/
theorem decodeEncodeAgree : Obligations.DecodeEncodeAgree := by
  intro i hi
  cases i with
  | setProgramOptions level interval perf =>
    have row := Selects.setProgramOptions level (be16Hi interval) (be16Lo interval) perf
    rw [be16_be16Hi_be16Lo] at row
    exact row.decode_eq
  | unknownOpcode op plen =>
    obtain ⟨hop, -⟩ : 5#8 < op ∧ plen ≠ 0xFFFF#16 := by simpa [Instr.wellFormed] using hi
    exact decode_encode_unknownOpcode plen hop
  | badLength op plen =>
    obtain ⟨⟨hop, hlen⟩, -⟩ : (op ≤ 5#8 ∧ expectedPlen op ≠ some plen.toNat) ∧ plen ≠ 0xFFFF#16 := by
      simpa [Instr.wellFormed] using hi
    exact decode_encode_badLength hop hlen
  | codeRun c =>
    obtain ⟨h0, hfull⟩ : c ≠ 0#8 ∧ c ≠ 0xFF#8 := by simpa [Instr.wellFormed] using hi
    simp [encode, decode, decodeCode_run h0 hfull, CodeClass.toInstr]
  | syncStartData b =>
    have hb : b ≠ 0#8 := of_decide_eq_true hi
    simp [encode, decode, decodeWire_seekStart_of_data hb, SyncOp.toInstr]
  | syncSeekEndData b =>
    have hb : b ≠ 0#8 := of_decide_eq_true hi
    simp [encode, decode, decodeWire_seekEnd_of_data hb, SyncOp.toInstr]
  | syncAccData b =>
    have hb : b ≠ 0#8 := of_decide_eq_true hi
    simp [encode, decode, decodeWire_accumulating_of_lt hb, SyncOp.toInstr]
  | syncAccOverflow b =>
    have hb : b ≠ 0#8 := of_decide_eq_true hi
    simp [encode, decode, decodeWire_accumulating_of_eq hb, SyncOp.toInstr]
  | _ => rfl

/-! ### What the decoder gives is well-formed -/

/-- R86: a message that `mlen` counts has a payload length below 65535. -/
theorem ofNat_payload_length {n : Nat} (h : n + 1 ≤ 65535) :
    (BitVec.ofNat 16 n).toNat = n ∧ BitVec.ofNat 16 n ≠ 0xFFFF#16 :=
  ⟨by simp; omega, by bv_omega⟩

theorem wellFormed_of_decode_message {m : List Byte} {i : Instr} (hm : m.length ≤ 65535) (h : decode (.message m) = .ok i) :
    i.wellFormed = true := by
  cases m with
  | nil =>
    cases h
    rfl
  | cons op p =>
    obtain ⟨hlen, hmax⟩ := ofNat_payload_length hm
    cases decode_message_iff_selects.1 h with
    | unknownOpcode _ hop => simp [Instr.wellFormed, hop, hmax]
    | badLength _ hop hp => simp [Instr.wellFormed, hop, hlen, hp, hmax]
    | _ => rfl

theorem wellFormed_of_decodeCode (c : Byte) : (decodeCode c).toInstr.wellFormed = true := by
  unfold decodeCode
  split_ifs with h0 hfull
  · rfl
  · rfl
  · simp [CodeClass.toInstr, Instr.wellFormed, h0, hfull]

/-- R81: the classes of R170 that carry a byte are those of a byte that is no delimiter. -/
theorem wellFormed_of_decodeWire {fs : FsState} {flen : BitVec 16} {cap : Nat} {b : Byte} {op : SyncOp}
    (h : decodeWire fs flen cap b = .ok op) : op.toInstr.wellFormed = true := by
  have data (hb : b ≠ 0#8) : decide (b ≠ 0#8) = true := decide_eq_true hb
  cases fs with
  | handoff => cases h
  | seekStart =>
    simp only [decodeWire] at h
    split_ifs at h with hb <;> cases h
    exacts [rfl, data hb]
  | seekEnd =>
    simp only [decodeWire] at h
    split_ifs at h with hb <;> cases h
    exacts [rfl, data hb]
  | accumulating =>
    simp only [decodeWire] at h
    split_ifs at h with hb <;> cases h
    exacts [rfl, rfl, data hb, data hb]

theorem wellFormed_of_grant (g : Grant) : g.toInstr.wellFormed = true := by
  cases g <;> rfl

/-- A port-free operation of MAIN has no operand. -/
theorem wellFormed_of_decodePhase {v : BitVec 4} {i : Instr} (h : decodePhase v = .ok i) : i.wellFormed = true := by
  unfold decodePhase at h
  split at h <;> cases h <;> rfl

theorem wellFormed_of_decodePort {t : Trigger} {i : Instr} (ht : t ≠ .clock 0#64) (h : decodePort t = .ok i) :
    i.wellFormed = true := by
  cases t with
  | mphase v => exact wellFormed_of_decodePhase h
  | clock d =>
    cases h
    have hd : d ≠ 0#64 := fun he => ht (he ▸ rfl)
    exact decide_eq_true hd
  | _ =>
    cases h
    rfl

/-- Settles O46, by the space the operation is decoded in. -/
theorem decodedIsWellFormed : Obligations.DecodedIsWellFormed := by
  intro e i hm hclock h
  cases e with
  | message m => exact wellFormed_of_decode_message (hm m rfl) h
  | code c =>
    cases h
    exact wellFormed_of_decodeCode c
  | wire fs flen cap b =>
    obtain ⟨op, hop, rfl⟩ := decode_wire_eq_ok h
    exact wellFormed_of_decodeWire hop
  | grant g =>
    cases h
    exact wellFormed_of_grant _
  | port t => exact wellFormed_of_decodePort (fun ht => hclock (ht ▸ rfl)) h

/-- Settles O47: each word is decoded by computation. -/
theorem wordsOfTheTables : Obligations.WordsOfTheTables :=
  ⟨rfl, rfl, rfl, rfl, rfl, rfl, rfl, rfl, rfl, rfl⟩

end Sys2Proof.Machine
end

section
/-! Stepping: the operation an event selects, and the events that wait (10_state.md, R7, R21). -/

namespace Sys2Proof.Machine

/-- R21: RX, CAL_WAIT and SVC_WAIT have no port-free operation. -/
theorem decodePhase_of_waiting {v : BitVec 4} (h : v = 0#4 ∨ v = 3#4 ∨ v = 5#4) : decodePhase v = .error (.awaitsPort v) := by
  obtain rfl | rfl | rfl := h <;> rfl

theorem decodePhase_of_illegal {v : BitVec 4} (h : 8#4 < v) : decodePhase v = .error (.illegalPhase v) := by
  rw [decodePhase, (Phase.ofBits_none_iff v).2 h]

theorem runEvent_of_decode {e : Event} {s : State} {i : Instr} (h : decode (.port (Event.trigger s e)) = .ok i) :
    runEvent e s = exec i s := by
  rw [runEvent, h]

/-- MAIN's event where its phase selects no operation. -/
theorem runEvent_main_of_error {s : State} {e : DecodeError} (h : decodePhase s.mphase = .error e) :
    runEvent .main s = noOperation e s := by
  have decoded : decode (.port (Event.trigger s .main)) = .error e := h
  rw [runEvent, decoded]

/-- Settles O48: `nextEvent` takes the event, and MAIN's phase selects its operation, waits or is none. -/
theorem stepRunsSelectedOperation : Obligations.StepRunsSelectedOperation := by
  refine ⟨fun s e r h => ?_, fun s h => ?_, fun s e i => runEvent_of_decode, fun s h => ?_, fun s h => ?_⟩
  · rw [step, nextEvent, h]
  · rw [step, nextEvent, h]
  · rw [runEvent_main_of_error (decodePhase_of_waiting h)]
    rfl
  · rw [runEvent_main_of_error (decodePhase_of_illegal h)]
    rfl

/-- R21: an operation of MAIN is enabled in one phase. -/
theorem exists_inPhase_of_mem {i : Instr} {v : BitVec 4} {a : Option Byte} {l : Line}
    (h : (i, v) ∈ [(Instr.rxPoll a, 0#4), (.decode, 1#4), (.dispatch, 2#4), (.calDone, 3#4), (.arb, 4#4), (.svcDone l, 5#4),
      (.rearm1, 6#4), (.rearm2, 7#4), (.endIter, 8#4)]) (s : State) :
    ∃ p k, v = Phase.bits p ∧ exec i s = inPhase p s k := by
  simp only [List.mem_cons, List.not_mem_nil, or_false, Prod.mk.injEq] at h
  obtain ⟨rfl, rfl⟩ | ⟨rfl, rfl⟩ | ⟨rfl, rfl⟩ | ⟨rfl, rfl⟩ | ⟨rfl, rfl⟩ | ⟨rfl, rfl⟩ | ⟨rfl, rfl⟩ | ⟨rfl, rfl⟩ | ⟨rfl, rfl⟩ := h
  · exact ⟨.rx, _, rfl, rfl⟩
  · exact ⟨.decode, _, rfl, rfl⟩
  · exact ⟨.dispatch, _, rfl, rfl⟩
  · exact ⟨.calWait, _, rfl, rfl⟩
  · exact ⟨.arb, _, rfl, rfl⟩
  · exact ⟨.svcWait, _, rfl, rfl⟩
  · exact ⟨.rearm1, _, rfl, rfl⟩
  · exact ⟨.rearm2, _, rfl, rfl⟩
  · exact ⟨.endIter, _, rfl, rfl⟩

/-- R244: an arming that is not accepted changes nothing. -/
theorem exec_bootArm_of_legal {s : State} (l : Line) (hlegal : s.mphase ≤ 8#4) :
    exec (.bootArm l) s = .next (if s.ien.get l || s.flag.get l || servicing s l then s
      else setIen l true (setLatch l false (record (.arm l) s))) := by
  change execBootArm l s = _
  rw [execBootArm]
  split
  · rename_i hn
    exact absurd ((Phase.ofBits_none_iff s.mphase).1 hn) (BitVec.not_lt.2 hlegal)
  · rfl

/-- R131: TX_PUT is not enabled in IDLE. -/
theorem exec_txPut_of_idle {s : State} (h : s.txPhase = .idle) : exec .txPut s = .next s := by
  change execTxPut s = _
  rw [execTxPut, h]

/-- R130: while TX sends, an offered message waits. -/
theorem exec_txReq_of_send {s : State} (m : List Byte) (h : s.txPhase = .send) : exec (.txReq m) s = .next s := by
  change execTxReq m s = _
  rw [execTxReq, h]

/-- R239: an advance of 0, or one that would wrap, is not taken. -/
theorem exec_clockTick_of_refused {s : State} {d : BitVec 64} (h : d = 0#64 ∨ 2 ^ 64 ≤ s.nowUs.toNat + d.toNat) :
    exec (.clockTick d) s = .next s := by
  have refused : ¬ (d ≠ 0#64 ∧ s.nowUs.toNat + d.toNat < 2 ^ 64) := fun ⟨hd, hlt⟩ => h.elim hd hlt.not_ge
  exact congrArg Host.Outcome.next (if_neg refused)

/-- R7: an event that a state with a legal phase does not enable changes nothing. -/
theorem runEvent_of_not_enabled {s : State} {e : Event} (hlegal : s.mphase ≤ 8#4) (h : Event.enabled s e = false) :
    runEvent e s = .next s := by
  cases e with
  | main =>
    cases hi : decodePhase s.mphase with
    | ok i => simp [Event.enabled, hi] at h
    | error e =>
      rw [runEvent_main_of_error hi]
      unfold decodePhase at hi
      split at hi <;> cases hi
      · rename_i hn
        exact absurd ((Phase.ofBits_none_iff s.mphase).1 hn) (BitVec.not_lt.2 hlegal)
      all_goals rfl
  | rxPoll a =>
    simp only [Event.enabled, Bool.and_eq_false_iff, decide_eq_false_iff_not, not_not] at h
    by_cases hp : s.mphase = Phase.rx.bits
    · exact exec_rxPoll_handoff ⟨hp, h.resolve_left (not_not.2 hp)⟩ a
    · exact inPhase_of_ne (p := .rx) _ hlegal hp
  | calibDone => exact inPhase_of_ne (p := .calWait) _ hlegal (of_decide_eq_false h)
  | svcDone l =>
    simp only [Event.enabled, Bool.and_eq_false_iff, decide_eq_false_iff_not] at h
    by_cases hp : s.mphase = Phase.svcWait.bits
    · exact (inPhase_enabled .svcWait s _ hp).trans (congrArg Host.Outcome.next (if_neg (h.resolve_left (not_not.2 hp))))
    · exact inPhase_of_ne (p := .svcWait) _ hlegal hp
  | txReq m =>
    refine exec_txReq_of_send m ?_
    cases htx : s.txPhase with
    | idle => simp [Event.enabled, htx] at h
    | send => rfl
  | txPut =>
    refine exec_txPut_of_idle ?_
    cases htx : s.txPhase with
    | idle => rfl
    | send => simp [Event.enabled, htx] at h
  | irq l =>
    have off : ¬ (s.ien.get l && s.latch.get l) = true := Bool.eq_false_iff.1 h
    exact congrArg Host.Outcome.next (if_neg off)
  | alert l => cases h
  | arm l =>
    have taken : (s.ien.get l || s.flag.get l || servicing s l) = true := by simpa only [Event.enabled, Bool.not_eq_false'] using h
    exact (exec_bootArm_of_legal l hlegal).trans (by rw [if_pos taken])
  | clock d =>
    refine exec_clockTick_of_refused ?_
    simpa only [Event.enabled, Bool.and_eq_false_iff, decide_eq_false_iff_not, not_not, not_lt] using h
  | rst => cases h

/-- Settles O49: each operation of MAIN is an `inPhase`, and the events are `runEvent_of_not_enabled`. -/
theorem eventsWaitUntilEnabled : Obligations.EventsWaitUntilEnabled := by
  refine ⟨fun s i v a l hi => ?_, fun s e => runEvent_of_not_enabled⟩
  obtain ⟨p, k, rfl, hexec⟩ := exists_inPhase_of_mem hi s
  rw [hexec]
  exact ⟨inPhase_of_ne k, inPhase_illegal p s k⟩

end Sys2Proof.Machine
end

section
/-! The transmit framer (40_codec.md section 3, R130 to R132). -/

namespace Sys2Proof.Machine

theorem length_txFrame (m : List Byte) : (txFrame m).length = (encodeFn m).length + 2 := by
  simp [txFrame]

section
variable {s : State} {m : List Byte}

theorem encOvf_eq_false (hmsg : m.length ≤ s.params.txMsgCap) (henc : (encodeFn m).length ≤ s.params.txEncCap) :
    encOvf s.params m = false := by
  simp [encOvf, hmsg, henc]

theorem encOvf_eq_true (h : s.params.txMsgCap < m.length ∨ s.params.txEncCap < (encodeFn m).length) :
    encOvf s.params m = true := by
  simpa [encOvf] using h

/-- R130: in IDLE the request is accepted, and refused whole or loaded into TB. -/
theorem exec_txReq_of_idle (hidle : s.txPhase = .idle) :
    exec (.txReq m) s =
      if encOvf s.params m then .next (refuseMessage m (record (.txReq m) s))
      else andThen (writeFrom .tb 0 (txFrame m) (record (.txReq m) s)) (fun t => .next (startSending (txFrame m).length t)) := by
  change execTxReq m s = _
  rw [execTxReq, hidle]

/-- R130: an accepted message is in TB between two delimiters. -/
theorem exec_txReq_of_accepted (hidle : s.txPhase = .idle) (hmsg : m.length ≤ s.params.txMsgCap)
    (henc : (encodeFn m).length ≤ s.params.txEncCap) :
    exec (.txReq m) s = .next { s with
      tb := writeBytes s.tb 0 (txFrame m), txLen := BitVec.ofNat 16 ((encodeFn m).length + 2), txIdx := 0#16
      txPhase := .send, trace := s.trace ++ [.txReq m] } := by
  have fits : 0 + (txFrame m).length ≤ (record (.txReq m) s).size .tb := by
    rw [length_txFrame]
    simp only [State.size, record_params]
    omega
  rw [exec_txReq_of_idle hidle, encOvf_eq_false hmsg henc, writeFrom_next .tb _ 0 _ fits, length_txFrame]
  rfl

/-- R130, R288: a message that does not fit is refused whole, with one report. -/
theorem exec_txReq_of_refused (hidle : s.txPhase = .idle)
    (hover : s.params.txMsgCap < m.length ∨ s.params.txEncCap < (encodeFn m).length) :
    exec (.txReq m) s = .next { s with
      trace := s.trace ++ [.txReq m, .errReport 7#4 (m.headD 0#8) (BitVec.ofNat 16 m.length) 0#4] } := by
  rw [exec_txReq_of_idle hidle, encOvf_eq_true hover, if_pos rfl, refuseMessage, raise, record, record, List.append_assoc]
  rfl

/-- R131: the byte at `tx_idx` is sent. -/
theorem exec_txPut_of_read {b : Byte} (hsend : s.txPhase = .send) (hlt : s.txIdx.toNat < s.txLen.toNat)
    (hread : s.tb.read s.txIdx.toNat = some b) :
    exec .txPut s = .next { s with
      txIdx := s.txIdx + 1#16, txPhase := if s.txIdx + 1#16 = s.txLen then .idle else .send
      trace := s.trace ++ [.txPut b] } := by
  change execTxPut s = _
  rw [execTxPut, hsend]
  simp only [memRead_ok .tb s.txIdx.toNat s b hlt hread]
  simp [advanceTx, record, hsend]

/-- R62: no byte is sent at or beyond the fill count. -/
theorem exec_txPut_of_beyond (hsend : s.txPhase = .send) (hle : s.txLen.toNat ≤ s.txIdx.toNat) :
    exec .txPut s = .fault (.beyondFill .tb s.txIdx.toNat) := by
  have beyond : memRead .tb s.txIdx.toNat s = .error (.beyondFill .tb s.txIdx.toNat) := if_neg hle.not_gt
  change execTxPut s = _
  rw [execTxPut, hsend]
  simp only [beyond]

end

/-- Settles O41: accepted, refused or waiting. -/
theorem txReqResult : Obligations.TxReqResult := by
  refine fun s m => ⟨fun hidle hmsg henc => ?_, exec_txReq_of_refused, exec_txReq_of_send m⟩
  refine ⟨writeBytes s.tb 0 (txFrame m), exec_txReq_of_accepted hidle hmsg henc, holds_writeBytes (txFrame m) s.tb, fun a ha => ?_⟩
  exact read_writeBytes_of_le s.tb (by rw [length_txFrame]; omega)

/-- Settles O42: sent, beyond the fill count, or idle. -/
theorem txPutResult : Obligations.TxPutResult :=
  fun _ _ => ⟨exec_txPut_of_read, exec_txPut_of_beyond, exec_txPut_of_idle⟩

/-- TX sends, and the bytes still to come in TB are `bs`. -/
structure Sending (s : State) (bs : List Byte) : Prop where
  phase : s.txPhase = .send
  count : s.txIdx.toNat + bs.length = s.txLen.toNat
  bytes : ∀ k, k < bs.length → s.tb.read (s.txIdx.toNat + k) = bs[k]?

section
variable {s : State} {b : Byte} {bs : List Byte}

theorem Sending.exec_txPut (h : Sending s (b :: bs)) : exec .txPut s = .next (advanceTx (record (.txPut b) s)) := by
  obtain ⟨hsend, hcount, hbytes⟩ := h
  rw [List.length_cons] at hcount
  rw [exec_txPut_of_read hsend (by omega) (hbytes 0 (by simp))]
  simp [advanceTx, record, hsend]

theorem Sending.succ_toNat (h : Sending s (b :: bs)) : (s.txIdx + 1#16).toNat = s.txIdx.toNat + 1 := by
  have hcount := h.count
  rw [List.length_cons] at hcount
  bv_omega

/-- R131: the phase is IDLE after the last byte. -/
theorem Sending.last_iff (h : Sending s (b :: bs)) : s.txIdx + 1#16 = s.txLen ↔ bs = [] := by
  have hcount := h.count
  rw [List.length_cons] at hcount
  rw [← BitVec.toNat_inj, h.succ_toNat, ← List.length_eq_zero_iff]
  omega

theorem Sending.advance (h : Sending s (b :: bs)) (hne : bs ≠ []) : Sending (advanceTx (record (.txPut b) s)) bs where
  phase := (if_neg (mt h.last_iff.1 hne)).trans h.phase
  count := by
    have hcount := h.count
    rw [List.length_cons] at hcount
    simp only [advanceTx, record_txIdx, record_txLen, h.succ_toNat]
    omega
  bytes k hk := by
    have next := h.bytes (k + 1) (by simpa using hk)
    simp only [advanceTx, record_txIdx, record_tb, h.succ_toNat, Nat.add_assoc, Nat.add_comm 1, next]
    rfl

end

/-- R131, R132: as many TX_PUT as there are bytes to come send them in order, and the phase is IDLE after the last. -/
theorem txPuts_of_sending {bs : List Byte} {s : State} (hne : bs ≠ []) (h : Sending s bs) :
    ∃ t, txPuts bs.length s = .next t ∧ t.txPhase = .idle ∧ t.txIdx = t.txLen ∧ t.txLen = s.txLen ∧
      t.trace = s.trace ++ bs.map (fun b => .txPut b) := by
  induction bs generalizing s with
  | nil => exact absurd rfl hne
  | cons b bs ih =>
    rw [List.length_cons, txPuts, h.exec_txPut, andThen_next]
    by_cases hlast : bs = []
    · have done := h.last_iff.2 hlast
      subst hlast
      exact ⟨_, rfl, if_pos done, done, rfl, rfl⟩
    · obtain ⟨t, next, hphase, hidx, hlen, htrace⟩ := ih hlast (h.advance hlast)
      exact ⟨t, next, hphase, hidx, hlen, by simp [htrace, advanceTx]⟩

/-- R130: after an accepted request TX sends the frame from its first byte on. -/
theorem exec_txReq_sending {s : State} {m : List Byte} (hcap : s.params.txEncCap + 2 ≤ 65535) (hidle : s.txPhase = .idle)
    (hmsg : m.length ≤ s.params.txMsgCap) (henc : (encodeFn m).length ≤ s.params.txEncCap) :
    ∃ t, exec (.txReq m) s = .next t ∧ Sending t (txFrame m) ∧ t.txLen.toNat = (encodeFn m).length + 2 ∧
      t.trace = s.trace ++ [.txReq m] := by
  have counted : (BitVec.ofNat 16 ((encodeFn m).length + 2)).toNat = (encodeFn m).length + 2 := by
    rw [BitVec.toNat_ofNat]
    omega
  refine ⟨_, exec_txReq_of_accepted hidle hmsg henc, ⟨rfl, ?_, ?_⟩, counted, rfl⟩
  · simp [counted, length_txFrame]
  · simpa using holds_writeBytes (txFrame m) s.tb

/-- Settles O43: the accepted message is in TB (`exec_txReq_sending`), and TX_PUT sends it byte by byte (`txPuts_of_sending`). -/
theorem transmitSendsWholeFrame : Obligations.TransmitSendsWholeFrame := by
  intro s m ⟨_, _, _, _, _, hcap⟩ hidle hmsg henc
  obtain ⟨u, accepted, sending, hcount, hreq⟩ := exec_txReq_sending hcap hidle hmsg henc
  obtain ⟨t, next, hphase, hidx, hlen, htrace⟩ := txPuts_of_sending (List.cons_ne_nil _ _) sending
  rw [accepted, andThen_next, ← length_txFrame]
  refine ⟨t, next, hphase, hidx, ?_, ?_⟩
  · rw [hlen, hcount, length_txFrame]
  · simp [htrace, hreq]

end Sys2Proof.Machine
end

section
/-! CAL_WAIT and DISPATCH as relations to the operations they run (42_dispatcher.md, R190, R196, R199). -/

namespace Sys2Proof.Machine

/-- R199: `calib_done` ends CAL_WAIT and the frame attempt. -/
theorem exec_calDone_of_phase {s : State} (hp : s.mphase = 3#4) : exec .calDone s = .next (s.doneWith [.calibDone]) := by
  refine (inPhase_enabled .calWait s _ hp).trans ?_
  rw [frameDone_eq_doneWith, record_doneWith]

/-- Settles O3: in CAL_WAIT every other operation of MAIN is one of another phase (`inPhase_waits`); IRQ does not read the phase. -/
theorem calibrateBlocksMain : Obligations.CalibrateBlocksMain := by
  refine fun s => ⟨rfl, fun h => ?_, fun payload hne h => ?_, fun hp => ?_,
    fun hlegal hne => inPhase_of_ne (p := .calWait) _ hlegal hne⟩
  · exact exec_dispatch_of_calibrateImu h (decode_message_eq_calibrateImu.2 rfl)
  · exact exec_dispatch_of_length_ne rfl (mt List.eq_nil_of_length_eq_zero hne) h
  · have waits (p : Phase) (k : Out) (hne : Phase.calWait ≠ p) : inPhase p s k = .next s :=
      inPhase_waits p .calWait s k hp hne
    refine ⟨fun a => waits .rx _ nofun, waits .decode _ nofun, waits .dispatch _ nofun, waits .arb _ nofun,
      fun l => waits .svcWait _ nofun, waits .rearm1 _ nofun, waits .rearm2 _ nofun, waits .endIter _ nofun,
      fun l hien hlatch => ⟨irqEntry l s, ?_, by simp⟩, exec_calDone_of_phase hp⟩
    have enabled : (s.ien.get l && s.latch.get l) = true := by rw [hien, hlatch, Bool.and_true]
    exact congrArg Host.Outcome.next (if_pos enabled)

/-- Settles O7: the calibration command is the whole of its DISPATCH; FRAME_DONE follows any other. -/
theorem dispatchRunsDecodedMessage : Obligations.DispatchRunsDecodedMessage := by
  intro s t m i h hm he
  by_cases hi : i = .calibrateImu
  · subst hi
    rw [if_pos rfl, exec_dispatch_of_calibrateImu h hm, he]
  · rw [if_neg hi, exec_dispatch_of_exec h hm hi he]

end Sys2Proof.Machine
end

section
/-! Services, re-arming and the interrupt context (43_handoff.md, R237, R241 to R244; R326). -/

namespace Sys2Proof.Machine

/-! ### The service of a line -/

section
variable {s : State} {l : Line}

/-- R237: in SVC_WAIT, `svc_done` of the line being serviced is accepted. -/
theorem exec_svcDone_of_line (hp : s.mphase = 5#4) (hl : s.svcLine = l) :
    exec (.svcDone l) s = .next (goto .rearm1 (record (.svcDone l) s)) :=
  (inPhase_enabled .svcWait s _ hp).trans (congrArg Host.Outcome.next (if_pos hl))

/-- R237: in another phase, or for the other line, it is not. -/
theorem exec_svcDone_of_not_accepted (hlegal : s.mphase ≤ 8#4) (h : s.mphase ≠ 5#4 ∨ s.svcLine ≠ l) :
    exec (.svcDone l) s = .next s :=
  runEvent_of_not_enabled (e := .svcDone l) hlegal (Bool.and_eq_false_iff.2 (h.imp decide_eq_false decide_eq_false))

/-- R242: the first half of re-arming clears the latch. -/
theorem exec_rearm1_of_line (hp : s.mphase = 6#4) (hl : s.svcLine = l) :
    exec .rearm1 s = .next (goto .rearm2 (setLatch l false s)) :=
  hl ▸ inPhase_enabled .rearm1 s _ hp

/-- R243: the second half enables the line. -/
theorem exec_rearm2_of_line (hp : s.mphase = 7#4) (hl : s.svcLine = l) :
    exec .rearm2 s = .next (goto .endIter (setIen l true s)) :=
  hl ▸ inPhase_enabled .rearm2 s _ hp

end

/-- Settles O32: the two halves of re-arming write one bit of the line being serviced. -/
theorem serviceEndResults : Obligations.ServiceEndResults :=
  fun _ _ hlegal => ⟨exec_svcDone_of_line, exec_svcDone_of_not_accepted hlegal, exec_rearm1_of_line, exec_rearm1_of_line,
    exec_rearm2_of_line, exec_rearm2_of_line⟩

/-! ### The interrupt handler -/

/-- What IRQ_FIRE leaves, enabled or not (R241). -/
def afterIrq (l : Line) (s : State) : State := if s.ien.get l && s.latch.get l then irqEntry l s else s

theorem exec_irqFire (l : Line) (s : State) : exec (.irqFire l) s = .next (afterIrq l s) := rfl

section
variable {s : State} {l : Line}

theorem afterIrq_of_enabled (hien : s.ien.get l = true) (hlatch : s.latch.get l = true) : afterIrq l s = irqEntry l s :=
  if_pos (by rw [hien, hlatch, Bool.and_true])

theorem afterIrq_of_not_enabled (h : s.ien.get l = false ∨ s.latch.get l = false) : afterIrq l s = s :=
  if_neg (Bool.eq_false_iff.1 (Bool.and_eq_false_iff.2 h))

end

/-- One handler leaves the other line's enable and latch alone. -/
theorem afterIrq_get_other (s : State) {l l' : Line} (h : l' ≠ l) :
    (afterIrq l s).ien.get l' = s.ien.get l' ∧ (afterIrq l s).latch.get l' = s.latch.get l' := by
  unfold afterIrq
  split
  · exact ⟨LineBits.get_put_other s.ien l l' false h, LineBits.get_put_other s.latch l l' false h⟩
  · exact ⟨rfl, rfl⟩

/-- R245: the two lines' handlers write different bits, so either order gives the same state. -/
theorem afterIrq_comm (s : State) : afterIrq .cs (afterIrq .imu s) = afterIrq .imu (afterIrq .cs s) := by
  have cs_after_imu : afterIrq .cs (afterIrq .imu s) =
      if s.ien.get .cs && s.latch.get .cs then irqEntry .cs (afterIrq .imu s) else afterIrq .imu s := by
    obtain ⟨hien, hlatch⟩ := afterIrq_get_other s (l := .imu) (l' := .cs) nofun
    rw [← hien, ← hlatch]
    rfl
  have imu_after_cs : afterIrq .imu (afterIrq .cs s) =
      if s.ien.get .imu && s.latch.get .imu then irqEntry .imu (afterIrq .cs s) else afterIrq .cs s := by
    obtain ⟨hien, hlatch⟩ := afterIrq_get_other s (l := .cs) (l' := .imu) nofun
    rw [← hien, ← hlatch]
    rfl
  rw [cs_after_imu, imu_after_cs, afterIrq, afterIrq]
  split_ifs <;> rfl

/-- Settles O34: enabled, `irqEntry` writes the three bits of the line; else nothing changes; and the two orders agree. -/
theorem irqFireResult : Obligations.IrqFireResult := by
  refine fun s => ⟨fun hien hlatch => ?_, fun hien hlatch => ?_, fun l h => ?_, ?_⟩
  · rw [exec_irqFire, afterIrq_of_enabled (by exact hien) (by exact hlatch)]
    rfl
  · rw [exec_irqFire, afterIrq_of_enabled (by exact hien) (by exact hlatch)]
    rfl
  · rw [exec_irqFire, afterIrq_of_not_enabled h]
  · exact congrArg Host.Outcome.next (afterIrq_comm s)

/-! ### The first arming -/

/-- R22: the phases in which a line is being serviced. -/
theorem servicing_iff {s : State} {l : Line} :
    servicing s l = true ↔ (s.mphase = 5#4 ∨ s.mphase = 6#4 ∨ s.mphase = 7#4) ∧ s.svcLine = l := by
  simp only [servicing, Bool.and_eq_true, Bool.or_eq_true, decide_eq_true_eq, or_assoc]
  rfl

section
variable {s : State} {l : Line}

theorem exec_bootArm_of_accepted (hlegal : s.mphase ≤ 8#4) (hien : s.ien.get l = false) (hflag : s.flag.get l = false)
    (hsvc : ¬ ((s.mphase = 5#4 ∨ s.mphase = 6#4 ∨ s.mphase = 7#4) ∧ s.svcLine = l)) :
    exec (.bootArm l) s = .next (setIen l true (setLatch l false (record (.arm l) s))) := by
  have free : ¬ (s.ien.get l || s.flag.get l || servicing s l) = true := by
    rw [hien, hflag, Bool.false_or, Bool.false_or, servicing_iff]
    exact hsvc
  rw [exec_bootArm_of_legal l hlegal, if_neg free]

theorem exec_bootArm_of_not_accepted (hlegal : s.mphase ≤ 8#4) (h : s.ien.get l = true ∨ s.flag.get l = true ∨
    ((s.mphase = 5#4 ∨ s.mphase = 6#4 ∨ s.mphase = 7#4) ∧ s.svcLine = l)) : exec (.bootArm l) s = .next s := by
  have taken : (s.ien.get l || s.flag.get l || servicing s l) = true := by
    rw [Bool.or_eq_true, Bool.or_eq_true, servicing_iff, or_assoc]
    exact h
  rw [exec_bootArm_of_legal l hlegal, if_pos taken]

end

/-- Settles O36: an accepted arming clears the latch and enables the line, of whichever line. -/
theorem bootArmResult : Obligations.BootArmResult :=
  fun _ hlegal => ⟨fun hien hflag hsvc => exec_bootArm_of_accepted (l := .imu) hlegal hien hflag hsvc,
    fun hien hflag hsvc => exec_bootArm_of_accepted (l := .cs) hlegal hien hflag hsvc,
    fun _ => exec_bootArm_of_not_accepted hlegal⟩

/-! ### Alerts around REARM1 -/

theorem runInstrs_cons_of_next {i : Instr} {is : List Instr} {s t : State} (h : exec i s = .next t) :
    runInstrs (i :: is) s = runInstrs is t := by
  rw [runInstrs, h, andThen_next]

/-- Settles O38: REARM1 clears what came before it; what comes after it is still latched when the line is enabled. -/
theorem rearmWindowDiscardsAlert : Obligations.RearmWindowDiscardsAlert := by
  intro s l hp hl
  constructor
  · have rearm1 := exec_rearm1_of_line (s := setLatch l true (record (.alert l) s)) hp hl
    have rearm2 := exec_rearm2_of_line (s := goto .rearm2 (setLatch l false (setLatch l true (record (.alert l) s)))) rfl hl
    rw [runInstrs_cons_of_next rfl, runInstrs_cons_of_next rearm1, runInstrs_cons_of_next rearm2,
      runInstrs_cons_of_next (exec_irqFire l _), afterIrq_of_not_enabled (.inr (by simp))]
    exact ⟨_, rfl, by simp, by simp, by simp⟩
  · have rearm1 := exec_rearm1_of_line hp hl
    have rearm2 := exec_rearm2_of_line (s := setLatch l true (record (.alert l) (goto .rearm2 (setLatch l false s)))) rfl hl
    rw [runInstrs_cons_of_next rearm1, runInstrs_cons_of_next rfl, runInstrs_cons_of_next rearm2,
      runInstrs_cons_of_next (exec_irqFire l _), afterIrq_of_enabled (by simp) (by simp)]
    exact ⟨_, rfl, by simp, by simp, by simp⟩

end Sys2Proof.Machine
end

section
/-! One iteration of MAIN after the drain (43_handoff.md, R231, R236, R248). -/

namespace Sys2Proof.Machine

theorem runEvents_cons_of_next {e : Event} {es : List Event} {s t : State} (h : runEvent e s = .next t) :
    runEvents (e :: es) s = runEvents es t := by
  rw [runEvents, h, andThen_next]

/-- R21: MAIN's own event runs the port-free operation of its phase. -/
theorem runEvent_main_of_phase {s : State} {v : BitVec 4} {i : Instr} (hp : s.mphase = v) (hi : decodePhase v = .ok i) :
    runEvent .main s = exec i s :=
  runEvent_of_decode ((congrArg decodePhase hp).trans hi)

theorem svcReqs_append (l : Line) (xs ys : List Transaction) : svcReqs l (xs ++ ys) = svcReqs l xs + svcReqs l ys :=
  List.count_append

theorem telemReqs_append (xs ys : List Transaction) : telemReqs (xs ++ ys) = telemReqs xs + telemReqs ys :=
  List.count_append

/-- END leads from `s` to `t`: it moves MAIN to RX, counts the iteration, and asks for no service and no telemetry (R236, R238). -/
structure IterationEnds (s t : State) : Prop where
  phase : t.mphase = 0#4
  flag : t.flag = s.flag
  ien : t.ien = s.ien
  counted : s.poPerf = true → t.loopCount.toNat = (s.loopCount.toNat + 1) % 10000
  trace : ∃ ts, t.trace = s.trace ++ ts ∧ (∀ l, svcReqs l ts = 0) ∧ telemReqs ts = 0

theorem exec_endIter_ends {s : State} (hp : s.mphase = 8#4) (hloop : s.loopCount.toNat < 10000) :
    ∃ t, exec .endIter s = .next t ∧ IterationEnds s t := by
  obtain ⟨-, ends⟩ := endAndFlushResults s
  obtain ⟨off, counting, flushing⟩ := ends hp
  have silent : ∃ ts, s.trace = s.trace ++ ts ∧ (∀ l, svcReqs l ts = 0) ∧ telemReqs ts = 0 :=
    ⟨[], (List.append_nil _).symm, fun _ => rfl, rfl⟩
  by_cases hon : s.poPerf = true
  · by_cases hlast : s.loopCount.toNat + 1 = 10000
    · exact ⟨_, flushing hon hlast, rfl, rfl, rfl, fun _ => by simp [hlast], _, rfl, fun l => by cases l <;> rfl, rfl⟩
    · have next : (s.loopCount + 1#16).toNat = s.loopCount.toNat + 1 := by bv_omega
      exact ⟨_, counting hon hlast, rfl, rfl, rfl, fun _ => by rw [next]; omega, silent⟩
  · exact ⟨_, off (Bool.eq_false_iff.2 hon), rfl, rfl, rfl, fun h => absurd h hon, silent⟩

/-- The line of the highest priority among those with work pending (R231). -/
abbrev TopPending (l : Line) (s : State) : Prop :=
  (l = .imu ∧ s.flag.imu = true) ∨ (l = .cs ∧ s.flag.imu = false ∧ s.flag.cs = true)

/-- R231 to R233: with work pending ARB starts the service of the top line. -/
theorem exec_arb_of_topPending {l : Line} {s : State} (hp : s.mphase = 4#4) (h : TopPending l s) :
    exec .arb s = .next (startService l s) := by
  obtain ⟨rfl, himu⟩ | ⟨rfl, himu, hcs⟩ := h
  · rw [exec_arb_eq_exec_grant hp, arbGrant_of_imu himu]
    rfl
  · rw [exec_arb_eq_exec_grant hp, arbGrant_of_cs himu hcs]
    rfl

/-- The state in which the service of line `l` has been granted, answered and the line re-armed. -/
def afterService (l : Line) (s : State) : State :=
  goto .endIter (setIen l true (goto .rearm2 (setLatch l false (goto .rearm1 (record (.svcDone l) (startService l s))))))

/-- R231, R237, R242, R243: from ARB with work pending, MAIN and EST's answer lead to END. -/
theorem runEvents_service {l : Line} {s : State} (hp : s.mphase = 4#4) (h : TopPending l s) (es : List Event) :
    runEvents (.main :: .svcDone l :: .main :: .main :: es) s = runEvents es (afterService l s) := by
  have granted : runEvent .main s = .next (startService l s) :=
    (runEvent_main_of_phase hp rfl).trans (exec_arb_of_topPending hp h)
  have answered : runEvent (.svcDone l) (startService l s) = .next (goto .rearm1 (record (.svcDone l) (startService l s))) :=
    exec_svcDone_of_line rfl rfl
  rw [runEvents_cons_of_next granted, runEvents_cons_of_next answered,
    runEvents_cons_of_next ((runEvent_main_of_phase rfl rfl).trans (exec_rearm1_of_line (l := l) rfl rfl)),
    runEvents_cons_of_next ((runEvent_main_of_phase rfl rfl).trans (exec_rearm2_of_line (l := l) rfl rfl))]
  rfl

/-- R231, R234, R235: with no work pending ARB goes straight to END, with one `telem_req` exactly if the deadline is reached. -/
theorem exec_arb_of_flags_clear {s : State} (hp : s.mphase = 4#4) (himu : s.flag.imu = false) (hcs : s.flag.cs = false) :
    ∃ t ts, exec .arb s = .next t ∧ t.mphase = 8#4 ∧ t.loopCount = s.loopCount ∧ t.poPerf = s.poPerf ∧
      t.trace = s.trace ++ ts ∧ (∀ l, svcReqs l ts = 0) ∧
      telemReqs ts = (if 0 ≤ s.poInterval.toInt ∧ s.deadline ≤ s.nowUs then 1 else 0) := by
  rw [exec_arb_eq_exec_grant hp, arbGrant_of_flags_clear himu hcs]
  by_cases hdue : 0 ≤ s.poInterval.toInt ∧ s.deadline ≤ s.nowUs
  · rw [if_pos hdue, if_pos hdue]
    exact ⟨_, [.telemReq], rfl, rfl, rfl, rfl, rfl, fun l => by cases l <;> rfl, rfl⟩
  · rw [if_neg hdue, if_neg hdue]
    exact ⟨_, [], rfl, rfl, rfl, rfl, (List.append_nil _).symm, fun _ => rfl, rfl⟩

/-- Settles O37: the poll answered `none` leads to ARB, ARB to END through a service or at once, and END to RX. -/
theorem iterationCompletes : Obligations.IterationCompletes := by
  intro s hinv hp
  have not_handoff : s.fsState ≠ .handoff := fun hfs => by
    have working := hinv.handoff_phase.1 hfs
    rw [hp] at working
    exact absurd working (by decide)
  have polled : runEvent (.rxPoll none) s = .next (goto .arb (record (.rxAnswer none) s)) := execRxPoll_none s hp not_handoff
  refine ⟨fun l htop => ?_, fun himu hcs => ?_⟩
  · obtain ⟨t, next, hphase, hflag, hien, hcount, ts, htrace, hsvc, htelem⟩ :=
      exec_endIter_ends (s := afterService l (goto .arb (record (.rxAnswer none) s))) rfl hinv.loop_bound
    refine ⟨t, [.rxAnswer none, .svcReq l, .svcDone l] ++ ts, ?_, hphase, ?_, ?_, ?_, ?_, ?_, ?_, hcount⟩
    · rw [runEvents_cons_of_next polled, runEvents_service (by rfl) (by exact htop),
        runEvents_cons_of_next ((runEvent_main_of_phase rfl rfl).trans next)]
      rfl
    · rw [hflag]
      exact LineBits.get_put_same s.flag l false
    · rw [hien]
      exact LineBits.get_put_same s.ien l true
    · rw [htrace]
      simp [afterService, startService]
    · rw [svcReqs_append, hsvc]
      simp [svcReqs]
    · rw [svcReqs_append, svcReqs_append, hsvc, hsvc]
      cases l <;> rfl
    · rw [telemReqs_append, htelem]
      rfl
  · obtain ⟨u, us, arb, hend, hloop, hperf, hutrace, husvc, hutelem⟩ :=
      exec_arb_of_flags_clear (s := goto .arb (record (.rxAnswer none) s)) rfl himu hcs
    obtain ⟨t, next, hphase, -, -, hcount, ts, htrace, hsvc, htelem⟩ := exec_endIter_ends hend (hloop ▸ hinv.loop_bound)
    refine ⟨t, [.rxAnswer none] ++ us ++ ts, ?_, hphase, ?_, ?_, ?_, ?_⟩
    · rw [runEvents_cons_of_next polled, runEvents_cons_of_next ((runEvent_main_of_phase rfl rfl).trans arb),
        runEvents_cons_of_next ((runEvent_main_of_phase hend rfl).trans next)]
      rfl
    · rw [htrace, hutrace]
      simp
    · simp only [svcReqs_append, husvc, hsvc]
      rfl
    · simp only [telemReqs_append, hutelem, htelem]
      exact Nat.zero_add _
    · rw [hloop, hperf] at hcount
      exact hcount

end Sys2Proof.Machine
end

section
/-! Reset (70_reset_and_hazards.md, R320), and the invariant of the reset state (10_state.md, R46). -/

namespace Sys2Proof.Machine

/-- Settles O51: `rst` is the operation, and writes the reset values of R47. -/
theorem resetResult : Obligations.ResetResult :=
  fun _ => ⟨.idle, [], rfl, rfl⟩

theorem inv_resetWith {p : Params} (now : BitVec 64) (hp : p.Valid) : (State.resetWith p now).Inv where
  params_valid := hp
  phase_legal := by simp [State.resetWith]
  pending_disabled l hl := by cases l <;> cases hl
  serviced_disabled l hl := by
    obtain ⟨hphase, -⟩ := servicing_iff.1 hl
    simp [State.resetWith] at hphase
  handoff_phase := by simp [State.resetWith]
  seek_empty _ := rfl
  handoff_nonempty := nofun
  flen_bound := Nat.zero_le _
  mlen_bound := Nat.zero_le _
  message_phase _ _ := rfl
  loop_bound := by simp [State.resetWith]
  idle_bound := Nat.zero_le _
  tx_idle _ := rfl
  tx_send := nofun
  tx_bound := Nat.zero_le _
  dstat_null := BitVec.getLsbD_zero
  fb_nonzero k hk := absurd hk (Nat.not_lt_zero k)
  fb_filled k hk := absurd hk (Nat.not_lt_zero k)
  mb_filled k hk := absurd hk (Nat.not_lt_zero k)
  tb_filled k hk := absurd hk (Nat.not_lt_zero k)
  fb_within := Memory.within_nil _
  mb_within := Memory.within_nil _
  tb_within := Memory.within_nil _
  fb_wf := Memory.wf_nil
  mb_wf := Memory.wf_nil
  tb_wf := Memory.wf_nil
  dec_bound := Nat.zero_le _
  dec_running := nofun

/-- Settles O52: `State.reset` is the reset state of the default parameters, which are valid. -/
theorem invariantAtReset : Obligations.InvariantAtReset :=
  ⟨inv_resetWith _ (by decide), fun _ now => inv_resetWith now⟩

end Sys2Proof.Machine
end

section
/-! What an operation can do to the parts of the state that the claims about the whole machine speak of: said once for every operation,
by its outcome (10_state.md sections 5, 7 and 9). -/

namespace Sys2Proof.Machine

/-! ### Outcomes -/

/-- The outcome is a next state with `P`, or a fault. -/
def Answers (P : State → Prop) : Out → Prop
  | .next t => P t
  | .fault _ => True
  | .refused _ => False

section
variable {P Q : State → Prop} {o : Out} {s : State}

theorem Answers.next {t : State} (h : Answers P o) (ho : o = .next t) : P t := by
  subst ho
  exact h

theorem Answers.ne_refused (h : Answers P o) (r : Refusal) : o ≠ .refused r := by
  rintro rfl
  exact h

theorem Answers.imp (h : Answers P o) (hPQ : ∀ t, P t → Q t) : Answers Q o := by
  cases o with
  | next t => exact hPQ t h
  | fault f => trivial
  | refused r => exact h

theorem Answers.andThen {k : State → Out} (h : Answers P o) (hk : ∀ t, P t → Answers Q (k t)) :
    Answers Q (andThen o k) := by
  cases o with
  | next t => exact hk t h
  | fault f => trivial
  | refused r => exact h

/-- An operation of MAIN runs in its phase, and in another one leaves the state. -/
theorem Answers.inPhase {p : Phase} (hself : P s) (h : s.mphase = p.bits → Answers P o) : Answers P (inPhase p s o) := by
  unfold Machine.inPhase
  split
  · trivial
  · rename_i q hq
    split
    · rename_i he
      exact h (he ▸ Phase.bits_of_ofBits _ _ hq)
    · exact hself

theorem writeFrom_answers (sp : Space) (i : Nat) (bs : List Byte) (s : State) :
    Answers (fun t => t = s.withBuffer sp (writeBytes (s.buffer sp) i bs)) (writeFrom sp i bs s) := by
  cases ho : writeFrom sp i bs s with
  | next t => exact (writeFrom_eq_next sp bs i s t ho).1
  | fault f => trivial
  | refused r => exact writeFrom_ne_refused sp bs i s r ho

end

/-! ### Outputs that ask for nothing -/

/-- Neither a report, nor a request for a service or for periodic telemetry. -/
def Transaction.plain : Transaction → Bool
  | .errReport _ _ _ _ => false
  | .svcReq _ => false
  | .telemReq => false
  | _ => true

/-- A stretch of trace of plain transactions, ended by one report at most. -/
inductive PlainTrace : List Transaction → Prop
  | nil : PlainTrace []
  | cons {x : Transaction} {ts : List Transaction} (hx : x.plain = true) (h : PlainTrace ts) : PlainTrace (x :: ts)
  | report (e : ErrorCode) (arg : Byte) (len : BitVec 16) (stat : BitVec 4) : PlainTrace [.errReport e.bits arg len stat]

theorem PlainTrace.single {x : Transaction} (hx : x.plain = true) : PlainTrace [x] := .cons hx .nil

/-- R103: the codes are 1 to 7. -/
theorem ErrorCode.bits_range (e : ErrorCode) : 1#4 ≤ e.bits ∧ e.bits ≤ 7#4 := by
  cases e <;> decide

section
variable {ts : List Transaction}

theorem Transaction.not_isReport_of_plain {x : Transaction} (hx : x.plain = true) : x.isReport = false := by
  cases x with
  | errReport => cases hx
  | _ => rfl

theorem PlainTrace.reports_le (h : PlainTrace ts) : (ts.filter Transaction.isReport).length ≤ 1 := by
  induction h with
  | nil => exact Nat.zero_le _
  | cons hx _ ih => rwa [List.filter_cons_of_neg (by rw [Transaction.not_isReport_of_plain hx]; exact Bool.false_ne_true)]
  | report => exact Nat.le_refl 1

theorem PlainTrace.codes (h : PlainTrace ts) {code : BitVec 4} {arg : Byte} {len : BitVec 16} {stat : BitVec 4}
    (hmem : .errReport code arg len stat ∈ ts) : 1#4 ≤ code ∧ code ≤ 7#4 := by
  induction h with
  | nil => cases hmem
  | cons hx _ ih =>
    obtain rfl | hmem := List.mem_cons.1 hmem
    · cases hx
    · exact ih hmem
  | report e =>
    cases List.mem_singleton.1 hmem
    exact e.bits_range

theorem PlainTrace.svcReqs_eq (h : PlainTrace ts) (l : Line) : svcReqs l ts = 0 := by
  induction h with
  | nil => rfl
  | cons hx _ ih => exact (List.count_cons_of_ne (by rintro rfl; cases hx)).trans ih
  | report => rfl

theorem PlainTrace.telemReqs_eq (h : PlainTrace ts) : telemReqs ts = 0 := by
  induction h with
  | nil => rfl
  | cons hx _ ih => exact (List.count_cons_of_ne (by rintro rfl; cases hx)).trans ih
  | report => rfl

end

/-! ### Operations that leave the shared parts alone -/

/-- The parts of the state that more than one agent reads, or that change by few operations. -/
structure Shared where
  params : Params
  nowUs : BitVec 64
  poPorts : Byte × BitVec 16 × Bool
  deadline : BitVec 64
  flag : LineBits
  ien : LineBits
  latch : LineBits

def State.shared (s : State) : Shared := ⟨s.params, s.nowUs, s.poPorts, s.deadline, s.flag, s.ien, s.latch⟩

/-- The buffers have their canonical form (log entry 9). -/
def State.Canonical (s : State) : Prop := s.fb.wf ∧ s.mb.wf ∧ s.tb.wf

/-- From `s` to `t` the shared parts stay, the trace grows by a plain stretch, and the buffers stay canonical. -/
structure Aside (s t : State) : Prop where
  shared : t.shared = s.shared
  trace : ∃ ts, t.trace = s.trace ++ ts ∧ PlainTrace ts
  buffers : s.Canonical → t.Canonical

section
variable {s t : State}

/-- Nothing is emitted, and no buffer is written. -/
theorem Aside.silent (hshared : t.shared = s.shared) (htrace : t.trace = s.trace) (hfb : t.fb = s.fb) (hmb : t.mb = s.mb)
    (htb : t.tb = s.tb) : Aside s t :=
  ⟨hshared, ⟨[], by rw [htrace, List.append_nil], .nil⟩, by rw [State.Canonical, State.Canonical, hfb, hmb, htb]; exact id⟩

theorem Aside.refl (s : State) : Aside s s := .silent rfl rfl rfl rfl rfl

theorem Aside.record {x : Transaction} (hx : x.plain = true) (s : State) : Aside s (record x s) :=
  ⟨rfl, ⟨[x], rfl, .single hx⟩, id⟩

theorem Aside.raise (e : ErrorCode) (arg : Byte) (len : BitVec 16) (stat : BitVec 4) (s : State) :
    Aside s (raise e arg len stat s) :=
  ⟨rfl, ⟨_, rfl, .report e arg len stat⟩, id⟩

/-- A step that first records a plain transaction. -/
theorem Aside.of_record {x : Transaction} (hx : x.plain = true) (h : Aside (Machine.record x s) t) : Aside s t := by
  obtain ⟨ts, htrace, hplain⟩ := h.trace
  exact ⟨h.shared, ⟨x :: ts, by simpa using htrace, .cons hx hplain⟩, h.buffers⟩

/-- A step that ends with silent writes. -/
theorem Aside.andSilent {u : State} (h : Aside s t) (hshared : u.shared = t.shared) (htrace : u.trace = t.trace)
    (hbuf : t.Canonical → u.Canonical) : Aside s u :=
  ⟨hshared.trans h.shared, htrace ▸ h.trace, hbuf ∘ h.buffers⟩

theorem canonical_frameDone (h : t.Canonical) : (frameDone t).Canonical := ⟨Memory.wf_nil, Memory.wf_nil, h.2.2⟩

theorem Aside.frameDone (h : Aside s t) : Aside s (frameDone t) := h.andSilent rfl rfl canonical_frameDone

theorem canonical_withBuffer (sp : Space) (i : Nat) (bs : List Byte) (h : s.Canonical) :
    (s.withBuffer sp (writeBytes (s.buffer sp) i bs)).Canonical := by
  obtain ⟨hfb, hmb, htb⟩ := h
  cases sp with
  | fb => exact ⟨wf_writeBytes bs s.fb i hfb, hmb, htb⟩
  | mb => exact ⟨hfb, wf_writeBytes bs s.mb i hmb, htb⟩
  | tb => exact ⟨hfb, hmb, wf_writeBytes bs s.tb i htb⟩

/-- Bytes written into a buffer. -/
theorem Aside.write (sp : Space) (i : Nat) (bs : List Byte) (s : State) :
    Aside s (s.withBuffer sp (writeBytes (s.buffer sp) i bs)) :=
  (Aside.refl s).andSilent (by cases sp <;> rfl) (by cases sp <;> rfl) (canonical_withBuffer sp i bs)

end

/-! ### The operations that do -/

/-- The options are set, with their announcement (R198). -/
structure SetsOptions (s t : State) : Prop where
  params : t.params = s.params
  nowUs : t.nowUs = s.nowUs
  flag : t.flag = s.flag
  ien : t.ien = s.ien
  latch : t.latch = s.latch
  trace : t.trace = s.trace ++ [.poUpdate t.poLevel t.poInterval t.poPerf]
  buffers : s.Canonical → t.Canonical

theorem SetsOptions.frameDone {s t : State} (h : SetsOptions s t) : SetsOptions s (frameDone t) :=
  ⟨h.params, h.nowUs, h.flag, h.ien, h.latch, h.trace, canonical_frameDone ∘ h.buffers⟩

/-- What operation `i` does where it answers the next state `t`: it leaves the shared parts alone, or it is one of those that write
them, in the way its rule gives. -/
inductive Effect : Instr → State → State → Prop
  | aside {i : Instr} {s t : State} (h : Aside s t) : Effect i s t
  | setOptions {i : Instr} {s t : State} (hi : i = .dispatch ∨ ∃ level iv perf, i = .setProgramOptions level iv perf)
      (h : SetsOptions s t) : Effect i s t
  | service {i : Instr} {s : State} {l : Line}
      (hi : (i = .arb ∧ TopPending l s) ∨ (i = .grantImu ∧ l = .imu) ∨ (i = .grantCs ∧ l = .cs)) :
      Effect i s (startService l s)
  | periodic {i : Instr} {s : State} :
      Effect i s (goto .endIter { record .telemReq s with deadline := s.deadline + intervalUs s.poInterval })
  | rearm1 {s : State} : Effect .rearm1 s (goto .rearm2 (setLatch s.svcLine false s))
  | rearm2 {s : State} : Effect .rearm2 s (goto .endIter (setIen s.svcLine true s))
  | fire {l : Line} {s : State} (hien : s.ien.get l = true) : Effect (.irqFire l) s (irqEntry l s)
  | alert {l : Line} {s : State} : Effect (.alert l) s (setLatch l true (record (.alert l) s))
  | arm {l : Line} {s : State} : Effect (.bootArm l) s (setIen l true (setLatch l false (record (.arm l) s)))
  | tick {d : BitVec 64} {s : State} (hwrap : s.nowUs.toNat + d.toNat < 2 ^ 64) :
      Effect (.clockTick d) s { s with nowUs := s.nowUs + d }
  | reset {s : State} :
      Effect .reset s { State.resetWith s.params s.nowUs with trace := s.trace, pending := s.pending, draws := s.draws }

/-! ### Every operation has such an effect -/

theorem setsOptions_execSetProgramOptions (level : Byte) (interval : BitVec 16) (perf : Byte) (s : State) :
    ∃ t, exec (.setProgramOptions level interval perf) s = .next t ∧ SetsOptions s t :=
  ⟨_, exec_setProgramOptions level interval perf s, rfl, rfl, rfl, rfl, rfl, rfl, id⟩

/-- R194 to R198, R200, R191 to R193: a message sets the options or only emits. -/
theorem exec_message_effect (msg : Message) (s : State) : ∃ t, exec msg.toInstr s = .next t ∧
    (Aside s t ∨ (SetsOptions s t ∧ ∃ level iv perf, msg.toInstr = .setProgramOptions level iv perf)) := by
  cases msg with
  | setServoAngles rf rb lf lb => exact ⟨_, rfl, .inl (.record rfl s)⟩
  | requestState => exact ⟨_, rfl, .inl (.record rfl s)⟩
  | calibrateImu => exact ⟨_, rfl, .inl ((Aside.record rfl s).andSilent rfl rfl id)⟩
  | emitBufferedErrorLog => exact ⟨_, rfl, .inl (.record rfl s)⟩
  | resetDeadReckoning => exact ⟨_, rfl, .inl (.record rfl s)⟩
  | setProgramOptions level interval perf =>
    obtain ⟨t, next, sets⟩ := setsOptions_execSetProgramOptions level interval perf s
    exact ⟨t, next, .inr ⟨sets, level, interval, perf, rfl⟩⟩
  | unknownOpcode op plen => exact ⟨_, rfl, .inl (.raise .unknownOpcode op plen 0#4 s)⟩
  | badLength op plen => exact ⟨_, rfl, .inl (.raise .badLength op plen 0#4 s)⟩
  | emptyMessage => exact ⟨_, rfl, .inl (.raise .emptyMessage 0#8 0#16 0#4 s)⟩

theorem exec_message_answers (msg : Message) (s : State) : Answers (Effect msg.toInstr s) (exec msg.toInstr s) := by
  obtain ⟨t, next, aside | ⟨sets, his⟩⟩ := exec_message_effect msg s <;> rw [next]
  · exact .aside aside
  · exact .setOptions (.inr his) sets

/-- R190. -/
theorem runMessage_answers (msg : Message) (s : State) : Answers (Effect .dispatch s) (runMessage msg s) := by
  obtain ⟨t, next, effect⟩ := exec_message_effect msg s
  by_cases hmsg : msg = .calibrateImu
  · subst hmsg
    exact .aside ((Aside.record rfl s).andSilent rfl rfl id)
  · rw [runMessage_eq_andThen hmsg, next, andThen_next]
    obtain aside | ⟨sets, -⟩ := effect
    · exact .aside aside.frameDone
    · exact .setOptions (.inl rfl) sets.frameDone

theorem execDispatch_answers (s : State) : Answers (Effect .dispatch s) (execDispatch s) := by
  refine .inPhase (.aside (.refl s)) fun _ => ?_
  split
  · trivial
  · exact runMessage_answers _ s

/-- R161 to R168: the synchronizer writes its own registers and FB. -/
theorem runSync_answers (op : SyncOp) (s : State) : Answers (Aside s) (runSync op s) := by
  cases op with
  | startDelim => exact .silent rfl rfl rfl rfl rfl
  | startData b => exact (Aside.raise .syncLost b 0#16 0#4 s).andSilent rfl rfl id
  | seekEndDelim => exact .silent rfl rfl rfl rfl rfl
  | seekEndData b => exact .refl s
  | accDelimEmpty => exact .refl s
  | accDelimEnd => exact .silent rfl rfl rfl rfl rfl
  | accData b =>
    change Answers (Aside s) (andThen (memWrite .fb s.flen.toNat b s) _)
    unfold memWrite
    split
    · exact (Aside.write .fb s.flen.toNat [b] s).andSilent rfl rfl id
    · trivial
  | accOverflow b =>
    exact (Aside.raise .frameOverflow b (BitVec.ofNat 16 s.params.frameCap) 0#4 s).andSilent rfl rfl
      (fun h => ⟨Memory.wf_nil, h.2⟩)

theorem exec_sync_answers (op : SyncOp) (s : State) : Answers (Effect op.toInstr s) (exec op.toInstr s) := by
  rw [← runSync_eq_exec]
  exact (runSync_answers op s).imp fun _ => .aside

theorem execRxPoll_answers (a : Option Byte) (s : State) : Answers (Aside s) (execRxPoll a s) := by
  refine .inPhase (.refl s) fun _ => ?_
  split
  · exact .refl s
  · exact (Aside.record rfl s).andSilent rfl rfl id
  · rename_i b _
    split
    · exact (runSync_answers _ (record (.rxAnswer (some b)) s)).imp fun _ => .of_record rfl
    · trivial
    · exact .refl s

/-- R171. -/
theorem execDecode_answers (s : State) : Answers (Aside s) (execDecode s) := by
  refine .inPhase (.refl s) fun _ => ?_
  split
  · trivial
  · split
    split
    · refine (writeFrom_answers .mb 0 _ _).andThen ?_
      rintro _ rfl
      exact (Aside.write .mb 0 _ s).andSilent rfl rfl id
    · exact ⟨rfl, ⟨_, rfl, .report .decodeError 0#8 s.flen _⟩, canonical_frameDone⟩

/-- R232 to R235. -/
theorem exec_grant_answers (g : Grant) (s : State) : Answers (Effect g.toInstr s) (exec g.toInstr s) := by
  cases g with
  | imu => exact .service (.inr (.inl ⟨rfl, rfl⟩))
  | cs => exact .service (.inr (.inr ⟨rfl, rfl⟩))
  | periodic => exact .periodic
  | idle => exact .aside (.silent rfl rfl rfl rfl rfl)

/-- R231: the grant that ARB runs is the service of the top line, where one is pending. -/
theorem execArb_answers (s : State) : Answers (Effect .arb s) (execArb s) := by
  refine .inPhase (.aside (.refl s)) fun _ => ?_
  cases himu : s.flag.imu with
  | true =>
    rw [arbGrant_of_imu himu]
    exact .service (.inl ⟨rfl, .inl ⟨rfl, himu⟩⟩)
  | false =>
    cases hcs : s.flag.cs with
    | true =>
      rw [arbGrant_of_cs himu hcs]
      exact .service (.inl ⟨rfl, .inr ⟨rfl, himu, hcs⟩⟩)
    | false =>
      rw [arbGrant_of_flags_clear himu hcs]
      split_ifs
      · exact .periodic
      · exact .aside (.silent rfl rfl rfl rfl rfl)

theorem execEndIter_answers (s : State) : Answers (Aside s) (execEndIter s) := by
  refine .inPhase (.refl s) fun _ => ?_
  split_ifs
  · exact (Aside.record rfl s).andSilent rfl rfl id
  · exact .silent rfl rfl rfl rfl rfl
  · exact .silent rfl rfl rfl rfl rfl

/-- R130. -/
theorem execTxReq_answers (m : List Byte) (s : State) : Answers (Aside s) (execTxReq m s) := by
  unfold execTxReq
  split
  · exact .refl s
  · split_ifs
    · exact .of_record rfl (.raise .encodeOverflow (m.headD 0#8) (BitVec.ofNat 16 m.length) 0#4 _)
    · refine (writeFrom_answers .tb 0 (txFrame m) _).andThen ?_
      rintro _ rfl
      exact .of_record rfl ((Aside.write .tb 0 (txFrame m) _).andSilent rfl rfl id)

/-- R131. -/
theorem execTxPut_answers (s : State) : Answers (Aside s) (execTxPut s) := by
  unfold execTxPut
  split
  · exact .refl s
  · split
    · trivial
    · exact (Aside.record rfl s).andSilent rfl rfl id

theorem onDec_answers (f : DecWork → DecWork) (s : State) : Answers (Aside s) (onDec f s) := by
  change Aside s (if s.dec.ended then s else { s with dec := f s.dec })
  split_ifs
  · exact .refl s
  · exact .silent rfl rfl rfl rfl rfl

theorem execSvcDone_answers (l : Line) (s : State) : Answers (Aside s) (execSvcDone l s) := by
  refine .inPhase (.refl s) fun _ => ?_
  change Aside s (if s.svcLine = l then _ else s)
  split_ifs
  · exact (Aside.record rfl s).andSilent rfl rfl id
  · exact .refl s

theorem execCalDone_answers (s : State) : Answers (Aside s) (execCalDone s) :=
  .inPhase (.refl s) fun _ => (Aside.record rfl s).frameDone

theorem execIrqFire_answers (l : Line) (s : State) : Answers (Effect (.irqFire l) s) (execIrqFire l s) := by
  change Effect (.irqFire l) s (if s.ien.get l && s.latch.get l then irqEntry l s else s)
  split_ifs with h
  · exact .fire (Bool.and_eq_true_iff.1 h).1
  · exact .aside (.refl s)

theorem execBootArm_answers (l : Line) (s : State) : Answers (Effect (.bootArm l) s) (execBootArm l s) := by
  unfold execBootArm
  split
  · trivial
  · change Effect (.bootArm l) s (if s.ien.get l || s.flag.get l || servicing s l then s else _)
    split_ifs
    · exact .aside (.refl s)
    · exact .arm

theorem execClockTick_answers (d : BitVec 64) (s : State) : Answers (Effect (.clockTick d) s) (execClockTick d s) := by
  change Effect (.clockTick d) s (if d ≠ 0#64 ∧ s.nowUs.toNat + d.toNat < 2 ^ 64 then { s with nowUs := s.nowUs + d } else s)
  split_ifs with h
  · exact .tick h.2
  · exact .aside (.refl s)

/-- Every operation answers a next state by one of the effects, or faults. -/
theorem exec_answers (i : Instr) (s : State) : Answers (Effect i s) (exec i s) := by
  have aside {o : Out} (h : Answers (Aside s) o) : Answers (Effect i s) o := h.imp fun _ => .aside
  cases i with
  | setServoAngles rf rb lf lb => exact exec_message_answers (.setServoAngles rf rb lf lb) s
  | requestState => exact exec_message_answers .requestState s
  | calibrateImu => exact exec_message_answers .calibrateImu s
  | emitBufferedErrorLog => exact exec_message_answers .emitBufferedErrorLog s
  | resetDeadReckoning => exact exec_message_answers .resetDeadReckoning s
  | setProgramOptions level iv perf => exact exec_message_answers (.setProgramOptions level iv perf) s
  | unknownOpcode op plen => exact exec_message_answers (.unknownOpcode op plen) s
  | badLength op plen => exact exec_message_answers (.badLength op plen) s
  | emptyMessage => exact exec_message_answers .emptyMessage s
  | codeZero => exact aside (onDec_answers decZero s)
  | codeFull => exact aside (onDec_answers decFull s)
  | codeRun c => exact aside (onDec_answers (decRun c) s)
  | syncStartDelim => exact exec_sync_answers .startDelim s
  | syncStartData b => exact exec_sync_answers (.startData b) s
  | syncSeekEndDelim => exact exec_sync_answers .seekEndDelim s
  | syncSeekEndData b => exact exec_sync_answers (.seekEndData b) s
  | syncAccDelimEmpty => exact exec_sync_answers .accDelimEmpty s
  | syncAccDelimEnd => exact exec_sync_answers .accDelimEnd s
  | syncAccData b => exact exec_sync_answers (.accData b) s
  | syncAccOverflow b => exact exec_sync_answers (.accOverflow b) s
  | grantImu => exact exec_grant_answers .imu s
  | grantCs => exact exec_grant_answers .cs s
  | grantPeriodic => exact exec_grant_answers .periodic s
  | grantIdle => exact exec_grant_answers .idle s
  | rxPoll a => exact aside (execRxPoll_answers a s)
  | decode => exact aside (execDecode_answers s)
  | frameDone => exact .aside (Aside.refl s).frameDone
  | dispatch => exact execDispatch_answers s
  | calDone => exact aside (execCalDone_answers s)
  | arb => exact execArb_answers s
  | svcDone l => exact aside (execSvcDone_answers l s)
  | rearm1 => exact .inPhase (.aside (.refl s)) fun _ => .rearm1
  | rearm2 => exact .inPhase (.aside (.refl s)) fun _ => .rearm2
  | endIter => exact aside (execEndIter_answers s)
  | perfFlush => exact .aside ((Aside.record rfl s).andSilent rfl rfl id)
  | txReq m => exact aside (execTxReq_answers m s)
  | txPut => exact aside (execTxPut_answers s)
  | irqFire l => exact execIrqFire_answers l s
  | alert l => exact .alert
  | bootArm l => exact execBootArm_answers l s
  | clockTick d => exact execClockTick_answers d s
  | reset => exact .reset
  | encode src => exact .aside (.silent rfl rfl rfl rfl rfl)
  | decodeFn src cap => exact .aside (.silent rfl rfl rfl rfl rfl)

theorem effect_of_exec {i : Instr} {s t : State} (h : exec i s = .next t) : Effect i s t := (exec_answers i s).next h

end Sys2Proof.Machine
end

section
/-! Claims about every operation, from its effect (10_state.md sections 5, 7 and 9; 60_exceptions.md section 3). -/

namespace Sys2Proof.Machine

/-- Settles O56: an operation answers a next state or faults. -/
theorem nothingIsRefused : Obligations.NothingIsRefused :=
  fun i s => (exec_answers i s).ne_refused

/-! ### Buffers and trace -/

section
variable {i : Instr} {s t : State}

theorem Effect.canonical (h : Effect i s t) (hs : s.Canonical) : t.Canonical := by
  cases h with
  | aside h => exact h.buffers hs
  | setOptions _ h => exact h.buffers hs
  | reset => exact ⟨Memory.wf_nil, Memory.wf_nil, Memory.wf_nil⟩
  | _ => exact hs

/-- The trace only grows: by a plain stretch, by one request for a service, or by one for periodic telemetry. -/
theorem Effect.output (h : Effect i s t) : ∃ new, t.trace = s.trace ++ new ∧
    (PlainTrace new ∨ (∃ l, new = [.svcReq l]) ∨ new = [.telemReq]) := by
  have silent : ∃ new, s.trace = s.trace ++ new ∧ (PlainTrace new ∨ (∃ l, new = [.svcReq l]) ∨ new = [.telemReq]) :=
    ⟨[], (List.append_nil _).symm, .inl .nil⟩
  cases h with
  | aside h =>
    obtain ⟨ts, htrace, hplain⟩ := h.trace
    exact ⟨ts, htrace, .inl hplain⟩
  | setOptions _ h => exact ⟨_, h.trace, .inl (.single rfl)⟩
  | @service _ _ l _ => exact ⟨_, rfl, .inr (.inl ⟨l, rfl⟩)⟩
  | periodic => exact ⟨_, rfl, .inr (.inr rfl)⟩
  | alert => exact ⟨_, rfl, .inl (.single rfl)⟩
  | arm => exact ⟨_, rfl, .inl (.single rfl)⟩
  | rearm1 => exact silent
  | rearm2 => exact silent
  | fire => exact silent
  | tick => exact silent
  | reset => exact silent

end

/-- Settles O55. -/
theorem buffersStayCanonical : Obligations.BuffersStayCanonical :=
  fun _ _ _ hfb hmb htb h => (effect_of_exec h).canonical ⟨hfb, hmb, htb⟩

/-- Settles O57: a plain stretch has at most one report, with a code of R103; a request is none. -/
theorem atMostOneReport : Obligations.AtMostOneReport := by
  intro i s t h
  obtain ⟨new, htrace, hplain | ⟨l, rfl⟩ | rfl⟩ := (effect_of_exec h).output
  · exact ⟨new, htrace, hplain.reports_le, fun _ _ _ _ => hplain.codes⟩
  · exact ⟨_, htrace, Nat.zero_le 1, by simp⟩
  · exact ⟨_, htrace, Nat.zero_le 1, by simp⟩

/-! ### The line bits (R38 to R40, R73) -/

/-- A write makes a bit 1 only at its own line. -/
theorem LineBits.put_rises {v : LineBits} {l l' : Line} {b : Bool} (h0 : v.get l = false) (h1 : (v.put l' b).get l = true) :
    l = l' ∧ b = true := by
  by_cases hl : l = l'
  · subst hl
    exact ⟨rfl, by rwa [LineBits.get_put_same] at h1⟩
  · rw [LineBits.get_put_other v l' l b hl, h0] at h1
    cases h1

/-- A write makes a bit 0 only at its own line. -/
theorem LineBits.put_falls {v : LineBits} {l l' : Line} {b : Bool} (h1 : v.get l = true) (h0 : (v.put l' b).get l = false) :
    l = l' ∧ b = false := by
  by_cases hl : l = l'
  · subst hl
    exact ⟨rfl, by rwa [LineBits.get_put_same] at h0⟩
  · rw [LineBits.get_put_other v l' l b hl, h1] at h0
    cases h0

theorem resetBits_get (l : Line) : LineBits.get ⟨false, false⟩ l = false := by
  cases l <;> rfl

section
variable {i : Instr} {s t : State} {l : Line}

/-- A bit that a step leaves alone neither rises nor falls. -/
theorem bit_absurd {v w : LineBits} {b : Bool} {p : Prop} (hv : v.get l = b) (hw : w.get l = !b) (h : w = v) : p := by
  rw [h, hv] at hw
  cases b <;> cases hw

theorem Effect.flag_rises (h : Effect i s t) (h0 : s.flag.get l = false) (h1 : t.flag.get l = true) : i = .irqFire l := by
  cases h with
  | aside h => exact bit_absurd h0 h1 (congrArg Shared.flag h.shared)
  | setOptions _ h => exact bit_absurd h0 h1 h.flag
  | service hi =>
    obtain ⟨-, hb⟩ := LineBits.put_rises h0 h1
    cases hb
  | fire =>
    obtain ⟨rfl, -⟩ := LineBits.put_rises h0 h1
    rfl
  | reset => exact absurd (resetBits_get l) (Bool.not_eq_false _ ▸ h1)
  | _ => exact bit_absurd h0 h1 rfl

theorem Effect.flag_falls (h : Effect i s t) (h1 : s.flag.get l = true) (h0 : t.flag.get l = false) :
    (i = .arb ∧ (l = .imu ∨ (l = .cs ∧ s.flag.imu = false))) ∨ (i = .grantImu ∧ l = .imu) ∨ (i = .grantCs ∧ l = .cs) ∨
      i = .reset := by
  cases h with
  | aside h => exact bit_absurd h1 h0 (congrArg Shared.flag h.shared)
  | setOptions _ h => exact bit_absurd h1 h0 h.flag
  | service hi =>
    obtain ⟨rfl, -⟩ := LineBits.put_falls h1 h0
    obtain ⟨rfl, htop⟩ | himu | hcs := hi
    · exact .inl ⟨rfl, htop.imp And.left fun ⟨hl, himu, _⟩ => ⟨hl, himu⟩⟩
    · exact .inr (.inl himu)
    · exact .inr (.inr (.inl hcs))
  | fire =>
    obtain ⟨-, hb⟩ := LineBits.put_falls h1 h0
    cases hb
  | reset => exact .inr (.inr (.inr rfl))
  | _ => exact bit_absurd h1 h0 rfl

theorem Effect.ien_rises (h : Effect i s t) (h0 : s.ien.get l = false) (h1 : t.ien.get l = true) :
    (i = .rearm2 ∧ s.svcLine = l) ∨ i = .bootArm l := by
  cases h with
  | aside h => exact bit_absurd h0 h1 (congrArg Shared.ien h.shared)
  | setOptions _ h => exact bit_absurd h0 h1 h.ien
  | rearm2 =>
    obtain ⟨hl, -⟩ := LineBits.put_rises h0 h1
    exact .inl ⟨rfl, hl.symm⟩
  | fire =>
    obtain ⟨-, hb⟩ := LineBits.put_rises h0 h1
    cases hb
  | arm =>
    obtain ⟨rfl, -⟩ := LineBits.put_rises h0 h1
    exact .inr rfl
  | reset => exact absurd (resetBits_get l) (Bool.not_eq_false _ ▸ h1)
  | _ => exact bit_absurd h0 h1 rfl

theorem Effect.ien_falls (h : Effect i s t) (h1 : s.ien.get l = true) (h0 : t.ien.get l = false) :
    i = .irqFire l ∨ i = .reset := by
  cases h with
  | aside h => exact bit_absurd h1 h0 (congrArg Shared.ien h.shared)
  | setOptions _ h => exact bit_absurd h1 h0 h.ien
  | rearm2 =>
    obtain ⟨-, hb⟩ := LineBits.put_falls h1 h0
    cases hb
  | fire =>
    obtain ⟨rfl, -⟩ := LineBits.put_falls h1 h0
    exact .inl rfl
  | arm =>
    obtain ⟨-, hb⟩ := LineBits.put_falls h1 h0
    cases hb
  | reset => exact .inr rfl
  | _ => exact bit_absurd h1 h0 rfl

theorem Effect.latch_rises (h : Effect i s t) (h0 : s.latch.get l = false) (h1 : t.latch.get l = true) : i = .alert l := by
  cases h with
  | aside h => exact bit_absurd h0 h1 (congrArg Shared.latch h.shared)
  | setOptions _ h => exact bit_absurd h0 h1 h.latch
  | rearm1 =>
    obtain ⟨-, hb⟩ := LineBits.put_rises h0 h1
    cases hb
  | fire =>
    obtain ⟨-, hb⟩ := LineBits.put_rises h0 h1
    cases hb
  | alert =>
    obtain ⟨rfl, -⟩ := LineBits.put_rises h0 h1
    rfl
  | arm =>
    obtain ⟨-, hb⟩ := LineBits.put_rises h0 h1
    cases hb
  | reset => exact absurd (resetBits_get l) (Bool.not_eq_false _ ▸ h1)
  | _ => exact bit_absurd h0 h1 rfl

theorem Effect.latch_falls (h : Effect i s t) (h1 : s.latch.get l = true) (h0 : t.latch.get l = false) :
    i = .irqFire l ∨ (i = .rearm1 ∧ s.svcLine = l) ∨ i = .bootArm l ∨ i = .reset := by
  cases h with
  | aside h => exact bit_absurd h1 h0 (congrArg Shared.latch h.shared)
  | setOptions _ h => exact bit_absurd h1 h0 h.latch
  | rearm1 =>
    obtain ⟨hl, -⟩ := LineBits.put_falls h1 h0
    exact .inr (.inl ⟨rfl, hl.symm⟩)
  | fire =>
    obtain ⟨rfl, -⟩ := LineBits.put_falls h1 h0
    exact .inl rfl
  | alert =>
    obtain ⟨-, hb⟩ := LineBits.put_falls h1 h0
    cases hb
  | arm =>
    obtain ⟨rfl, -⟩ := LineBits.put_falls h1 h0
    exact .inr (.inr (.inl rfl))
  | reset => exact .inr (.inr (.inr rfl))
  | _ => exact bit_absurd h1 h0 rfl

end

/-- Settles O58: each of the three bits, rising and falling, from the effect of the operation. -/
theorem sharedBitWriters : Obligations.SharedBitWriters := by
  intro i s t l h
  have effect := effect_of_exec h
  refine ⟨effect.flag_rises, effect.flag_falls, effect.ien_rises, effect.ien_falls, effect.latch_rises, effect.latch_falls, ?_⟩
  rintro rfl
  cases h
  exact ⟨resetBits_get l, resetBits_get l, resetBits_get l⟩

/-! ### Options and clock -/

/-- Settles O59: only `Effect.setOptions` and reset touch the options. -/
theorem optionsChangeOnlyByCommand : Obligations.OptionsChangeOnlyByCommand := by
  refine fun i s t h => ⟨rfl, fun hne hreset => ?_⟩
  cases effect_of_exec h with
  | aside h => exact absurd (congrArg Shared.poPorts h.shared) hne
  | setOptions hi h => exact ⟨hi, h.trace⟩
  | reset => exact absurd rfl hreset
  | _ => exact absurd rfl hne

section
variable {i : Instr} {s t : State}

/-- R44: the clock and the parameters, but for a clock advance. -/
theorem Effect.clock (h : Effect i s t) : t.params = s.params ∧
    (t.nowUs = s.nowUs ∨ ∃ d, i = .clockTick d ∧ s.nowUs.toNat + d.toNat < 2 ^ 64 ∧ t = { s with nowUs := s.nowUs + d }) := by
  cases h with
  | aside h => exact ⟨congrArg Shared.params h.shared, .inl (congrArg Shared.nowUs h.shared)⟩
  | setOptions _ h => exact ⟨h.params, .inl h.nowUs⟩
  | @tick d _ hwrap => exact ⟨rfl, .inr ⟨d, rfl, hwrap, rfl⟩⟩
  | _ => exact ⟨rfl, .inl rfl⟩

end

/-- Settles O60: only an accepted advance moves the clock, and it does not wrap. -/
theorem clockIsMonotonic : Obligations.ClockIsMonotonic := by
  intro i s t h
  obtain ⟨hparams, hclock⟩ := (effect_of_exec h).clock
  refine ⟨?_, hparams, fun hne => ?_, ?_⟩
  · obtain hsame | ⟨d, -, hwrap, rfl⟩ := hclock
    · exact BitVec.le_of_eq hsame.symm
    · rw [BitVec.le_def, BitVec.toNat_add_of_lt hwrap]
      exact Nat.le_add_right _ _
  · obtain hsame | ⟨d, hi, -, ht⟩ := hclock
    · exact absurd hsame hne
    · exact ⟨d, hi, ht⟩
  · rintro d rfl hrefused
    rw [exec_clockTick_of_refused hrefused] at h
    exact (Host.Outcome.next.inj h).symm

/-! ### Periodic deadlines (R249) -/

/-- From `s` to `t` the trace grows by `new`, and unless it announces new options, the interval stays and the deadline is one interval
further for each periodic grant. -/
structure OnSchedule (new : List Transaction) (s t : State) : Prop where
  trace : t.trace = s.trace ++ new
  schedule : (∀ level iv perf, .poUpdate level iv perf ∉ new) →
    t.poInterval = s.poInterval ∧ t.deadline = s.deadline + BitVec.ofNat 64 (telemReqs new) * (s.poInterval.setWidth 64 * 1000#64)

section
variable {s t u : State} {new new' : List Transaction}

/-- Nothing is granted, and the deadline stays. -/
theorem OnSchedule.of_no_grant (htrace : t.trace = s.trace ++ new) (htelem : telemReqs new = 0)
    (hiv : t.poInterval = s.poInterval) (hdeadline : t.deadline = s.deadline) : OnSchedule new s t :=
  ⟨htrace, fun _ => ⟨hiv, by simp [htelem, hdeadline]⟩⟩

theorem OnSchedule.trans (h : OnSchedule new s t) (h' : OnSchedule new' t u) : OnSchedule (new ++ new') s u := by
  refine ⟨by rw [h'.trace, h.trace, List.append_assoc], fun hno => ?_⟩
  obtain ⟨hiv, hdeadline⟩ := h.schedule fun level iv perf hmem => hno level iv perf (List.mem_append_left _ hmem)
  obtain ⟨hiv', hdeadline'⟩ := h'.schedule fun level iv perf hmem => hno level iv perf (List.mem_append_right _ hmem)
  refine ⟨hiv'.trans hiv, ?_⟩
  rw [hdeadline', hdeadline, hiv, telemReqs_append, BitVec.ofNat_add, BitVec.add_mul, BitVec.add_assoc]

theorem Effect.onSchedule {i : Instr} (h : Effect i s t) (hi : i ≠ .reset) : ∃ new, OnSchedule new s t := by
  cases h with
  | aside h =>
    obtain ⟨ts, htrace, hplain⟩ := h.trace
    have hports := congrArg Shared.poPorts h.shared
    exact ⟨ts, .of_no_grant htrace hplain.telemReqs_eq (congrArg (·.2.1) hports) (congrArg Shared.deadline h.shared)⟩
  | setOptions _ h =>
    exact ⟨_, h.trace, fun hno => absurd (List.mem_singleton.2 rfl) (hno t.poLevel t.poInterval t.poPerf)⟩
  | service => exact ⟨_, .of_no_grant rfl rfl rfl rfl⟩
  | periodic => exact ⟨[.telemReq], rfl, fun _ => ⟨rfl, by rw [show telemReqs [.telemReq] = 1 from rfl, BitVec.one_mul]; rfl⟩⟩
  | alert => exact ⟨_, .of_no_grant rfl rfl rfl rfl⟩
  | arm => exact ⟨_, .of_no_grant rfl rfl rfl rfl⟩
  | reset => exact absurd rfl hi
  | _ => exact ⟨[], .of_no_grant (List.append_nil _).symm rfl rfl rfl⟩

end

/-- Settles O40, by induction on the operations: `OnSchedule` holds of each and composes. -/
theorem periodicDeadlinesDoNotDrift : Obligations.PeriodicDeadlinesDoNotDrift := by
  suffices h : ∀ (is : List Instr) (s t : State), Instr.reset ∉ is → runInstrs is s = .next t → ∃ new, OnSchedule new s t by
    intro is s t hreset hrun
    obtain ⟨new, hnew⟩ := h is s t hreset hrun
    exact ⟨new, hnew.trace, hnew.schedule⟩
  intro is
  induction is with
  | nil =>
    intro s t _ hrun
    cases hrun
    exact ⟨[], .of_no_grant (List.append_nil _).symm rfl rfl rfl⟩
  | cons i is ih =>
    intro s t hreset hrun
    obtain ⟨hi, his⟩ := not_or.1 (mt List.mem_cons.2 hreset)
    obtain ⟨u, hexec, hrest⟩ := andThen_eq_next _ _ _ hrun
    obtain ⟨new, hnew⟩ := (effect_of_exec hexec).onSchedule (Ne.symm hi)
    obtain ⟨new', hnew'⟩ := ih u t his hrest
    exact ⟨new ++ new', hnew.trans hnew'⟩

end Sys2Proof.Machine
end

section
/-! What keeps the invariant of reachable states: one lemma for each kind of change of the state (10_state.md section 11, R46). -/

namespace Sys2Proof.Machine

section
variable {s : State}

/-! ### Changes that the invariant does not speak of -/

theorem State.Inv.withTrace (h : s.Inv) (ts : List Transaction) : State.Inv { s with trace := ts } := { h with }

theorem State.Inv.withLatch (h : s.Inv) (v : LineBits) : State.Inv { s with latch := v } := { h with }

theorem State.Inv.withClock (h : s.Inv) (now : BitVec 64) : State.Inv { s with nowUs := now } := { h with }

theorem State.Inv.withDeadline (h : s.Inv) (d : BitVec 64) : State.Inv { s with deadline := d } := { h with }

theorem State.Inv.withSchedule (h : s.Inv) (es : List Event) (n : Nat) : State.Inv { s with pending := es, draws := n } :=
  { h with }

theorem State.Inv.record (h : s.Inv) (x : Transaction) : (record x s).Inv := h.withTrace _

theorem State.Inv.withDstat (h : s.Inv) {v : BitVec 4} (hv : v.getLsbD 0 = false) : State.Inv { s with dstat := v } :=
  { h with dstat_null := hv }

/-! ### MAIN's phase -/

/-- The phases in which MAIN works on a frame (R46 item 3). -/
abbrev FramePhase (v : BitVec 4) : Prop := v = 1#4 ∨ v = 2#4 ∨ v = 3#4

/-- The phases in which MAIN services a line (R22). -/
abbrev ServicePhase (v : BitVec 4) : Prop := v = 5#4 ∨ v = 6#4 ∨ v = 7#4

theorem State.Inv.mlen_eq_zero (h : s.Inv) (hp : ¬ FramePhase s.mphase) : s.mlen = 0#16 :=
  h.message_phase (fun h2 => hp (.inr (.inl h2))) (fun h3 => hp (.inr (.inr h3)))

theorem State.Inv.not_handoff (h : s.Inv) (hp : ¬ FramePhase s.mphase) : s.fsState ≠ .handoff :=
  fun hfs => hp (h.handoff_phase.1 hfs)

/-- MAIN goes between two phases outside the work on a frame, neither of them END; into a service only with the line's bits clear. -/
theorem State.Inv.withPhase (h : s.Inv) {v : BitVec 4} (hlegal : v ≤ 8#4) (hs : ¬ FramePhase s.mphase) (hv : ¬ FramePhase v)
    (hend : s.mphase = 8#4 → s.idleCount.toNat ≤ s.loopCount.toNat)
    (hsvc : ServicePhase v → s.ien.get s.svcLine = false ∧ s.flag.get s.svcLine = false) :
    State.Inv { s with mphase := v } :=
  { h with
    phase_legal := hlegal
    serviced_disabled := fun l hl => by
      obtain ⟨hphase, rfl⟩ := servicing_iff.1 hl
      exact hsvc hphase
    handoff_phase := ⟨fun hfs => absurd hfs (h.not_handoff hs), fun he => absurd he hv⟩
    message_phase := fun _ _ => h.mlen_eq_zero hs
    idle_bound := by
      have bound : s.idleCount.toNat ≤ s.loopCount.toNat := by
        by_cases he : s.mphase = 8#4
        · exact hend he
        · simpa [he] using h.idle_bound
      exact bound.trans (Nat.le_add_right _ _) }

/-- FRAME_DONE ends the work on a frame (R172). -/
theorem State.Inv.frameDone (h : s.Inv) (hp : FramePhase s.mphase) : (frameDone s).Inv :=
  { h with
    phase_legal := by simp
    serviced_disabled := fun l hl => by
      obtain ⟨hphase, -⟩ := servicing_iff.1 hl
      simp at hphase
    handoff_phase := by simp
    seek_empty := fun _ => rfl
    handoff_nonempty := nofun
    flen_bound := Nat.zero_le _
    mlen_bound := Nat.zero_le _
    message_phase := fun _ _ => rfl
    idle_bound := by
      have not_end : s.mphase ≠ 8#4 := by rintro he; rw [he] at hp; exact absurd hp (by decide)
      simpa [not_end] using h.idle_bound
    fb_nonzero := fun k hk => absurd hk (Nat.not_lt_zero k)
    fb_filled := fun k hk => absurd hk (Nat.not_lt_zero k)
    mb_filled := fun k hk => absurd hk (Nat.not_lt_zero k)
    fb_within := Memory.within_nil _
    mb_within := Memory.within_nil _
    fb_wf := Memory.wf_nil
    mb_wf := Memory.wf_nil }

theorem State.Inv.doneWith (h : s.Inv) (hp : FramePhase s.mphase) (ts : List Transaction) : (s.doneWith ts).Inv :=
  (h.frameDone hp).withTrace _

/-! ### The synchronizer -/

/-- What the invariant says of the synchronizer's registers and FB. -/
structure FrameOk (cap : Nat) (fs : FsState) (flen : BitVec 16) (fb : Memory) : Prop where
  seek_empty : fs = .seekStart ∨ fs = .seekEnd → flen = 0#16
  handoff_nonempty : fs = .handoff → 1 ≤ flen.toNat
  flen_bound : flen.toNat ≤ cap
  nonzero : ∀ k, k < flen.toNat → fb.read k ≠ some 0#8
  filled : fb.filled flen.toNat
  within : fb.within cap
  wf : fb.wf

theorem State.Inv.frameOk (h : s.Inv) : FrameOk s.params.frameCap s.fsState s.flen s.fb :=
  ⟨h.seek_empty, h.handoff_nonempty, h.flen_bound, h.fb_nonzero, h.fb_filled, h.fb_within, h.fb_wf⟩

section
variable {cap : Nat} {fs fs' : FsState} {flen : BitVec 16} {fb : Memory}

/-- No byte is accumulated, and none is handed over. -/
theorem FrameOk.empty (hfs : fs ≠ .handoff) (hwithin : fb.within cap) (hwf : fb.wf) : FrameOk cap fs 0#16 fb where
  seek_empty _ := rfl
  handoff_nonempty he := absurd he hfs
  flen_bound := Nat.zero_le _
  nonzero k hk := absurd hk (Nat.not_lt_zero k)
  filled k hk := absurd hk (Nat.not_lt_zero k)
  within := hwithin
  wf := hwf

/-- R166: a data byte that fits is accumulated. -/
theorem FrameOk.push (h : FrameOk cap fs flen fb) (hcap : cap ≤ 65535) (hlt : flen.toNat < cap) {b : Byte} (hb : b ≠ 0#8) :
    FrameOk cap .accumulating (flen + 1#16) (fb.write flen.toNat b) := by
  have counted : (flen + 1#16).toNat = flen.toNat + 1 := BitVec.toNat_add_of_lt (y := 1#16) (by simp; omega)
  have read (k : Nat) : (fb.write flen.toNat b).read k = if k = flen.toNat then some b else fb.read k :=
    Memory.read_write fb flen.toNat k b
  refine ⟨nofun, nofun, by omega, fun k hk => ?_, fun k hk => ?_, Memory.within_write fb _ cap b h.within hlt,
    Memory.wf_write fb _ b h.wf⟩
  · rw [read]
    split_ifs with hlast
    · exact fun he => hb (Option.some.inj he)
    · exact h.nonzero k (by omega)
  · rw [read]
    split_ifs with hlast
    · rfl
    · exact h.filled k (by omega)

/-- R167: a frame that is not empty is handed over. -/
theorem FrameOk.handOver (h : FrameOk cap fs flen fb) (hne : flen ≠ 0#16) : FrameOk cap .handoff flen fb :=
  { h with
    seek_empty := nofun
    handoff_nonempty := fun _ => by bv_omega }

/-- The synchronizer moves while MAIN polls, and hands a frame over exactly when MAIN goes to DECODE. -/
theorem State.Inv.withFrame (h : s.Inv) (hp : s.mphase = 0#4) (hok : FrameOk s.params.frameCap fs flen fb) {v : BitVec 4}
    (hv : (v = 0#4 ∧ fs ≠ .handoff) ∨ (v = 1#4 ∧ fs = .handoff)) :
    State.Inv { s with fsState := fs, flen := flen, fb := fb, mphase := v } := by
  have hphase : v ≤ 8#4 ∧ ¬ ServicePhase v ∧ (fs = .handoff ↔ FramePhase v) := by
    obtain ⟨rfl, hfs⟩ | ⟨rfl, hfs⟩ := hv
    · exact ⟨by decide, by decide, fun he => absurd he hfs, fun he => absurd he (by decide)⟩
    · exact ⟨by decide, by decide, fun _ => .inl rfl, fun _ => hfs⟩
  obtain ⟨hlegal, hsvc, hhandoff⟩ := hphase
  exact { h with
    phase_legal := hlegal
    serviced_disabled := fun l hl => absurd (servicing_iff.1 hl).1 hsvc
    handoff_phase := hhandoff
    seek_empty := hok.seek_empty
    handoff_nonempty := hok.handoff_nonempty
    flen_bound := hok.flen_bound
    message_phase := fun _ _ => h.mlen_eq_zero (by rw [hp]; decide)
    idle_bound := by
      have bound : s.idleCount.toNat ≤ s.loopCount.toNat := by simpa [hp] using h.idle_bound
      exact bound.trans (Nat.le_add_right _ _)
    fb_nonzero := hok.nonzero
    fb_filled := hok.filled
    fb_within := hok.within
    fb_wf := hok.wf }

end

/-! ### Messages -/

/-- R171: DECODE puts a message into MB and goes to DISPATCH. -/
theorem State.Inv.withMessage (h : s.Inv) (hp : s.mphase = 1#4) {m : List Byte} (hfit : m.length ≤ s.params.msgCap) :
    State.Inv { s with dstat := 0#4, mb := writeBytes s.mb 0 m, mlen := BitVec.ofNat 16 m.length, mphase := 2#4 } := by
  have counted : (BitVec.ofNat 16 m.length).toNat ≤ m.length := by
    rw [BitVec.toNat_ofNat]
    exact Nat.mod_le _ _
  have bound : s.idleCount.toNat ≤ s.loopCount.toNat := by simpa [hp] using h.idle_bound
  exact { h with
    phase_legal := by simp
    serviced_disabled := fun l hl => by
      obtain ⟨hphase, -⟩ := servicing_iff.1 hl
      simp at hphase
    handoff_phase := ⟨fun _ => .inr (.inl rfl), fun _ => h.handoff_phase.2 (.inl hp)⟩
    mlen_bound := counted.trans hfit
    message_phase := fun hne _ => absurd rfl hne
    idle_bound := bound
    dstat_null := BitVec.getLsbD_zero
    mb_filled := fun k hk => Memory.holds_filled _ m (holds_writeBytes m s.mb) k (hk.trans_le counted)
    mb_within := within_writeBytes m s.mb 0 _ h.mb_within (by simpa using hfit)
    mb_wf := wf_writeBytes m s.mb 0 h.mb_wf }

/-- R196: the calibration command keeps its frame and message while MAIN waits. -/
theorem State.Inv.toCalWait (h : s.Inv) (hp : s.mphase = 2#4) : State.Inv { s with mphase := 3#4 } := by
  have bound : s.idleCount.toNat ≤ s.loopCount.toNat := by simpa [hp] using h.idle_bound
  exact { h with
    phase_legal := by simp
    serviced_disabled := fun l hl => by
      obtain ⟨hphase, -⟩ := servicing_iff.1 hl
      simp at hphase
    handoff_phase := ⟨fun _ => .inr (.inr rfl), fun _ => h.handoff_phase.2 (.inr (.inl hp))⟩
    message_phase := fun _ hne => absurd rfl hne
    idle_bound := bound }

/-- R198: new options start a new performance window. -/
theorem State.Inv.withOptions (h : s.Inv) (level : Byte) (interval : BitVec 16) (perf : Bool) (d now : BitVec 64) :
    State.Inv { s with
      poLevel := level, poInterval := interval, poPerf := perf, deadline := d, loopCount := 0#16, idleCount := 0#16, perfT0 := now } :=
  { h with
    loop_bound := Nat.zero_lt_succ _
    idle_bound := Nat.zero_le _ }

/-! ### The line bits -/

/-- A flag is cleared. -/
theorem State.Inv.clearFlag (h : s.Inv) (l : Line) : State.Inv { s with flag := s.flag.put l false } := by
  have falls {l' : Line} (hl : (s.flag.put l false).get l' = true) : s.flag.get l' = true := by
    by_contra hoff
    obtain ⟨-, hb⟩ := LineBits.put_rises (Bool.eq_false_iff.2 hoff) hl
    cases hb
  exact { h with
    pending_disabled := fun l' hl => h.pending_disabled l' (falls hl)
    serviced_disabled := fun l' hl => by
      obtain ⟨hien, hflag⟩ := h.serviced_disabled l' hl
      exact ⟨hien, Bool.eq_false_iff.2 fun hon => Bool.eq_false_iff.1 hflag (falls hon)⟩ }

/-- R232, R233: the service of a pending line starts; the line is disabled and its flag cleared. -/
theorem State.Inv.startService (h : s.Inv) {l : Line} (hp : s.mphase = 4#4) (hflag : s.flag.get l = true) :
    (startService l s).Inv := by
  have cleared := h.clearFlag l
  have lined : State.Inv { s with flag := s.flag.put l false, svcLine := l } :=
    { cleared with
      serviced_disabled := fun l' hl => by
        obtain ⟨hphase, -⟩ := servicing_iff.1 hl
        rw [hp] at hphase
        exact absurd hphase (by decide) }
  refine ((lined.record (.svcReq l)).withPhase (v := 5#4) (by decide) ?_ (by decide) ?_ fun _ => ⟨?_, ?_⟩)
  · rw [record_mphase, hp]
    decide
  · rw [record_mphase, hp]
    exact fun he => absurd he (by decide)
  · exact h.pending_disabled l hflag
  · exact LineBits.get_put_same s.flag l false

/-- A line that is neither pending nor being serviced is enabled. -/
theorem State.Inv.enableLine (h : s.Inv) {l : Line} (hflag : s.flag.get l = false) (hsvc : servicing s l = false) :
    State.Inv { s with ien := s.ien.put l true } :=
  { h with
    pending_disabled := fun l' hl => by
      have hne : l' ≠ l := by
        rintro rfl
        rw [hflag] at hl
        cases hl
      exact (LineBits.get_put_other s.ien l l' true hne).trans (h.pending_disabled l' hl)
    serviced_disabled := fun l' hl => by
      have hne : l' ≠ l := by
        rintro rfl
        exact Bool.eq_false_iff.1 hsvc hl
      obtain ⟨hien, hoff⟩ := h.serviced_disabled l' hl
      exact ⟨(LineBits.get_put_other s.ien l l' true hne).trans hien, hoff⟩ }

/-- R241: the handler makes its line pending and disables it. -/
theorem State.Inv.irqEntry (h : s.Inv) {l : Line} (hien : s.ien.get l = true) : (irqEntry l s).Inv := by
  have other {l' : Line} (hne : l' ≠ l) (v : LineBits) (b : Bool) : (v.put l b).get l' = v.get l' :=
    LineBits.get_put_other v l l' b hne
  exact { h with
    pending_disabled := fun l' hl => by
      by_cases hne : l' = l
      · subst hne
        exact LineBits.get_put_same s.ien l' false
      · exact (other hne s.ien false).trans (h.pending_disabled l' ((other hne s.flag true).symm.trans hl))
    serviced_disabled := fun l' hl => by
      obtain ⟨hoff, hflag⟩ := h.serviced_disabled l' hl
      have hne : l' ≠ l := by
        rintro rfl
        rw [hien] at hoff
        cases hoff
      exact ⟨(other hne s.ien false).trans hoff, (other hne s.flag true).trans hflag⟩ }

/-! ### Counters -/

/-- R234, R235: a grant that starts no service goes to END, where an idle grant may be one ahead. -/
theorem State.Inv.toEnd (h : s.Inv) (hp : s.mphase = 4#4) :
    State.Inv { s with idleCount := if s.poPerf = true then s.idleCount + 1#16 else s.idleCount, mphase := 8#4 } := by
  have bound : s.idleCount.toNat ≤ s.loopCount.toNat := by simpa [hp] using h.idle_bound
  have hloop := h.loop_bound
  have not_frame : ¬ FramePhase s.mphase := by rw [hp]; decide
  exact { h with
    phase_legal := by simp
    serviced_disabled := fun l hl => by
      obtain ⟨hphase, -⟩ := servicing_iff.1 hl
      simp at hphase
    handoff_phase := ⟨fun hfs => absurd hfs (h.not_handoff not_frame), fun he => absurd he (by simp)⟩
    message_phase := fun _ _ => h.mlen_eq_zero not_frame
    idle_bound := by
      by_cases hon : s.poPerf = true
      · simp only [hon, if_true, true_and]
        bv_omega
      · simp only [hon]
        exact bound }

/-- R236: END counts the iteration, so that the idle grants are no more than the iterations. -/
theorem State.Inv.withLoopCount (h : s.Inv) (hp : s.mphase = 8#4) {c : BitVec 16} (hc : c.toNat < 10000)
    (hidle : s.idleCount.toNat ≤ c.toNat) : State.Inv { s with loopCount := c, mphase := 0#4 } := by
  have not_frame : ¬ FramePhase s.mphase := by rw [hp]; decide
  exact { h with
    phase_legal := by simp
    serviced_disabled := fun l hl => by
      obtain ⟨hphase, -⟩ := servicing_iff.1 hl
      simp at hphase
    handoff_phase := ⟨fun hfs => absurd hfs (h.not_handoff not_frame), fun he => absurd he (by simp)⟩
    message_phase := fun _ _ => h.mlen_eq_zero not_frame
    loop_bound := hc
    idle_bound := hidle }

/-! ### The transmit framer -/

/-- R130: a frame of `n` bytes in TB is about to be sent. -/
theorem State.Inv.withTxFrame (h : s.Inv) {bs : List Byte} (hne : bs ≠ []) (hfit : bs.length ≤ s.params.txEncCap + 2) :
    State.Inv { s with
      tb := writeBytes s.tb 0 bs, txLen := BitVec.ofNat 16 bs.length, txIdx := 0#16, txPhase := .send } := by
  obtain ⟨-, -, -, -, -, hcap⟩ := h.params_valid
  have counted : (BitVec.ofNat 16 bs.length).toNat = bs.length := by
    rw [BitVec.toNat_ofNat]
    omega
  exact { h with
    tx_idle := nofun
    tx_send := fun _ => counted.symm ▸ List.length_pos_iff.2 hne
    tx_bound := counted.symm ▸ hfit
    tb_filled := counted.symm ▸ Memory.holds_filled _ bs (holds_writeBytes bs s.tb)
    tb_within := within_writeBytes bs s.tb 0 _ h.tb_within (by simpa using hfit)
    tb_wf := wf_writeBytes bs s.tb 0 h.tb_wf }

/-- R131: TX moves past the byte it sent. -/
theorem State.Inv.advanceTx (h : s.Inv) (hsend : s.txPhase = .send) : (advanceTx s).Inv := by
  have hlt := h.tx_send hsend
  have next : (s.txIdx + 1#16).toNat = s.txIdx.toNat + 1 := by bv_omega
  exact { h with
    tx_idle := fun hidle => by
      by_contra hmore
      exact nomatch (((if_neg hmore).symm.trans hidle : s.txPhase = .idle).symm.trans hsend)
    tx_send := fun hgo => by
      have hmore : s.txIdx + 1#16 ≠ s.txLen := fun he => nomatch ((if_pos he).symm.trans hgo : TxPhase.idle = .send)
      change (s.txIdx + 1#16).toNat < s.txLen.toNat
      bv_omega }

end
end Sys2Proof.Machine
end

section
/-! Every event keeps the invariant and completes (10_state.md section 11, R46; 20_memory.md, R61, R62). -/

namespace Sys2Proof.Machine

/-- The outcome is a next state with the invariant. -/
def KeepsInv (o : Out) : Prop := ∃ t, o = .next t ∧ t.Inv

section
variable {s : State}

/-! ### MAIN's operations -/

theorem rxPoll_none_keepsInv (h : s.Inv) (hp : s.mphase = 0#4) (hfs : s.fsState ≠ .handoff) :
    KeepsInv (exec (.rxPoll none) s) := by
  refine ⟨_, execRxPoll_none s hp hfs, (h.record (.rxAnswer none)).withPhase (v := 4#4) (by decide) ?_ (by decide) ?_ ?_⟩
  · rw [record_mphase, hp]
    decide
  · rw [record_mphase, hp]
    exact fun he => absurd he (by decide)
  · exact fun hsvc => absurd hsvc (by decide)

/-- R161 to R168: each row of R170, by the synchronizer's state and the class of the byte. -/
theorem rxPoll_some_keepsInv (h : s.Inv) (hp : s.mphase = 0#4) (hfs : s.fsState ≠ .handoff) (b : Byte) :
    KeepsInv (exec (.rxPoll (some b)) s) := by
  obtain ⟨-, hcap, -⟩ := h.params_valid
  have ok := h.frameOk
  have polls {fs : FsState} (hs : s.fsState = fs) : PollsIn fs s := ⟨hp, hs⟩
  have empties (fs : FsState) (hne : fs ≠ .handoff) (fb : Memory) (hwithin : fb.within s.params.frameCap) (hwf : fb.wf) :
      State.Inv { s with fsState := fs, flen := 0#16, fb := fb } :=
    h.withFrame hp (.empty hne hwithin hwf) (.inl ⟨hp, hne⟩)
  cases hs : s.fsState with
  | handoff => exact absurd hs hfs
  | seekStart =>
    by_cases hb : b = 0x00#8
    · subst hb
      exact ⟨_, exec_rxPoll_startDelim (polls hs), (empties .accumulating nofun s.fb ok.within ok.wf).withTrace _⟩
    · have emptied := empties .seekEnd nofun s.fb ok.within ok.wf
      rw [← h.seek_empty (.inl hs)] at emptied
      exact ⟨_, exec_rxPoll_startData (polls hs) hb, emptied.withTrace _⟩
  | seekEnd =>
    by_cases hb : b = 0x00#8
    · subst hb
      have emptied := empties .seekStart nofun s.fb ok.within ok.wf
      rw [← h.seek_empty (.inr hs)] at emptied
      exact ⟨_, exec_rxPoll_seekEndDelim (polls hs), emptied.withTrace _⟩
    · exact ⟨_, exec_rxPoll_seekEndData (polls hs) hb, h.withTrace _⟩
  | accumulating =>
    by_cases hb : b = 0x00#8
    · subst hb
      by_cases hempty : s.flen = 0#16
      · obtain ⟨-, -, polled⟩ := frameDelimiterResults s
        exact ⟨_, (polled hp hs).1 hempty, h.withTrace _⟩
      · exact ⟨_, exec_rxPoll_accDelimEnd (polls hs) (by bv_omega),
          (h.withFrame hp (ok.handOver hempty) (.inr ⟨rfl, rfl⟩)).withTrace _⟩
    · obtain hlt | heq := ok.flen_bound.lt_or_eq
      · have pushed := h.withFrame hp (ok.push hcap hlt hb) (.inl ⟨hp, nofun⟩)
        rw [← hs] at pushed
        exact ⟨_, exec_rxPoll_accData (polls hs) hb hlt, pushed.withTrace _⟩
      · exact ⟨_, exec_rxPoll_accOverflow (polls hs) hb heq,
          (empties .seekEnd nofun [] (Memory.within_nil _) Memory.wf_nil).withTrace _⟩

theorem State.Inv.exists_atFrame (h : s.Inv) (hp : s.mphase = 1#4) : ∃ body, s.atFrame body := by
  obtain ⟨body, hread⟩ := readAll_filled .fb s h.fb_filled
  obtain ⟨hlen, hholds⟩ := readAll_eq_ok .fb s body hread
  exact ⟨body, hp, hlen.symm, hholds⟩

theorem State.Inv.exists_atMessage (h : s.Inv) (hp : s.mphase = 2#4) : ∃ m, s.atMessage m := by
  obtain ⟨m, hread⟩ := readAll_filled .mb s h.mb_filled
  obtain ⟨hlen, hholds⟩ := readAll_eq_ok .mb s m hread
  exact ⟨m, hp, hlen.symm, hholds⟩

/-- R127: a decode never reports NullPointer. -/
theorem decodeFn_bit0 (src : List Byte) (cap : Nat) : (decodeFn src cap).2.getLsbD 0 = false := by
  obtain ⟨w, -, -, hw, -, hbit⟩ := decodeFnCompletes src cap State.reset
  rw [← hw]
  exact hbit

theorem decode_keepsInv (h : s.Inv) (hp : s.mphase = 1#4) : KeepsInv (exec .decode s) := by
  obtain ⟨body, hbody⟩ := h.exists_atFrame hp
  obtain ⟨m, stat, hm⟩ : ∃ m stat, decodeFn body s.params.msgCap = (m, stat) := ⟨_, _, rfl⟩
  have hbit := decodeFn_bit0 body s.params.msgCap
  have hfit := decodeFn_length_le body s.params.msgCap
  rw [hm] at hbit hfit
  rw [exec_decode_of_atFrame hbody hm]
  split_ifs
  · rw [decodeSucceeded_of_fits hfit]
    exact ⟨_, rfl, h.withMessage hp hfit⟩
  · exact ⟨_, rfl, ((h.withDstat hbit).record _).frameDone (.inl hp)⟩

/-- A message's operation, but for the calibration command, keeps the invariant and MAIN's phase. -/
theorem message_keepsInv (h : s.Inv) {msg : Message} (hmsg : msg ≠ .calibrateImu) :
    ∃ t, exec msg.toInstr s = .next t ∧ t.Inv ∧ t.mphase = s.mphase := by
  cases msg with
  | calibrateImu => exact absurd rfl hmsg
  | setProgramOptions level interval perf =>
    exact ⟨_, exec_setProgramOptions level interval perf s, (h.withOptions level interval _ _ s.nowUs).withTrace _, rfl⟩
  | _ => exact ⟨_, rfl, h.record _, rfl⟩

theorem dispatch_keepsInv (h : s.Inv) (hp : s.mphase = 2#4) : KeepsInv (exec .dispatch s) := by
  obtain ⟨m, hm⟩ := h.exists_atMessage hp
  rw [exec_dispatch_of_atMessage hm]
  by_cases hmsg : decodeMessage m = .calibrateImu
  · rw [hmsg]
    exact ⟨_, rfl, (h.record .calibReq).toCalWait hp⟩
  · obtain ⟨t, next, inv, hphase⟩ := message_keepsInv h hmsg
    rw [runMessage_eq_andThen hmsg, next, andThen_next]
    exact ⟨_, rfl, inv.frameDone (.inr (.inl (hphase.trans hp)))⟩

theorem calDone_keepsInv (h : s.Inv) (hp : s.mphase = 3#4) : KeepsInv (exec .calDone s) :=
  ⟨_, exec_calDone_of_phase hp, h.doneWith (.inr (.inr hp)) _⟩

theorem arb_keepsInv (h : s.Inv) (hp : s.mphase = 4#4) : KeepsInv (exec .arb s) := by
  have service {l : Line} (htop : TopPending l s) (hflag : s.flag.get l = true) : KeepsInv (exec .arb s) :=
    ⟨_, exec_arb_of_topPending hp htop, h.startService hp hflag⟩
  cases himu : s.flag.imu with
  | true => exact service (.inl ⟨rfl, himu⟩) himu
  | false =>
    cases hcs : s.flag.cs with
    | true => exact service (.inr ⟨rfl, himu, hcs⟩) hcs
    | false =>
      rw [exec_arb_eq_exec_grant hp, arbGrant_of_flags_clear himu hcs]
      split_ifs
      · refine ⟨_, rfl, ((h.record .telemReq).withDeadline _).withPhase (v := 8#4) (by decide) ?_ (by decide) ?_ ?_⟩
        · exact fun hframe => absurd (hp ▸ hframe : FramePhase 4#4) (by decide)
        · exact fun he => absurd (hp.symm.trans he) (by decide)
        · exact fun hsvc => absurd hsvc (by decide)
      · exact ⟨_, exec_grantIdle s, h.toEnd hp⟩

/-- In a service phase MAIN goes on to another one. -/
theorem State.Inv.withServicePhase (h : s.Inv) (hp : ServicePhase s.mphase) {v : BitVec 4} (hv : ServicePhase v) :
    State.Inv { s with mphase := v } := by
  refine h.withPhase ?_ ?_ ?_ ?_ fun _ => h.serviced_disabled s.svcLine (servicing_iff.2 ⟨hp, rfl⟩)
  · obtain rfl | rfl | rfl := hv <;> decide
  · obtain he | he | he := hp <;> rw [he] <;> decide
  · obtain rfl | rfl | rfl := hv <;> decide
  · intro he
    rw [he] at hp
    exact absurd hp (by decide)

theorem svcDone_keepsInv (h : s.Inv) {l : Line} (hp : s.mphase = 5#4) (hl : s.svcLine = l) :
    KeepsInv (exec (.svcDone l) s) :=
  ⟨_, exec_svcDone_of_line hp hl, (h.record (.svcDone l)).withServicePhase (.inl hp) (.inr (.inl rfl))⟩

theorem rearm1_keepsInv (h : s.Inv) (hp : s.mphase = 6#4) : KeepsInv (exec .rearm1 s) :=
  ⟨_, exec_rearm1_of_line hp rfl, (h.withLatch (s.latch.put s.svcLine false)).withServicePhase (.inr (.inl hp)) (.inr (.inr rfl))⟩

/-- R243: when the line is enabled its service is over, and no work of it is pending. -/
theorem rearm2_keepsInv (h : s.Inv) (hp : s.mphase = 7#4) : KeepsInv (exec .rearm2 s) := by
  obtain ⟨-, hflag⟩ := h.serviced_disabled s.svcLine (servicing_iff.2 ⟨.inr (.inr hp), rfl⟩)
  have ended : State.Inv { s with mphase := 8#4 } := by
    refine h.withPhase (by decide) ?_ (by decide) ?_ ?_
    · rw [hp]
      decide
    · exact fun he => absurd (hp.symm.trans he) (by decide)
    · exact fun hsvc => absurd hsvc (by decide)
  exact ⟨_, exec_rearm2_of_line hp rfl, ended.enableLine hflag rfl⟩

/-- R236, R238: the iteration is not counted, is counted, or ends the window. -/
theorem endIter_keepsInv (h : s.Inv) (hp : s.mphase = 8#4) : KeepsInv (exec .endIter s) := by
  obtain ⟨-, ends⟩ := endAndFlushResults s
  obtain ⟨off, counting, flushing⟩ := ends hp
  have hloop := h.loop_bound
  have hidle := h.idle_bound
  by_cases hon : s.poPerf = true
  · by_cases hlast : s.loopCount.toNat + 1 = 10000
    · refine ⟨_, flushing hon hlast, State.Inv.withLoopCount (c := 0#16)
        ((h.withOptions s.poLevel s.poInterval s.poPerf s.deadline s.nowUs).withTrace _) hp (by decide) (Nat.zero_le _)⟩
    · have next : (s.loopCount + 1#16).toNat = s.loopCount.toNat + 1 := by bv_omega
      rw [if_pos ⟨hp, hon⟩] at hidle
      exact ⟨_, counting hon hlast, h.withLoopCount hp (by omega) (by omega)⟩
  · rw [if_neg (fun he => hon he.2)] at hidle
    exact ⟨_, off (Bool.eq_false_iff.2 hon), h.withLoopCount hp hloop hidle⟩

/-- The port-free operation of a phase. -/
theorem main_keepsInv (h : s.Inv) (he : Event.enabled s .main = true) : KeepsInv (runEvent .main s) := by
  cases hi : decodePhase s.mphase with
  | error e => simp [Event.enabled, hi] at he
  | ok i =>
    rw [runEvent_main_of_phase rfl hi]
    unfold decodePhase at hi
    split at hi <;> cases hi
    all_goals
      rename_i hb
      have hp := Phase.bits_of_ofBits _ _ hb
    exacts [decode_keepsInv h hp, dispatch_keepsInv h hp, arb_keepsInv h hp, rearm1_keepsInv h hp, rearm2_keepsInv h hp,
      endIter_keepsInv h hp]

/-! ### The other agents' operations -/

/-- R130: a request that TX accepts is refused whole or fits TB. -/
theorem txReq_keepsInv (h : s.Inv) (hidle : s.txPhase = .idle) (m : List Byte) : KeepsInv (exec (.txReq m) s) := by
  by_cases hfit : m.length ≤ s.params.txMsgCap ∧ (encodeFn m).length ≤ s.params.txEncCap
  · have loaded := h.withTxFrame (bs := txFrame m) (List.cons_ne_nil _ _) (by rw [length_txFrame]; omega)
    rw [length_txFrame] at loaded
    exact ⟨_, exec_txReq_of_accepted hidle hfit.1 hfit.2, loaded.withTrace _⟩
  · exact ⟨_, exec_txReq_of_refused hidle (by omega), h.withTrace _⟩

/-- R131: while TX sends, the byte at `tx_idx` is in TB. -/
theorem txPut_keepsInv (h : s.Inv) (hsend : s.txPhase = .send) : KeepsInv (exec .txPut s) := by
  have hlt := h.tx_send hsend
  obtain ⟨b, hread⟩ := Option.isSome_iff_exists.1 (h.tb_filled s.txIdx.toNat hlt)
  have sent : exec .txPut s = .next (advanceTx (record (.txPut b) s)) := by
    change execTxPut s = _
    rw [execTxPut, hsend]
    simp only [memRead_ok .tb s.txIdx.toNat s b hlt hread]
  exact ⟨_, sent, (h.record (.txPut b)).advanceTx hsend⟩

theorem irqFire_keepsInv (h : s.Inv) {l : Line} (hien : s.ien.get l = true) (hlatch : s.latch.get l = true) :
    KeepsInv (exec (.irqFire l) s) := by
  rw [exec_irqFire, afterIrq_of_enabled hien hlatch]
  exact ⟨_, rfl, h.irqEntry hien⟩

theorem bootArm_keepsInv (h : s.Inv) {l : Line} (hfree : (s.ien.get l || s.flag.get l || servicing s l) = false) :
    KeepsInv (exec (.bootArm l) s) := by
  obtain ⟨hbits, hsvc⟩ := Bool.or_eq_false_iff.1 hfree
  obtain ⟨-, hflag⟩ := Bool.or_eq_false_iff.1 hbits
  rw [exec_bootArm_of_legal l h.phase_legal, if_neg (Bool.eq_false_iff.1 hfree)]
  exact ⟨_, rfl, ((h.record (.arm l)).withLatch _).enableLine hflag hsvc⟩

/-- R46, R14, R21, R61, R62: from a state with the invariant every event leads to a next state with the invariant. -/
theorem runEvent_keepsInv (h : s.Inv) (e : Event) : KeepsInv (runEvent e s) := by
  by_cases he : Event.enabled s e = true
  swap
  · exact ⟨s, runEvent_of_not_enabled h.phase_legal (Bool.eq_false_iff.2 he), h⟩
  cases e with
  | main => exact main_keepsInv h he
  | rxPoll a =>
    obtain ⟨hp, hfs⟩ : s.mphase = 0#4 ∧ s.fsState ≠ .handoff :=
      (Bool.and_eq_true_iff.1 he).imp of_decide_eq_true of_decide_eq_true
    cases a with
    | none => exact rxPoll_none_keepsInv h hp hfs
    | some b => exact rxPoll_some_keepsInv h hp hfs b
  | calibDone => exact calDone_keepsInv h (of_decide_eq_true he)
  | svcDone l =>
    obtain ⟨hp, hl⟩ : s.mphase = 5#4 ∧ s.svcLine = l := (Bool.and_eq_true_iff.1 he).imp of_decide_eq_true of_decide_eq_true
    exact svcDone_keepsInv h hp hl
  | txReq m => exact txReq_keepsInv h (of_decide_eq_true he) m
  | txPut => exact txPut_keepsInv h (of_decide_eq_true he)
  | irq l =>
    obtain ⟨hien, hlatch⟩ := Bool.and_eq_true_iff.1 he
    exact irqFire_keepsInv h hien hlatch
  | alert l => exact ⟨_, rfl, (h.record (.alert l)).withLatch _⟩
  | arm l => exact bootArm_keepsInv h ((Bool.not_eq_true' _).mp he)
  | clock d =>
    obtain ⟨hd, hwrap⟩ : d ≠ 0#64 ∧ s.nowUs.toNat + d.toNat < 2 ^ 64 :=
      (Bool.and_eq_true_iff.1 he).imp of_decide_eq_true of_decide_eq_true
    exact ⟨_, exec_clockTick_of_accepted hd hwrap, h.withClock _⟩
  | rst => exact ⟨_, rfl, ((inv_resetWith s.nowUs h.params_valid).withTrace s.trace).withSchedule s.pending s.draws⟩

end

/-- A step is an event on the state without it, which has the invariant too. -/
theorem step_keepsInv {s : State} (h : s.Inv) : KeepsInv (step s) := by
  obtain ⟨scheduled, drawn, -⟩ := stepRunsSelectedOperation
  cases hs : s.pending with
  | nil =>
    rw [drawn s hs]
    exact runEvent_keepsInv (h.withSchedule s.pending (s.draws + 1)) _
  | cons e r =>
    rw [scheduled s e r hs]
    exact runEvent_keepsInv (h.withSchedule r s.draws) e

/-- Settles O53. -/
theorem stepKeepsInvariant : Obligations.StepKeepsInvariant := by
  intro s t h hstep
  obtain ⟨u, next, inv⟩ := step_keepsInv h
  obtain rfl : u = t := Host.Outcome.next.inj (next.symm.trans hstep)
  exact inv

/-- Settles O54. -/
theorem stepAlwaysCompletes : Obligations.StepAlwaysCompletes := by
  intro s h
  obtain ⟨t, next, -⟩ := step_keepsInv h
  exact ⟨t, next⟩

end Sys2Proof.Machine
end

section
/-! Every firing is serviced once (43_handoff.md section 5, R246). -/

namespace Sys2Proof.Machine

/-- An event selects no bare grant, IRQ_FIRE only as the interrupt of its line, and reset only as `rst`. -/
theorem decodePort_trigger {s : State} {e : Event} {i : Instr} (h : decodePort (Event.trigger s e) = .ok i) :
    i ≠ .grantImu ∧ i ≠ .grantCs ∧ (∀ l, i = .irqFire l → e = .irq l) ∧ (i = .reset → e = .rst) := by
  cases e with
  | main =>
    have hi : decodePhase s.mphase = .ok i := h
    unfold decodePhase at hi
    split at hi <;> cases hi <;> exact ⟨nofun, nofun, nofun, nofun⟩
  | irq l =>
    cases h
    refine ⟨nofun, nofun, fun l' hl => ?_, nofun⟩
    cases hl
    rfl
  | rst =>
    cases h
    exact ⟨nofun, nofun, nofun, fun _ => rfl⟩
  | _ =>
    cases h
    exact ⟨nofun, nofun, nofun, nofun⟩

/-- 1 for a set bit. -/
def bitCount (b : Bool) : Nat := if b = true then 1 else 0

/-- From `s` to `t` the trace grows by `new`, and the firings of line `l` and its flag before are as many as its services and its flag
after (R246). -/
structure Balanced (l : Line) (fired : Nat) (new : List Transaction) (s t : State) : Prop where
  trace : t.trace = s.trace ++ new
  balance : fired + bitCount (s.flag.get l) = svcReqs l new + bitCount (t.flag.get l)

section
variable {l : Line} {s t u : State}

theorem Balanced.of_quiet {new : List Transaction} (htrace : t.trace = s.trace ++ new) (hsvc : svcReqs l new = 0)
    (hflag : t.flag = s.flag) : Balanced l 0 new s t :=
  ⟨htrace, by rw [hsvc, hflag]⟩

theorem Balanced.refl (s : State) : Balanced l 0 [] s s := .of_quiet (List.append_nil _).symm rfl rfl

theorem Balanced.trans {m n : Nat} {new new' : List Transaction} (h : Balanced l m new s t) (h' : Balanced l n new' t u) :
    Balanced l (m + n) (new ++ new') s u := by
  refine ⟨by rw [h'.trace, h.trace, List.append_assoc], ?_⟩
  have hb := h.balance
  have hb' := h'.balance
  rw [svcReqs_append]
  omega

/-- R232, R233: a service takes the flag of its line. -/
theorem balanced_startService {l' : Line} (hflag : s.flag.get l' = true) :
    Balanced l 0 [.svcReq l'] s (startService l' s) := by
  refine ⟨rfl, ?_⟩
  change 0 + bitCount (s.flag.get l) = svcReqs l [.svcReq l'] + bitCount ((s.flag.put l' false).get l)
  by_cases hl : l = l'
  · subst hl
    rw [hflag, LineBits.get_put_same]
    simp [svcReqs, bitCount]
  · rw [LineBits.get_put_other s.flag l' l false hl]
    have other : svcReqs l [.svcReq l'] = 0 := by simp [svcReqs, Ne.symm hl]
    rw [other]

/-- An operation of an event that is no interrupt and no reset keeps the balance without a firing. -/
theorem Effect.balanced {i : Instr} (h : Effect i s t) (himu : i ≠ .grantImu) (hcs : i ≠ .grantCs)
    (hirq : ∀ l, i ≠ .irqFire l) (hreset : i ≠ .reset) : ∃ new, Balanced l 0 new s t := by
  cases h with
  | aside h =>
    obtain ⟨ts, htrace, hplain⟩ := h.trace
    exact ⟨ts, .of_quiet htrace (hplain.svcReqs_eq l) (congrArg Shared.flag h.shared)⟩
  | setOptions _ h => exact ⟨_, .of_quiet h.trace rfl h.flag⟩
  | service hi =>
    obtain ⟨-, htop⟩ | ⟨rfl, -⟩ | ⟨rfl, -⟩ := hi
    · obtain ⟨rfl, hflag⟩ | ⟨rfl, -, hflag⟩ := htop
      · exact ⟨_, balanced_startService hflag⟩
      · exact ⟨_, balanced_startService hflag⟩
    · exact absurd rfl himu
    · exact absurd rfl hcs
  | periodic => exact ⟨[.telemReq], .of_quiet rfl rfl rfl⟩
  | @fire l' => exact absurd rfl (hirq l')
  | reset => exact absurd rfl hreset
  | alert => exact ⟨_, .of_quiet rfl rfl rfl⟩
  | arm => exact ⟨_, .of_quiet rfl rfl rfl⟩
  | _ => exact ⟨[], .of_quiet (List.append_nil _).symm rfl rfl⟩

/-- How often line `l` fires in one event. -/
def fires (l : Line) (e : Event) (s : State) : Nat :=
  if e = .irq l ∧ s.ien.get l = true ∧ s.latch.get l = true then 1 else 0

/-- R241: an interrupt that fires sets a flag that was clear, since a pending line is disabled. -/
theorem balanced_irq (h : s.Inv) (l' : Line) : Balanced l (fires l (.irq l') s) [] s (afterIrq l' s) := by
  by_cases hen : s.ien.get l' = true ∧ s.latch.get l' = true
  · rw [afterIrq_of_enabled hen.1 hen.2]
    refine ⟨(List.append_nil _).symm, ?_⟩
    rw [irqEntry_flag, fires]
    by_cases hl : l = l'
    · subst hl
      have clear : s.flag.get l = false := Bool.eq_false_iff.2 fun hon => by
        rw [h.pending_disabled l hon] at hen
        exact Bool.false_ne_true hen.1
      rw [if_pos ⟨rfl, hen⟩, clear, LineBits.get_put_same]
      rfl
    · rw [if_neg (fun hf => hl (Event.irq.inj hf.1).symm), LineBits.get_put_other s.flag l' l true hl]
      rfl
  · have waits : s.ien.get l' = false ∨ s.latch.get l' = false := by
      rw [← Bool.not_eq_true, ← Bool.not_eq_true]
      exact not_and_or.1 hen
    have silent : fires l (.irq l') s = 0 := if_neg fun hf => by
      cases hf.1
      exact hen hf.2
    rw [afterIrq_of_not_enabled waits, silent]
    exact .refl s

theorem runEvent_balanced (h : s.Inv) {e : Event} (hrst : e ≠ .rst) (hrun : runEvent e s = .next t) :
    ∃ new, Balanced l (fires l e s) new s t := by
  by_cases hirq : ∃ l', e = .irq l'
  · obtain ⟨l', rfl⟩ := hirq
    cases hrun
    exact ⟨[], balanced_irq h l'⟩
  · have silent : fires l e s = 0 := if_neg fun hf => hirq ⟨l, hf.1⟩
    rw [silent]
    cases hd : decodePort (Event.trigger s e) with
    | error r =>
      have stays : runEvent e s = noOperation r s := by rw [runEvent, decode, hd]
      rw [stays] at hrun
      cases r <;> cases hrun <;> exact ⟨[], .refl s⟩
    | ok i =>
      obtain ⟨himu, hcs, hfire, hreset⟩ := decodePort_trigger hd
      rw [runEvent_of_decode hd] at hrun
      exact (effect_of_exec hrun).balanced himu hcs (fun l' hi => hirq ⟨l', hfire l' hi⟩) (mt hreset hrst)

theorem runEvents_balanced {es : List Event} (h : s.Inv) (hrst : Event.rst ∉ es) (hrun : runEvents es s = .next t) :
    ∃ new, Balanced l (firings l es s) new s t := by
  induction es generalizing s with
  | nil =>
    cases hrun
    exact ⟨[], .refl _⟩
  | cons e es ih =>
    obtain ⟨he, hes⟩ := not_or.1 (mt List.mem_cons.2 hrst)
    obtain ⟨u, next, inv⟩ := runEvent_keepsInv h e
    rw [runEvents_cons_of_next next] at hrun
    obtain ⟨new, hnew⟩ := runEvent_balanced (l := l) h (Ne.symm he) next
    obtain ⟨new', hnew'⟩ := ih inv hes hrun
    have counted : firings l (e :: es) s = fires l e s + firings l es u := by
      rw [firings, next]
      rfl
    exact ⟨new ++ new', counted ▸ hnew.trans hnew'⟩

end

/-- Settles O39, by induction on the events: the balance holds of each and composes. -/
theorem firingsAreServicedOnce : Obligations.FiringsAreServicedOnce := by
  intro l es s t h hrst hrun
  obtain ⟨new, hnew⟩ := runEvents_balanced (l := l) h hrst hrun
  exact ⟨new, hnew.trace, hnew.balance⟩

end Sys2Proof.Machine
end
